-- ==== Sys2Proof/Word.lean ====
section
/-! DEFINITION. The word types of CKLINK (spec/00_scope.md R9: bit 0 is the least significant bit, every value unsigned). -/

namespace Sys2Proof

/-- One byte: a wire byte, a buffer-memory byte, the sequence index (R9, R22, R51). -/
abbrev Byte := BitVec 8

/-- A 16-bit word: the accumulator, a descriptor, a response word (R21, R29, R39). -/
abbrev Word := BitVec 16

/-- A 24-bit host command word (R89). -/
abbrev Cmd := BitVec 24

/-- A sample of the millisecond clock, `CLK_W` = 32 bits (R8, R63). -/
abbrev Millis := BitVec 32

end Sys2Proof
end

