-- ==== Sys2Proof/Config.lean ====
section
/-! DEFINITION. The constants the spec fixes (spec/00_scope.md R7), the parameters it leaves OPEN (R8), and the one value it
leaves free (spec/10_state.md R31). UNVERIFIED (log 21, unsafe): the literals of R7 are "unaudited" by the spec's own word (U1). -/

namespace Sys2Proof.Config

/-- `START_MARKER`, the first byte of every frame (R7). -/
def startMarker : Byte := 0xFF

/-- `SEED`, the accumulator's seed (R7). -/
def seed : Word := 0xAAAA

/-- `T_ACK`, ms: the wait for the first reply byte (R7, R267). -/
def tAck : Nat := 100

/-- `T_BYTE`, ms: the wait for every later reply byte (R7, R267). -/
def tByte : Nat := 5

/-- `T_BACKOFF`, ms: the delay before a retry (R7, R267). -/
def tBackoff : Nat := 100

/-- `T_SETTLE`, ms: the handshake's settle delay (R7, R267). -/
def tSettle : Nat := 1100

/-- `T_HS1`, ms: after the interrupt signal (R7, R204). -/
def tHs1 : Nat := 250

/-- `T_HS2`, ms: after the first blank line (R7, R205). -/
def tHs2 : Nat := 500

/-- `T_HS3`, ms: after the second blank line (R7, R206). -/
def tHs3 : Nat := 750

/-- `T_HS4`, ms: after the activate command (R7, R207). -/
def tHs4 : Nat := 500

/-- `HS_RESET_CMD`, the bytes of `"XX100"` (R7, R8, R30). PRESUMED, log 20 (unsafe): ASCII, as the spec itself presumes (G5). -/
def hsResetCmd : List Byte := [0x58, 0x58, 0x31, 0x30, 0x30]

/-- `HS_RESET_OK`, the correct reset reply (R7). -/
def hsResetOk : Byte := 0x00

/-- `KV_SEPARATOR` of the `D` command's payload (R7, R93). -/
def kvSeparator : Byte := 0xFE

/-- The command letter `m`, "dequeue next message" (R93). PRESUMED, log 20 (unsafe): ASCII codes (G4), this one and the next five. -/
def letterDequeue : Byte := 0x6D

/-- The command letter `M`, "enqueue message" (R93). -/
def letterEnqueue : Byte := 0x4D

/-- The command letter `J`, "enqueue JSON payload" (R93). -/
def letterJson : Byte := 0x4A

/-- The command letter `n`, "query queued-message count" (R93). -/
def letterCount : Byte := 0x6E

/-- The command letter `D`, "store key/value" (R93). -/
def letterStore : Byte := 0x44

/-- The command letter `d`, "fetch value" (R93). -/
def letterFetch : Byte := 0x64

/-- The size of buffer memory, 2^`ADDR_W` with `ADDR_W` = 16 (R8, R51). -/
def memSize : Nat := 65536

/-- What a byte of buffer memory that nothing has written reads as. DESIGN CHOICE, log 4 (unsafe): the spec gives none. -/
def memDefault : Byte := 0x00

/-- The parameters that R8 leaves OPEN: named arguments of the model. They travel in `State`, and no step writes them, so a
statement about every state is parametric in them, as spec/91_not_in_source.md N4 asks of a proof. -/
structure Params where
  /-- `HS_INTERRUPT`, the bytes of the "interrupt signal" (R8, R204). -/
  hsInterrupt : List Byte
  /-- `HS_BLANK`, the bytes of a "blank line" (R8, R205, R206). -/
  hsBlank : List Byte
  /-- `HS_ACTIVATE`, the bytes of the "activate" command (R8, R207). -/
  hsActivate : List Byte
  /-- `AVAIL_W` less 1, so that the width is at least 1 bit (R8, R60). -/
  availWPred : Nat
deriving DecidableEq, Repr

/-- The defaults of R8. PRESUMED, log 7 (unsafe): the strings are general knowledge by the spec's own mark; the count's width
(8 bits) is a DESIGN CHOICE, log 22 (safe: only the zero test is used). -/
def Params.default : Params where
  hsInterrupt := [0x03]
  hsBlank := [0x0A]
  hsActivate := [0x72, 0x75, 0x6E, 0x2D, 0x62, 0x72, 0x69, 0x64, 0x67, 0x65, 0x0A]
  availWPred := 7

/-- FREE VALUE (log 8, safe): the value the handshake's test reads when the accepted reset reply had an empty payload, so that
`hs_reply` was not written in this run (R31, R210, U7). It has no body; `n` counts the draws. -/
opaque freeHsReply : Nat → Byte

end Sys2Proof.Config
end

