-- ==== Sys2Proof/Machine/Bytes.lean ====
section
/-! DEFINITION. Byte order: the halves of a word, and the word of two bytes, high byte first (spec/20_memory.md R54,
spec/30_encoding.md R83: "all multi-byte integers big-endian"). -/

namespace Sys2Proof.Machine

/-- `v[15:8]`. -/
def hiByte (v : Word) : Byte := v.extractLsb' 8 8

/-- `v[7:0]`. -/
def loByte (v : Word) : Byte := v.extractLsb' 0 8

/-- `{hi, lo}`. -/
def joinBytes (hi lo : Byte) : Word := (hi.setWidth 16 <<< 8) ||| lo.setWidth 16

end Sys2Proof.Machine
end

