-- ==== Sys2Proof/Machine/Checksum.lean ====
section
/-! DEFINITION. The Checksum Engine's step function and the checksum of a byte string (spec/40_checksum_engine.md R110, R115). -/

namespace Sys2Proof.Machine

/-- `CkUpdate(a, b)`: XOR the byte into the low half, then swap the halves (R110). -/
def ckUpdate (a : Word) (b : Byte) : Word :=
  let t := a ^^^ b.setWidth 16
  (t >>> 8) ||| (t <<< 8)

/-- `acc` after the bytes, in order, from `a`. -/
def ckFold (a : Word) (bytes : List Byte) : Word :=
  bytes.foldl ckUpdate a

/-- `Ck(bytes)`, the checksum of a byte string (R115). -/
def ck (bytes : List Byte) : Word :=
  ckFold Config.seed bytes

/-- The XOR of every second byte, the first included; an empty XOR is 0 (R115). -/
def xorAlternate : List Byte → Byte
  | [] => 0
  | [b] => b
  | b :: _ :: rest => b ^^^ xorAlternate rest

/-- `E` of R115: the XOR of the bytes at even distance from the end. -/
def xorEven (bytes : List Byte) : Byte :=
  xorAlternate bytes.reverse

/-- `O` of R115: the XOR of the bytes at odd distance from the end. -/
def xorOdd (bytes : List Byte) : Byte :=
  xorAlternate bytes.reverse.tail

end Sys2Proof.Machine
end

