-- ==== Sys2Proof/Syntax.lean ====
section
/-! DEFINITION. The operations of CKLINK: one constructor of `Instr` per row of spec/opcode_table.json (spec/30_encoding.md R100). -/

namespace Sys2Proof

/-- The twelve implemented host registers, in the order of their numbers 0 to 11 (spec/10_state.md R36). -/
inductive HostReg where
  | seg1Base | seg1Len | seg2Base | seg2Len | seg3Base | seg3Len
  | rxBase | rxCap | resultLen | index | acc | status
deriving DecidableEq, Repr

/-- Where a pseudo-operation's host places its bytes: `A1`, `A2`, `A3` for the segments, `AR` and `C` for the receive buffer
(spec/44_host_register_ops.md R235: "the addresses are the host's choice"). -/
structure Placement where
  a1 : Word
  a2 : Word
  a3 : Word
  ar : Word
  cap : Word
deriving DecidableEq, Repr

/-- The operations, in the table's order. -/
inductive Instr where
  -- HOSTCMD: 24-bit host command words (R90)
  | nop
  | ckReset
  | ckUpdate (b : Byte)
  | ckFinalize
  | ckMatches (cand : Word)
  | wrreg (r : HostReg) (v : Word)
  | rdreg (r : HostReg)
  | transfer
  | beginHs
  -- INTERNAL: no host encoding (R92)
  | timedRead (t : Nat)
  | delay (t : Nat)
  | drain
  | emit (b : Byte)
  -- FRAME: their encoding is the wire frame (R81, R92)
  | fcSend
  | fcRecv
  -- PSEUDO: expand to register writes and one TRANSFER (R99, R235)
  | get (p : Placement) (key : List Byte)
  | put (p : Placement) (key value : List Byte)
  | msgSend (p : Placement) (msg : List Byte)
  | msgRecv (p : Placement)
  | msgCount (p : Placement)
  | jsonSend (p : Placement) (text : List Byte)
  -- PAYLOAD_CMD: bytes of a request payload (R93)
  | payDequeue
  | payEnqueue
  | payJson
  | payCount
  | payStore
  | payFetch
  | payReset
  -- RESERVED: every command word that is not legal (R97)
  | reserved (w : Cmd)
deriving DecidableEq, Repr

end Sys2Proof
end

