-- ==== Sys2Proof/Machine/State.lean ====
section
/-! DEFINITION. The state of CKLINK (spec/10_state.md R20), of its interfaces and of its environment, as plain data; the
outcomes of a step; and the state after reset (R43). -/

namespace Sys2Proof.Machine

/-- `ctl_state`, the controller's state (spec/10_state.md R26). -/
inductive CtlState where
  | idle | sending | awaitingAck | receivingHeader | receivingPayload | validating | accepted | retrying
deriving DecidableEq, Repr

/-- `hs_state`, the handshake's state (R27). DEDUCED, log 29 (safe): the spec counts eleven values and names these ten. -/
inductive HsState where
  | idle | settle | interrupt | blank1 | blank2 | activate | drain | reset | check | halted
deriving DecidableEq, Repr

/-- The seven causes of a link error (spec/60_exceptions.md R251). They are labels: no state element records one. -/
inductive LinkCause where
  | ackTimeout | badMarker | headerTimeout | badIndex | payloadTimeout | trailerTimeout | checksumMismatch
deriving DecidableEq, Repr

/-- The result of a poll of TIMEDREAD (spec/41_frame_codec.md R130): a byte, a timeout, or the wait goes on. -/
inductive TimedResult where
  | pending
  | byte (c : Byte)
  | timeout
deriving DecidableEq, Repr

/-- One move of the schedule: the block takes a step, or one of the environment's agents moves (spec/00_scope.md R13,
spec/20_memory.md R61, spec/42_retry_sync_controller.md R182). -/
inductive Move where
  /-- The block takes one step. -/
  | block
  /-- The line appends bytes to the inbound queue (R61). -/
  | arrive (bytes : List Byte)
  /-- The clock advances by `ms` milliseconds (R63, R65). -/
  | tick (ms : Nat)
  /-- The transport drives `tx_ready` (R58). -/
  | setTxReady (ready : Bool)
  /-- The host has one more command word to issue (R39). -/
  | command (w : Cmd)
  /-- The host stores a byte of buffer memory, which it owns (R51). -/
  | hostStore (a : Word) (b : Byte)
  /-- Hardware reset (spec/70_reset_and_hazards.md R280, R296). -/
  | rst
deriving DecidableEq, Repr

/-- Why the machine stops with a fault. -/
inductive Fault where
  /-- Raised by a buffer-memory access of the block at an address of 65536 or more, which does not exist (spec/20_memory.md R51,
  R53). Safe: TRANSFER's preconditions (R162) keep every run away from it. DESIGN CHOICE, log 18. -/
  | addressOutsideMemory (addr : Nat)
  /-- Raised where the send position stands behind the five bytes of `HS_RESET_CMD` (spec/10_state.md R30), which have no such byte.
  Safe: no state that meets the model's invariant does it. DESIGN CHOICE, log 18. -/
  | beyondResetCommand (k : Nat)
deriving DecidableEq, Repr

/-- Why an instruction is given no meaning. -/
inductive Refusal where
  /-- Raised by `exec` for an instruction whose meaning is not written. Safe: nothing can be proved of it. -/
  | notModelled (mnemonic : String)
  /-- Raised by a reserved command word (spec/30_encoding.md R97, `refuse`). Safe: the spec gives it no meaning. -/
  | reservedWord (w : Cmd)
  /-- Raised by TRANSFER, and by a pseudo-operation, whose payload is longer than 65535 bytes (R162 (a), `refuse`). Safe. -/
  | payloadTooLong
  /-- Raised by TRANSFER, and by a pseudo-operation, with a non-empty segment or receive buffer that passes 0xFFFF
  (R162 (b), R53, `refuse`). Safe. -/
  | bufferPastMemory
  /-- Raised by WRREG of a read-only register; the decoder never answers that form, its words are reserved (R36, R97). Safe. -/
  | readOnlyRegister (r : HostReg)
deriving DecidableEq, Repr

/-- The machine's state. -/
structure State where
  /-- The accumulator (R21). -/
  acc : Word
  /-- The sequence index (R22). -/
  index : Byte
  /-- The handshake's one-shot guard (R23). -/
  started : Bool
  /-- `match`, the result of the last CK_MATCHES (R24). -/
  matchFlag : Bool
  /-- `ctl_state` (R26). -/
  ctl : CtlState
  /-- `hs_state` (R27). -/
  hs : HsState
  /-- The eight descriptors `x[0..7]` (R29, R36). -/
  seg1Base : Word
  seg1Len : Word
  seg2Base : Word
  seg2Len : Word
  seg3Base : Word
  seg3Len : Word
  rxBase : Word
  rxCap : Word
  /-- `result_len`, the count the last host TRANSFER returned (R32). -/
  resultLen : Word
  /-- `tx_len`, the payload length of the request being sent (R28, R135). -/
  txLen : Word
  /-- `hdr_i`: which header byte of the reply is awaited, 0 index, 1 length-hi, 2 length-lo (R28, R139). -/
  hdrI : BitVec 2
  /-- `rx_len`, the reply's declared length (R28, R139). -/
  rxLen : Word
  /-- `rx_cnt`, the payload bytes of the reply consumed so far (R28, R140). -/
  rxCnt : Word
  /-- `cand_hi`, the first trailer byte (R28, R141). -/
  candHi : Byte
  /-- `t0`, the clock sample of a timed wait (R28, R130). -/
  t0 : Millis
  /-- `hs_reply`, the first payload byte of the reset reply (R31). -/
  hsReply : Byte
  /-- `rsp_valid` with `rsp_word`: a response not yet delivered (R39, R40). -/
  rsp : Option Word
  /-- MODEL's own, log 9: how many sub-steps of the present state's procedure are done. -/
  pos : Nat
  /-- MODEL's own, log 9: `t0` has been sampled for the present timed wait. -/
  waiting : Bool
  /-- MODEL's own, log 9: the result of the last poll of TIMEDREAD. -/
  timedResult : TimedResult
  /-- MODEL's own, log 8: how many free values have been drawn. -/
  freeCount : Nat
  /-- Buffer memory, in canonical form (R51; `Memory.wf`). -/
  mem : List Host.Cell
  /-- `rxq`, the transport's inbound queue, oldest byte first (R57). -/
  rxq : List Byte
  /-- `txlog`, every byte the block has written, oldest first (R57). -/
  txlog : List Byte
  /-- `tx_ready`: the transport takes a byte (R58). -/
  txReady : Bool
  /-- `now_ms`, the millisecond clock (R63). -/
  nowMs : Millis
  /-- The command words the host has still to issue; the head is offered on `cmd_word` (R39). -/
  cmds : List Cmd
  /-- The responses the host has received, oldest first (R39). -/
  rspLog : List Word
  /-- The moves to come (log 1). -/
  sched : List Move
  /-- The moves that recur for ever once `sched` is used up (log 1). -/
  loop : List Move
  /-- The OPEN parameters of R8 (log 7). -/
  params : Config.Params
deriving DecidableEq, Repr

/-- The state after hardware reset (R43, R280). Where R43 says "unspecified", and for the environment and the model's own fields,
the values are DESIGN CHOICEs (logs 5, 6, 8, 9; unsafe), and `params` is PRESUMED (log 7; unsafe). -/
def State.reset : State where
  acc := Config.seed
  index := 0
  started := false
  matchFlag := false
  ctl := .idle
  hs := .idle
  seg1Base := 0
  seg1Len := 0
  seg2Base := 0
  seg2Len := 0
  seg3Base := 0
  seg3Len := 0
  rxBase := 0
  rxCap := 0
  resultLen := 0
  txLen := 0
  hdrI := 0
  rxLen := 0
  rxCnt := 0
  candHi := 0
  t0 := 0
  hsReply := 0
  rsp := none
  pos := 0
  waiting := false
  timedResult := .pending
  freeCount := 0
  mem := []
  rxq := []
  txlog := []
  txReady := true
  nowMs := 0
  cmds := []
  rspLog := []
  sched := []
  loop := []
  params := Config.Params.default

/-- The answer of an instruction's meaning, and of a step. -/
abbrev Answer := Host.Outcome State Fault Refusal

end Sys2Proof.Machine
end

