-- ==== Sys2Proof/Machine/Flags.lean ====
section
/-! DEFINITION. Flags: `match`, the STATUS word and the derived output `busy` (spec/10_state.md R23 to R25, R33, R37). There are
no arithmetic condition codes (R25). -/

namespace Sys2Proof.Machine

/-- What CK_MATCHES compares: all 16 bits (spec/40_checksum_engine.md R114). -/
def accMatches (acc cand : Word) : Bool :=
  acc == cand

/-- A one-bit flag as a response word: 0x0001 or 0x0000 (R41). -/
def flagWord (f : Bool) : Word :=
  (BitVec.ofBool f).setWidth 16

/-- STATUS: bit 0 `started`, bit 1 `match`, bits 15:2 read as 0 (R37). -/
def State.statusWord (s : State) : Word :=
  (BitVec.ofBool s.matchFlag ++ BitVec.ofBool s.started).setWidth 16

/-- `busy = (ctl_state != Idle) or (hs_state != HsIdle)` (R33). -/
def State.busy (s : State) : Bool :=
  s.ctl != .idle || s.hs != .idle

/-- `cmd_ready`: not busy, and the previous response delivered (R40). -/
def State.cmdReady (s : State) : Bool :=
  !s.busy && s.rsp.isNone

end Sys2Proof.Machine
end

