-- ==== Sys2Proof/Machine/Memory.lean ====
section
/-! DEFINITION. Buffer memory (spec/20_memory.md R51 to R56): 65536 bytes as a list of (address, byte) pairs in canonical form. -/

namespace Sys2Proof.Machine

/-- The byte at an address; an unlisted one reads `Config.memDefault` (log 4). -/
def Memory.get : List Host.Cell → Nat → Byte
  | [], _ => Config.memDefault
  | (k, v) :: rest, a => if k = a then v else Memory.get rest a

/-- Put a byte in front, unless it is what an unlisted address reads as. -/
def Memory.cons (a : Nat) (b : Byte) (rest : List Host.Cell) : List Host.Cell :=
  if b = Config.memDefault then rest else (a, b) :: rest

/-- Store a byte; addresses stay strictly rising, and a stored default removes its entry. -/
def Memory.set : List Host.Cell → Nat → Byte → List Host.Cell
  | [], a, b => Memory.cons a b []
  | (k, v) :: rest, a, b =>
    if a < k then Memory.cons a b ((k, v) :: rest)
    else if a = k then Memory.cons a b rest
    else (k, v) :: Memory.set rest a b

/-- Canonical form from a lowest allowed address on. -/
def Memory.wfFrom : Nat → List Host.Cell → Bool
  | _, [] => true
  | low, (k, v) :: rest =>
    decide (low ≤ k) && decide (k < Config.memSize) && decide (v ≠ Config.memDefault) && Memory.wfFrom (k + 1) rest

/-- Canonical form: addresses strictly rising and inside the memory, no entry equal to the default. -/
def Memory.wf (m : List Host.Cell) : Bool :=
  Memory.wfFrom 0 m

/-- Store a run of bytes at rising addresses (the host placing a payload, spec/44_host_register_ops.md R235). -/
def Memory.setRange (m : List Host.Cell) (a : Nat) : List Byte → List Host.Cell
  | [] => m
  | b :: rest => Memory.setRange (Memory.set m a b) (a + 1) rest

/-- The `n` bytes from an address on. -/
def Memory.getRange (m : List Host.Cell) (a : Nat) : Nat → List Byte
  | 0 => []
  | n + 1 => Memory.get m a :: Memory.getRange m (a + 1) n

end Sys2Proof.Machine
end

