-- ==== Sys2Proof/WellFormed.lean ====
section
/-! DEFINITION. Which terms of `Instr` the spec's encodings and operand ranges admit. -/

namespace Sys2Proof

/-- The registers WRREG may name, numbers 0 to 7 (spec/10_state.md R36, spec/44_host_register_ops.md R231). -/
def HostReg.writable : HostReg → Bool
  | .seg1Base | .seg1Len | .seg2Base | .seg2Len | .seg3Base | .seg3Len | .rxBase | .rxCap => true
  | .resultLen | .index | .acc | .status => false

/-- One host row of spec/opcode_table.json: a word `w` selects it when `w & mask = pattern` (R100). -/
structure HostRow where
  mnemonic : String
  pattern : Cmd
  mask : Cmd
deriving DecidableEq, Repr

/-- The nine host rows of spec/opcode_table.json (R90, R100). -/
def hostRows : List HostRow :=
  [ ⟨"NOP", 0x000000, 0xFFFFFF⟩, ⟨"CK_RESET", 0x100000, 0xFFFFFF⟩, ⟨"CK_UPDATE", 0x200000, 0xFFFF00⟩,
    ⟨"CK_FINALIZE", 0x300000, 0xFFFFFF⟩, ⟨"CK_MATCHES", 0x400000, 0xFF0000⟩, ⟨"WRREG", 0x500000, 0xF80000⟩,
    ⟨"RDREG", 0x600000, 0xF0FFFF⟩, ⟨"TRANSFER", 0x700000, 0xFFFFFF⟩, ⟨"BEGIN", 0x800000, 0xFFFFFF⟩ ]

/-- RDREG's range that its mask cannot say: numbers 12 to 15 are reserved (R97, R100). -/
def rdregReserved (w : Cmd) : Bool :=
  w &&& 0xFCFFFF == 0x6C0000

/-- The legal command words of R96, read off the table's patterns (R100). -/
def legalWord (w : Cmd) : Bool :=
  hostRows.any (fun row => w &&& row.mask == row.pattern) && !rdregReserved w

/-- The timeouts TIMEDREAD is ever passed (spec/41_frame_codec.md R130). -/
def timeoutOk (t : Nat) : Bool :=
  t == Config.tAck || t == Config.tByte

/-- The durations DELAY is ever passed (R132). -/
def durationOk (t : Nat) : Bool :=
  t == Config.tBackoff || t == Config.tSettle || t == Config.tHs1 || t == Config.tHs2 || t == Config.tHs3 || t == Config.tHs4

/-- A run of `len` bytes at `base` stays inside buffer memory (spec/20_memory.md R53). -/
def fitsAt (base : Word) (len : Nat) : Bool :=
  len == 0 || decide (base.toNat + len ≤ Config.memSize)

/-- The bytes of a pseudo-operation can be placed and described: R162's conditions on the split it expands to. -/
def placementOk (p : Placement) (l1 l2 l3 : Nat) : Bool :=
  decide (l1 + l2 + l3 ≤ 65535) && fitsAt p.a1 l1 && fitsAt p.a2 l2 && fitsAt p.a3 l3 && fitsAt p.ar p.cap.toNat

/-- The well-formed operations. -/
def Instr.wf : Instr → Bool
  | .nop | .ckReset | .ckUpdate _ | .ckFinalize | .ckMatches _ | .rdreg _ | .transfer | .beginHs => true
  | .wrreg r _ => r.writable
  | .timedRead t => timeoutOk t
  | .delay t => durationOk t
  | .drain | .emit _ | .fcSend | .fcRecv => true
  | .get p key => placementOk p 1 key.length 0
  | .put p key value => placementOk p (1 + key.length) 1 value.length
  | .msgSend p msg => placementOk p 1 msg.length 0
  | .msgRecv p => placementOk p 1 0 0
  | .msgCount p => placementOk p 1 0 0 && decide (2 ≤ p.cap.toNat)
  | .jsonSend p text => placementOk p 1 text.length 0
  | .payDequeue | .payEnqueue | .payJson | .payCount | .payStore | .payFetch | .payReset => true
  | .reserved w => !legalWord w

end Sys2Proof
end

