-- ==== Sys2Proof/Machine/Operands.lean ====
section
/-! DEFINITION. Operands: the host registers, the active descriptor and sink of a transfer, their effective addresses, and
TRANSFER's preconditions (spec/10_state.md R29 to R37, spec/20_memory.md R53, spec/42_retry_sync_controller.md R162). -/

namespace Sys2Proof.Machine

/-- `x[r]`, zero-extended to 16 bits (R36, spec/44_host_register_ops.md R232). -/
def State.readReg (s : State) : HostReg → Word
  | .seg1Base => s.seg1Base
  | .seg1Len => s.seg1Len
  | .seg2Base => s.seg2Base
  | .seg2Len => s.seg2Len
  | .seg3Base => s.seg3Base
  | .seg3Len => s.seg3Len
  | .rxBase => s.rxBase
  | .rxCap => s.rxCap
  | .resultLen => s.resultLen
  | .index => s.index.setWidth 16
  | .acc => s.acc
  | .status => s.statusWord

/-- `x[r] <- v` for the eight writable registers (R231); the four read-only ones keep their values (R36). -/
def State.writeReg (s : State) (r : HostReg) (v : Word) : State :=
  match r with
  | .seg1Base => { s with seg1Base := v }
  | .seg1Len => { s with seg1Len := v }
  | .seg2Base => { s with seg2Base := v }
  | .seg2Len => { s with seg2Len := v }
  | .seg3Base => { s with seg3Base := v }
  | .seg3Len => { s with seg3Len := v }
  | .rxBase => { s with rxBase := v }
  | .rxCap => { s with rxCap := v }
  | .resultLen | .index | .acc | .status => s

/-- The sum of the host's three segment lengths, a mathematical sum (R135, R162). -/
def State.hostLen (s : State) : Nat :=
  s.seg1Len.toNat + s.seg2Len.toNat + s.seg3Len.toNat

/-- The active descriptor's payload length: the host's, or the reset command's during `HsReset` (R30, R135). -/
def State.activeLen (s : State) : Nat :=
  if s.hs = .reset then Config.hsResetCmd.length else s.hostLen

/-- R162 (a): the lengths add up to at most 65535. -/
def State.lengthsOk (s : State) : Bool :=
  decide (s.hostLen ≤ 65535)

/-- R162 (b): no non-empty segment and no non-empty receive buffer passes 0xFFFF (R53). -/
def State.buffersFit (s : State) : Bool :=
  fitsAt s.seg1Base s.seg1Len.toNat && fitsAt s.seg2Base s.seg2Len.toNat &&
    fitsAt s.seg3Base s.seg3Len.toNat && fitsAt s.rxBase s.rxCap.toNat

/-- The buffer-memory address of the `k`-th byte of the host's request payload: segments 1, 2, 3 in order, an empty one passed over
(R53, R136). -/
def State.payloadAddr (s : State) (k : Nat) : Nat :=
  if k < s.seg1Len.toNat then s.seg1Base.toNat + k
  else if k < s.seg1Len.toNat + s.seg2Len.toNat then s.seg2Base.toNat + (k - s.seg1Len.toNat)
  else s.seg3Base.toNat + (k - s.seg1Len.toNat - s.seg2Len.toNat)

/-- The capacity of the active sink: `rx_cap`, or 1 during `HsReset` (R30, spec/41_frame_codec.md section 3). -/
def State.activeCap (s : State) : Word :=
  if s.hs = .reset then 1 else s.rxCap

/-- The buffer-memory address of the next stored reply byte, `rx_base + rx_cnt` (R53, R140). -/
def State.sinkAddr (s : State) : Nat :=
  s.rxBase.toNat + s.rxCnt.toNat

/-- `min(a, b)` of two unsigned words. -/
def minWord (a b : Word) : Word :=
  if a ≤ b then a else b

/-- The bytes of the active descriptor, as they stand in memory now (R86, R135, R136). -/
def State.activePayload (s : State) : List Byte :=
  if s.hs = .reset then Config.hsResetCmd
  else
    Memory.getRange s.mem s.seg1Base.toNat s.seg1Len.toNat ++ Memory.getRange s.mem s.seg2Base.toNat s.seg2Len.toNat ++
      Memory.getRange s.mem s.seg3Base.toNat s.seg3Len.toNat

end Sys2Proof.Machine
end

