-- ==== Sys2Proof/Machine/Ops.lean ====
section
/-! DEFINITION. The operations the meanings share: buffer-memory access, the transport and clock primitives (spec/20_memory.md
R50 to R66), responses (spec/10_state.md R39 to R41), and the entry to and return from the retry path, which is what this block
has in place of exceptions (spec/60_exceptions.md R252, R257, R258, R260). -/

namespace Sys2Proof.Machine

/-- Go on from an answer that is a next state. -/
def andThen (o : Answer) (f : State → Answer) : Answer :=
  match o with
  | .next s => f s
  | .fault r => .fault r
  | .refused r => .refused r

/-! ### Responses -/

/-- The operation completes with a response word (R39, R41). -/
def State.respond (s : State) (v : Word) : State :=
  { s with rsp := some v }

/-- The response transaction: `rsp_valid` is up for one transaction, and the host has the word (R39). -/
def State.deliver (s : State) : State :=
  match s.rsp with
  | some v => { s with rsp := none, rspLog := s.rspLog ++ [v] }
  | none => s

/-! ### Where the thread is -/

/-- `ctl_state <- c`; the procedure of the new state starts at its beginning (log 9). -/
def State.enterCtl (s : State) (c : CtlState) : State :=
  { s with ctl := c, pos := 0, waiting := false }

/-- `hs_state <- h`; the procedure of the new state starts at its beginning (log 9). -/
def State.enterHs (s : State) (h : HsState) : State :=
  { s with hs := h, pos := 0, waiting := false }

/-- One more sub-step of the present procedure is done (log 9). -/
def State.advance (s : State) : State :=
  { s with pos := s.pos + 1, waiting := false }

/-! ### Exceptions: the retry path and the halt -/

/-- `raise LinkError(cause)`: exactly `ctl_state <- Retrying`. The cause is a label and is recorded nowhere (R251, R252, R257). -/
def State.raiseLinkError (s : State) (_cause : LinkCause) : State :=
  s.enterCtl .retrying

/-- The return from the retry path: `ctl_state <- Sending`, from the beginning of the frame (R174, R260). -/
def State.retryReturn (s : State) : State :=
  s.enterCtl .sending

/-- `raise Halt`: exactly `hs_state <- HsHalted` (R211, R258). There is no return from it. -/
def State.raiseHalt (s : State) : State :=
  s.enterHs .halted

/-! ### Buffer memory -/

/-- `MemWrite(addr, 1, b)`; an address outside the memory does not exist (R51, R53). -/
def State.memWrite (s : State) (addr : Nat) (b : Byte) : Answer :=
  if addr < Config.memSize then .next { s with mem := Memory.set s.mem addr b }
  else .fault (.addressOutsideMemory addr)

/-- `MemRead(addr, 1)`, and go on with the byte (R52, R55). -/
def State.withMemByte (s : State) (addr : Nat) (k : Byte → Answer) : Answer :=
  if addr < Config.memSize then k (Memory.get s.mem addr)
  else .fault (.addressOutsideMemory addr)

/-! ### Transport and clock -/

/-- `Write(b)` once the transport takes it (R58). -/
def State.write (s : State) (b : Byte) : State :=
  { s with txlog := s.txlog ++ [b] }

/-- Fold a byte into the accumulator. -/
def State.fold (s : State) (b : Byte) : State :=
  { s with acc := ckUpdate s.acc b }

/-- `Emit(b)` once the transport takes it: write and fold (spec/41_frame_codec.md R134). -/
def State.emitByte (s : State) (b : Byte) : State :=
  (s.write b).fold b

/-- Do `f` when `tx_ready` is up; else the block waits, with no timeout and no change (R58). -/
def State.whenTxReady (s : State) (f : State → State) : State :=
  if s.txReady then f s else s

/-- `Available()`: the queue's length, saturating at `AVAIL_W` bits (R60). -/
def State.availableCount (s : State) : Nat :=
  min s.rxq.length (2 ^ (s.params.availWPred + 1) - 1)

/-- The only test made of it: `Available() > 0` (R60). -/
def State.available (s : State) : Bool :=
  decide (0 < s.availableCount)

/-- The clock sample of the present timed wait: `t0`, or `Now()` at its entry (R130, R132). -/
def State.waitStart (s : State) : Millis :=
  if s.waiting then s.t0 else s.nowMs

/-- The time waited, `(Now() - t0) mod 2^32` (R64). -/
def State.waitedMs (s : State) : Nat :=
  (s.nowMs - s.waitStart).toNat

/-- One poll of `TimedRead(T)` (R130): take the queue's head if there is one; else give up when the time waited has reached `T`;
else go on waiting. The clock is sampled at the wait's entry. -/
def State.pollRead (s : State) (t : Nat) : State :=
  match s.rxq with
  | c :: rest => { s with t0 := s.waitStart, rxq := rest, waiting := false, timedResult := .byte c }
  | [] =>
    if t ≤ s.waitedMs then { s with t0 := s.waitStart, waiting := false, timedResult := .timeout }
    else { s with t0 := s.waitStart, waiting := true, timedResult := .pending }

/-- One poll of `Delay(T)` (R132): the wait is over when the time waited has reached `T`. `waiting` says that it is not. -/
def State.pollDelay (s : State) (t : Nat) : State :=
  { s with t0 := s.waitStart, waiting := decide (s.waitedMs < t) }

/-- One round of `Drain()`: every byte now buffered is read and discarded (R133). The loop's test `Available() > 0` comes again
in the block's next step, so that bytes arriving meanwhile are drained too (log 10). -/
def State.drainRound (s : State) : State :=
  if s.available then { s with rxq := [] } else s

end Sys2Proof.Machine
end

