-- ==== Sys2Proof/Machine/Environment.lean ====
section
/-! DEFINITION. The moves of the environment: the line, the clock, the transport, the host and hardware reset (spec/00_scope.md
R13, spec/20_memory.md R61 to R65, spec/70_reset_and_hazards.md R280 to R282, R296). -/

namespace Sys2Proof.Machine

/-- Hardware reset: the block's state takes its reset values; queue, log, memory, clock and host are not touched (R280, R282). -/
def State.hwReset (s : State) : State :=
  { State.reset with
    freeCount := s.freeCount
    mem := s.mem
    rxq := s.rxq
    txlog := s.txlog
    txReady := s.txReady
    nowMs := s.nowMs
    cmds := s.cmds
    rspLog := s.rspLog
    sched := s.sched
    loop := s.loop
    params := s.params }

/-- What a move other than the block's does. -/
def State.applyMove (s : State) : Move → State
  | .block => s
  | .arrive bytes => { s with rxq := s.rxq ++ bytes }
  | .tick ms => { s with nowMs := s.nowMs + BitVec.ofNat 32 ms }
  | .setTxReady ready => { s with txReady := ready }
  | .command w => { s with cmds := s.cmds ++ [w] }
  | .hostStore a b => { s with mem := Memory.set s.mem a.toNat b }
  | .rst => s.hwReset

/-- With no move scheduled the environment is quiet, and the clock goes on by 1 ms while the block waits for it. DESIGN CHOICE,
log 3 (safe: a schedule can say any other course of time). -/
def State.quietTick (s : State) : State :=
  if s.busy && s.waiting then { s with nowMs := s.nowMs + 1 } else s

/-- The move to come: the head of `sched`; when that is used up, of `loop`, which begins again; with neither, the block's (log 1). -/
def State.nextMove (s : State) : Move :=
  match s.sched with
  | m :: _ => m
  | [] =>
    match s.loop with
    | m :: _ => m
    | [] => .block

/-- The state as the agent that moves finds it: its move taken off the schedule, or the quiet tick passed (logs 1, 3). Only `sched`
or `nowMs` differs. -/
def State.taken (s : State) : State :=
  match s.sched with
  | _ :: rest => { s with sched := rest }
  | [] =>
    match s.loop with
    | _ :: rest => { s with sched := rest }
    | [] => s.quietTick

end Sys2Proof.Machine
end

