-- ==== Sys2Proof/Machine/ChecksumOps.lean ====
section
/-! DEFINITION. The four operations of the Checksum Engine (spec/40_checksum_engine.md R111 to R114, R118). -/

namespace Sys2Proof.Machine

/-- CK_RESET (R111). -/
def execCkReset (s : State) : Answer :=
  .next ({ s with acc := Config.seed }.respond 0)

/-- CK_UPDATE (R112). -/
def execCkUpdate (b : Byte) (s : State) : Answer :=
  .next ((s.fold b).respond 0)

/-- CK_FINALIZE: expose the accumulator, do not consume it (R113). -/
def execCkFinalize (s : State) : Answer :=
  .next (s.respond s.acc)

/-- CK_MATCHES: latch the comparison in `match` and answer it (R114). -/
def execCkMatches (cand : Word) (s : State) : Answer :=
  .next ({ s with matchFlag := accMatches s.acc cand }.respond (flagWord (accMatches s.acc cand)))

end Sys2Proof.Machine
end

