-- ==== Sys2Proof/Machine/Codec.lean ====
section
/-! DEFINITION. The Frame Codec: FC_SEND and FC_RECV, one step of each at a time: one `Write`, or one poll of `TimedRead` with
the folds, stores and state change that depend on it (spec/41_frame_codec.md R135 to R142, spec/42_retry_sync_controller.md
R182), and the accept step (R173). -/

namespace Sys2Proof.Machine

/-! ### FC_SEND -/

/-- The start of a frame: `tx_len` and the seeded accumulator (R135). -/
def State.beginFrame (s : State) : State :=
  { s with txLen := BitVec.ofNat 16 s.activeLen, acc := Config.seed }

/-- The header byte at the present position, emitted (R135). -/
def State.sendHeaderByte (s : State) : State :=
  match s.pos with
  | 0 => (s.beginFrame.emitByte Config.startMarker).advance
  | 1 => (s.emitByte s.index).advance
  | 2 => (s.emitByte (hiByte s.txLen)).advance
  | _ => (s.emitByte (loByte s.txLen)).advance

/-- A payload byte, emitted once the transport takes it (R58, R136). -/
def State.sendPayloadByte (s : State) (b : Byte) : State :=
  s.whenTxReady (fun t => (t.emitByte b).advance)

/-- Go on with the `k`-th byte of the reset command (R30, R136). -/
def withResetByte (k : Nat) (f : Byte → Answer) : Answer :=
  match Config.hsResetCmd[k]? with
  | some b => f b
  | none => .fault (.beyondResetCommand k)

/-- The payload byte at the present position: from the reset command during `HsReset`, else read from buffer memory at the moment
it is sent (R136, spec/20_memory.md R72). -/
def State.withPayloadByte (s : State) (f : Byte → Answer) : Answer :=
  if s.hs = .reset then withResetByte (s.pos - 4) f else s.withMemByte (s.payloadAddr (s.pos - 4)) f

/-- FC_SEND: write the next byte of the request frame; the last one ends `Sending` (R135 to R137, R163). -/
def execFcSend (s : State) : Answer :=
  if s.pos < 4 then .next (s.whenTxReady State.sendHeaderByte)
  else if s.pos < 4 + s.txLen.toNat then s.withPayloadByte (fun b => .next (s.sendPayloadByte b))
  else if s.pos = 4 + s.txLen.toNat then .next (s.whenTxReady (fun t => (t.write (hiByte t.acc)).advance))
  else .next (s.whenTxReady (fun t => (t.write (loByte t.acc)).enterCtl .awaitingAck))

/-! ### The accept step -/

/-- The end of the accept step: a host TRANSFER responds, the reset transfer hands over to the handshake (R173). -/
def State.finishAccept (s : State) : State :=
  if s.hs = .idle then
    ({ s with resultLen := minWord s.rxLen s.rxCap }.enterCtl .idle).respond (minWord s.rxLen s.rxCap)
  else (s.enterCtl .idle).enterHs .check

/-- `Validating → Accepted → Idle`, one step: the index advances and the result is given (R172, R173, R22). -/
def State.accept (s : State) : State :=
  State.finishAccept { s with index := s.index + 1, ctl := .accepted }

/-! ### FC_RECV -/

/-- The marker has been read: seed the accumulator and fold the marker (R138, R165). -/
def State.markerSeen (s : State) : State :=
  { s with acc := ckUpdate Config.seed Config.startMarker, hdrI := 0 }.enterCtl .receivingHeader

/-- Marker phase (R138). -/
def State.recvMarker (s : State) : Answer :=
  let s := s.pollRead Config.tAck
  match s.timedResult with
  | .pending => .next s
  | .timeout => .next (s.raiseLinkError .ackTimeout)
  | .byte c => if c = Config.startMarker then .next s.markerSeen else .next (s.raiseLinkError .badMarker)

/-- A header byte has been read (R139). -/
def State.headerByte (s : State) (c : Byte) : State :=
  if s.hdrI = 0 then
    if c = s.index then { s.fold c with hdrI := 1 } else s.raiseLinkError .badIndex
  else if s.hdrI = 1 then { s.fold c with rxLen := joinBytes c (loByte s.rxLen), hdrI := 2 }
  else { s.fold c with rxLen := joinBytes (hiByte s.rxLen) c, rxCnt := 0 }.enterCtl .receivingPayload

/-- Header phase (R139). -/
def State.recvHeader (s : State) : Answer :=
  let s := s.pollRead Config.tByte
  match s.timedResult with
  | .pending => .next s
  | .timeout => .next (s.raiseLinkError .headerTimeout)
  | .byte c => .next (s.headerByte c)

/-- Store a reply byte in the active sink, if it is within the capacity (R140, R145). -/
def State.storeReplyByte (s : State) (c : Byte) : Answer :=
  if s.rxCnt < s.activeCap then
    if s.hs = .reset then .next { s with hsReply := c } else s.memWrite s.sinkAddr c
  else .next s

/-- One more payload byte is consumed; the last one ends the phase (R140, R170). -/
def State.countReplyByte (s : State) : State :=
  let s := { s with rxCnt := s.rxCnt + 1 }
  if s.rxCnt = s.rxLen then s.enterCtl .validating else s

/-- Payload phase (R140). With every byte consumed, which is so on entry for an empty payload, the phase ends without a read (R170). -/
def State.recvPayload (s : State) : Answer :=
  if s.rxCnt = s.rxLen then .next (s.enterCtl .validating)
  else
    let s := s.pollRead Config.tByte
    match s.timedResult with
    | .pending => .next s
    | .timeout => .next (s.raiseLinkError .payloadTimeout)
    | .byte c => andThen ((s.fold c).storeReplyByte c) (fun t => .next t.countReplyByte)

/-- A trailer byte has been read: keep the first; test the checksum with the second (R141, R142). -/
def State.trailerByte (s : State) (c : Byte) : State :=
  if s.pos = 0 then { s with candHi := c }.advance
  else if accMatches s.acc (joinBytes s.candHi c) then s.accept
  else s.raiseLinkError .checksumMismatch

/-- Trailer phase and checksum test (R141, R142). -/
def State.recvTrailer (s : State) : Answer :=
  let s := s.pollRead Config.tByte
  match s.timedResult with
  | .pending => .next s
  | .timeout => .next (s.raiseLinkError .trailerTimeout)
  | .byte c => .next (s.trailerByte c)

/-- FC_RECV: the next step of the phase that `ctl_state` names; it begins with the marker phase (R138 to R142). -/
def execFcRecv (s : State) : Answer :=
  match s.ctl with
  | .receivingHeader => s.recvHeader
  | .receivingPayload => s.recvPayload
  | .validating => s.recvTrailer
  | .awaitingAck | .idle | .sending | .accepted | .retrying => s.recvMarker

end Sys2Proof.Machine
end

