-- ==== Sys2Proof/Machine/Controller.lean ====
section
/-! DEFINITION. The Retry-and-Sync Controller: TRANSFER and the retry path (spec/42_retry_sync_controller.md). -/

namespace Sys2Proof.Machine

/-- TRANSFER: with R162's preconditions met, `Idle → Sending` (R160, R161); a violated one is refused by the spec itself (R162,
R255). The attempts themselves are the block's later steps. -/
def execTransfer (s : State) : Answer :=
  if s.lengthsOk then
    if s.buffersFit then .next (s.enterCtl .sending) else .refused .bufferPastMemory
  else .refused .payloadTooLong

/-- `Retrying`: `Delay(100)`, then `Drain()`, then back to `Sending` (R174, R260). -/
def State.retryStep (s : State) : State :=
  if s.pos = 0 then
    let s := s.pollDelay Config.tBackoff
    if s.waiting then s else s.advance
  else if s.available then s.drainRound
  else s.retryReturn

end Sys2Proof.Machine
end

