-- ==== Sys2Proof/Machine/Handshake.lean ====
section
/-! DEFINITION. The Startup Handshake: BEGIN and the steps of `hs_state` (spec/43_startup_handshake.md). -/

namespace Sys2Proof.Machine

/-- BEGIN: nothing but a response when it has run before (R201), else `started` is set and the settle loop entered (R202). -/
def execBegin (s : State) : Answer :=
  if s.started then .next (s.respond 0) else .next ({ s with started := true }.enterHs .settle)

/-- `HsSettle`: `Drain()`, `Delay(1100)`, and again until `Available() == 0` (R203). -/
def State.settleStep (s : State) : State :=
  if s.pos = 0 then
    if s.available then s.drainRound else s.advance
  else
    let s := s.pollDelay Config.tSettle
    if s.waiting then s
    else if s.available then s.enterHs .settle
    else s.enterHs .interrupt

/-- Write each byte of a string, unframed and unfolded, then wait, then go to the next state (R95, R204 to R207). -/
def State.sendThenDelay (s : State) (bytes : List Byte) (t : Nat) (after : HsState) : State :=
  match bytes[s.pos]? with
  | some b => s.whenTxReady (fun u => (u.write b).advance)
  | none =>
    let s := s.pollDelay t
    if s.waiting then s else s.enterHs after

/-- `HsDrain`: `Drain()`, then `HsReset` with the controller in `Sending` (R208, R181). -/
def State.hsDrainStep (s : State) : State :=
  if s.available then s.drainRound else (s.enterHs .reset).enterCtl .sending

/-- The test of `HsCheck`: a correct reply finishes with a response, any other halts (R210 to R212). -/
def State.hsVerdict (s : State) (reply : Byte) : State :=
  if reply = Config.hsResetOk then (s.enterHs .idle).respond 0 else s.raiseHalt

/-- `HsCheck`: with an empty reply `hs_reply` was not written in this run, and its value is free (R31, R210; log 8). -/
def State.hsCheckStep (s : State) : State :=
  if s.rxLen = 0 then
    { s with freeCount := s.freeCount + 1 }.hsVerdict (Config.freeHsReply s.freeCount)
  else s.hsVerdict s.hsReply

end Sys2Proof.Machine
end

