-- ==== Sys2Proof/Machine/HostOps.lean ====
section
/-! DEFINITION. The housekeeping operations of the host interface (spec/44_host_register_ops.md R230 to R233) and the reserved
words (spec/30_encoding.md R97). -/

namespace Sys2Proof.Machine

/-- NOP (R230). -/
def execNop (s : State) : Answer :=
  .next (s.respond 0)

/-- WRREG (R231). The decoder never answers a read-only register: those words are reserved (R97). -/
def execWrreg (r : HostReg) (v : Word) (s : State) : Answer :=
  if r.writable then .next ((s.writeReg r v).respond 0) else .refused (.readOnlyRegister r)

/-- RDREG: no side effect on any register (R232). -/
def execRdreg (r : HostReg) (s : State) : Answer :=
  .next (s.respond (s.readReg r))

/-- A reserved word: "The spec defines no behaviour for a reserved word", "a model refuses it" (R97, R255, U11). -/
def execReserved (w : Cmd) (_s : State) : Answer :=
  .refused (.reservedWord w)

end Sys2Proof.Machine
end

