-- ==== Sys2Proof/Machine/Internal.lean ====
section
/-! DEFINITION. The internal operations TIMEDREAD, DELAY, DRAIN and EMIT (spec/41_frame_codec.md R130 to R134). A wait is one
poll a step, so that any move of the environment may stand between two polls (log 10). -/

namespace Sys2Proof.Machine

/-- TIMEDREAD: one poll of the loop of R130. -/
def execTimedRead (t : Nat) (s : State) : Answer :=
  .next (s.pollRead t)

/-- DELAY: one poll of the wait of R132. -/
def execDelay (t : Nat) (s : State) : Answer :=
  .next (s.pollDelay t)

/-- DRAIN: every byte now buffered is discarded (R133). -/
def execDrain (s : State) : Answer :=
  .next s.drainRound

/-- EMIT: write and fold, once the transport takes the byte (R58, R134). -/
def execEmit (b : Byte) (s : State) : Answer :=
  .next (s.whenTxReady (fun t => t.emitByte b))

end Sys2Proof.Machine
end

