-- ==== Sys2Proof/Machine/Payload.lean ====
section
/-! DEFINITION. The payload command bytes (spec/30_encoding.md R93, R94). The remote peer consumes them; what the block does with
each is to transmit it as the payload byte it is (R86, R136). DEDUCED, log 15 (safe). -/

namespace Sys2Proof.Machine

/-- PAYLOAD_m: transmit `m`. -/
def execPayDequeue (s : State) : Answer :=
  .next (s.sendPayloadByte Config.letterDequeue)

/-- PAYLOAD_M: transmit `M`. -/
def execPayEnqueue (s : State) : Answer :=
  .next (s.sendPayloadByte Config.letterEnqueue)

/-- PAYLOAD_J: transmit `J`. -/
def execPayJson (s : State) : Answer :=
  .next (s.sendPayloadByte Config.letterJson)

/-- PAYLOAD_n: transmit `n`. -/
def execPayCount (s : State) : Answer :=
  .next (s.sendPayloadByte Config.letterCount)

/-- PAYLOAD_D: transmit `D`. -/
def execPayStore (s : State) : Answer :=
  .next (s.sendPayloadByte Config.letterStore)

/-- PAYLOAD_d: transmit `d`. -/
def execPayFetch (s : State) : Answer :=
  .next (s.sendPayloadByte Config.letterFetch)

/-- PAYLOAD_XX100: transmit the next of the five bytes of the reset command, one a step (R30, R136, R182). -/
def execPayReset (s : State) : Answer :=
  withResetByte (s.pos - 4) (fun b => .next (s.sendPayloadByte b))

end Sys2Proof.Machine
end

