-- ==== Sys2Proof/Decode.lean ====
section
/-! DEFINITION. Decoding and encoding: the host command word (spec/30_encoding.md R89 to R97) and the payload command bytes
(R93). The third level of R80, the wire frame, is Machine/Frame.lean. -/

namespace Sys2Proof

/-- What an operation is encoded as: a host command word or the leading bytes of a request payload (R80). -/
inductive Code where
  | host (w : Cmd)
  | payload (bytes : List Byte)
deriving DecidableEq, Repr

/-- Why the decoder answers no operation. -/
inductive DecodeError where
  /-- The payload's first byte is no command letter; the block transmits it all the same (R94). Safe. -/
  | notAPayloadCommand (b : Byte)
  /-- The payload is empty: there is no byte to read (R94). Safe. -/
  | emptyPayload
deriving DecidableEq, Repr

/-- Field `op`, bits 23:20 (R89). -/
def opField (w : Cmd) : BitVec 4 := w.extractLsb' 20 4

/-- Field `r`, bits 19:16 (R89). -/
def rField (w : Cmd) : BitVec 4 := w.extractLsb' 16 4

/-- Field `arg`, bits 15:0 (R89). -/
def argField (w : Cmd) : Word := w.extractLsb' 0 16

/-- The command word `op[23:20] r[19:16] arg[15:0]` (R89). -/
def cmdWord (op r : BitVec 4) (arg : Word) : Cmd :=
  (op.setWidth 24 <<< 20) ||| (r.setWidth 24 <<< 16) ||| arg.setWidth 24

/-- A host register's number (spec/10_state.md R36). -/
def HostReg.num : HostReg → BitVec 4
  | .seg1Base => 0
  | .seg1Len => 1
  | .seg2Base => 2
  | .seg2Len => 3
  | .seg3Base => 4
  | .seg3Len => 5
  | .rxBase => 6
  | .rxCap => 7
  | .resultLen => 8
  | .index => 9
  | .acc => 10
  | .status => 11

/-- The host register of a number; 12 to 15 are reserved (R36). -/
def HostReg.ofNum (r : BitVec 4) : Option HostReg :=
  match r.toNat with
  | 0 => some .seg1Base
  | 1 => some .seg1Len
  | 2 => some .seg2Base
  | 3 => some .seg2Len
  | 4 => some .seg3Base
  | 5 => some .seg3Len
  | 6 => some .rxBase
  | 7 => some .rxCap
  | 8 => some .resultLen
  | 9 => some .index
  | 10 => some .acc
  | 11 => some .status
  | _ => none

/-- An operation without operands: `r` and `arg` must be 0, else the word is reserved (R96, R97). -/
def decodeBare (i : Instr) (w : Cmd) : Instr :=
  if rField w = 0 ∧ argField w = 0 then i else .reserved w

/-- CK_UPDATE: `r` = 0, `arg[15:8]` = 0, the byte is `arg[7:0]` (R90, R91). -/
def decodeUpdate (w : Cmd) : Instr :=
  if rField w = 0 ∧ (argField w).extractLsb' 8 8 = 0 then .ckUpdate ((argField w).extractLsb' 0 8) else .reserved w

/-- CK_MATCHES: `r` = 0, the candidate is `arg` (R90). -/
def decodeMatches (w : Cmd) : Instr :=
  if rField w = 0 then .ckMatches (argField w) else .reserved w

/-- WRREG: `r` in 0..7 (R90, R96). -/
def decodeWrreg (w : Cmd) : Instr :=
  match HostReg.ofNum (rField w) with
  | some r => if r.writable then .wrreg r (argField w) else .reserved w
  | none => .reserved w

/-- RDREG: `r` in 0..11, `arg` = 0 (R90, R96). -/
def decodeRdreg (w : Cmd) : Instr :=
  match HostReg.ofNum (rField w) with
  | some r => if argField w = 0 then .rdreg r else .reserved w
  | none => .reserved w

/-- The operation of a host command word. Total: a word that is not legal by R96 is `reserved` (R97). -/
def decodeHost (w : Cmd) : Instr :=
  match (opField w).toNat with
  | 0 => decodeBare .nop w
  | 1 => decodeBare .ckReset w
  | 2 => decodeUpdate w
  | 3 => decodeBare .ckFinalize w
  | 4 => decodeMatches w
  | 5 => decodeWrreg w
  | 6 => decodeRdreg w
  | 7 => decodeBare .transfer w
  | 8 => decodeBare .beginHs w
  | _ => .reserved w

/-- The payload command of a request's first payload byte, where it is one of the six letters (R93). -/
def decodeLetter (b : Byte) : Option Instr :=
  if b = Config.letterDequeue then some .payDequeue
  else if b = Config.letterEnqueue then some .payEnqueue
  else if b = Config.letterJson then some .payJson
  else if b = Config.letterCount then some .payCount
  else if b = Config.letterStore then some .payStore
  else if b = Config.letterFetch then some .payFetch
  else none

/-- The payload command of a request payload: `"XX100"` is the whole five bytes, the others are "single leading payload byte"
(R93). What follows a letter is its argument, which only the remote peer reads. -/
def decodePayload (bytes : List Byte) : Except DecodeError Instr :=
  if bytes = Config.hsResetCmd then .ok .payReset
  else
    match bytes with
    | [] => .error .emptyPayload
    | b :: _ =>
      match decodeLetter b with
      | some i => .ok i
      | none => .error (.notAPayloadCommand b)

/-- The decoder, total on every code (R80). -/
def decode : Code → Except DecodeError Instr
  | .host w => .ok (decodeHost w)
  | .payload bytes => decodePayload bytes

/-- The encoder: the code of an operation, none for the INTERNAL, FRAME and PSEUDO rows, which have no code (R92, R99, R100). -/
def encode : Instr → Option Code
  | .nop => some (.host (cmdWord 0 0 0))
  | .ckReset => some (.host (cmdWord 1 0 0))
  | .ckUpdate b => some (.host (cmdWord 2 0 (b.setWidth 16)))
  | .ckFinalize => some (.host (cmdWord 3 0 0))
  | .ckMatches cand => some (.host (cmdWord 4 0 cand))
  | .wrreg r v => some (.host (cmdWord 5 r.num v))
  | .rdreg r => some (.host (cmdWord 6 r.num 0))
  | .transfer => some (.host (cmdWord 7 0 0))
  | .beginHs => some (.host (cmdWord 8 0 0))
  | .timedRead _ | .delay _ | .drain | .emit _ | .fcSend | .fcRecv => none
  | .get _ _ | .put _ _ _ | .msgSend _ _ | .msgRecv _ | .msgCount _ | .jsonSend _ _ => none
  | .payDequeue => some (.payload [Config.letterDequeue])
  | .payEnqueue => some (.payload [Config.letterEnqueue])
  | .payJson => some (.payload [Config.letterJson])
  | .payCount => some (.payload [Config.letterCount])
  | .payStore => some (.payload [Config.letterStore])
  | .payFetch => some (.payload [Config.letterFetch])
  | .payReset => some (.payload Config.hsResetCmd)
  | .reserved w => some (.host w)

/-- The first `n` bytes of a number, least significant first: payload bytes as spec/opcode_table.json numbers their bits. -/
def bytesOf : Nat → Nat → List Byte
  | 0, _ => []
  | n + 1, w => BitVec.ofNat 8 w :: bytesOf n (w / 256)

/-- The code that bits `w` of a table row of `nbits` bits stand for: 24 bits are a host command word (R89), 8 bits a request's
first payload byte and 40 bits the whole payload `"XX100"` (R93). -/
def codeOfBits (nbits w : Nat) : Option Code :=
  if nbits = 24 then some (.host (BitVec.ofNat 24 w))
  else if nbits = 8 ∨ nbits = 40 then some (.payload (bytesOf (nbits / 8) w))
  else none

/-- The operation the decoder reads from a table row's bits. -/
def decodeTableWord (nbits w : Nat) : Option Instr :=
  match codeOfBits nbits w with
  | some c => (decode c).toOption
  | none => none

end Sys2Proof
end

