-- ==== Sys2Proof/Machine/Pseudo.lean ====
section
/-! DEFINITION. The pseudo-operations: the host places the request payload in buffer memory, writes the descriptors and issues
one TRANSFER (spec/44_host_register_ops.md R235 to R242). DESIGN CHOICE, log 16 (safe): one `exec` stands for the whole
expansion up to TRANSFER's issue; the splits are the spec's illustrations. -/

namespace Sys2Proof.Machine

/-- A byte count as the 16-bit value WRREG takes. -/
def lenWord (bytes : List Byte) : Word :=
  BitVec.ofNat 16 bytes.length

/-- A segment's descriptor writes; a segment the split does not use gets length 0 and no base (R236). -/
def segWrites (baseReg lenReg : HostReg) (a : Word) : Option (List Byte) → List (HostReg × Word)
  | some bytes => [(baseReg, a), (lenReg, lenWord bytes)]
  | none => [(lenReg, 0)]

/-- The descriptor writes of an expansion, in order (R235, R236). -/
def pseudoWrites (p : Placement) (b1 : List Byte) (b2 b3 : Option (List Byte)) : List (HostReg × Word) :=
  segWrites .seg1Base .seg1Len p.a1 (some b1) ++ segWrites .seg2Base .seg2Len p.a2 b2 ++
    segWrites .seg3Base .seg3Len p.a3 b3 ++ [(.rxBase, p.ar), (.rxCap, p.cap)]

/-- The command words of an expansion: the WRREGs, then TRANSFER (R235). -/
def pseudoWords (p : Placement) (b1 : List Byte) (b2 b3 : Option (List Byte)) : List Cmd :=
  (pseudoWrites p b1 b2 b3).map (fun rv => cmdWord 5 rv.1.num rv.2) ++ [cmdWord 7 0 0]

/-- The host places a segment's bytes in buffer memory (R235). -/
def State.place (s : State) (a : Word) (bytes : List Byte) : State :=
  { s with mem := Memory.setRange s.mem a.toNat bytes }

/-- The WRREGs of an expansion, each with its response delivered (R40, R231). -/
def runWrites : List (HostReg × Word) → State → Answer
  | [], s => .next s
  | (r, v) :: rest, s => andThen (execWrreg r v s) (fun t => runWrites rest t.deliver)

/-- A pseudo-operation with its payload split into up to three segments (R235). A payload or a placement that R162 rules out is
refused as TRANSFER refuses it (log 16). Placements that overlap one another are stored in the order `A1`, `A2`, `A3`, so that the
later segment's bytes stay: the spec leaves the addresses to the host and gives no order. DESIGN CHOICE, log 30 (unsafe). -/
def pseudoTransfer (p : Placement) (b1 : List Byte) (b2 b3 : Option (List Byte)) (s : State) : Answer :=
  let c2 := b2.getD []
  let c3 := b3.getD []
  if b1.length + c2.length + c3.length ≤ 65535 then
    if placementOk p b1.length c2.length c3.length then
      andThen (runWrites (pseudoWrites p b1 b2 b3) (((s.place p.a1 b1).place p.a2 c2).place p.a3 c3)) execTransfer
    else .refused .bufferPastMemory
  else .refused .payloadTooLong

/-- GET: payload `d` ++ key (R236). -/
def execGet (p : Placement) (key : List Byte) (s : State) : Answer :=
  pseudoTransfer p [Config.letterFetch] (some key) none s

/-- PUT: payload `D` ++ key ++ FE ++ value (R237). -/
def execPut (p : Placement) (key value : List Byte) (s : State) : Answer :=
  pseudoTransfer p (Config.letterStore :: key) (some [Config.kvSeparator]) (some value) s

/-- MSG_SEND: payload `M` ++ message (R238). -/
def execMsgSend (p : Placement) (msg : List Byte) (s : State) : Answer :=
  pseudoTransfer p [Config.letterEnqueue] (some msg) none s

/-- MSG_RECV: payload `m` (R239). -/
def execMsgRecv (p : Placement) (s : State) : Answer :=
  pseudoTransfer p [Config.letterDequeue] none none s

/-- MSG_COUNT: payload `n` (R240). -/
def execMsgCount (p : Placement) (s : State) : Answer :=
  pseudoTransfer p [Config.letterCount] none none s

/-- JSON_SEND: payload `J` ++ text (R241). -/
def execJsonSend (p : Placement) (text : List Byte) (s : State) : Answer :=
  pseudoTransfer p [Config.letterJson] (some text) none s

/-- What the caller reads of the reply: the first `result_len` bytes of the receive buffer (R235, R290). -/
def State.reply (s : State) : List Byte :=
  Memory.getRange s.mem s.rxBase.toNat s.resultLen.toNat

/-- The value of MSG_COUNT: `b0 * 256 + b1` when the response is 2; with fewer bytes the spec states none (R240). -/
def State.messageCount (s : State) : Option Nat :=
  match s.reply with
  | [b0, b1] => some (b0.toNat * 256 + b1.toNat)
  | _ => none

end Sys2Proof.Machine
end

