-- ==== Sys2Proof/Machine/Dispatch.lean ====
section
/-! DEFINITION. The meaning of every operation, one arm per constructor of `Instr`. -/

namespace Sys2Proof.Machine

def exec (i : Instr) (s : State) : Host.Outcome State Fault Refusal :=
  match i with
  | .nop => Sys2Proof.Machine.execNop s
  | .ckReset => Sys2Proof.Machine.execCkReset s
  | .ckUpdate b => Sys2Proof.Machine.execCkUpdate b s
  | .ckFinalize => Sys2Proof.Machine.execCkFinalize s
  | .ckMatches cand => Sys2Proof.Machine.execCkMatches cand s
  | .wrreg r v => Sys2Proof.Machine.execWrreg r v s
  | .rdreg r => Sys2Proof.Machine.execRdreg r s
  | .transfer => Sys2Proof.Machine.execTransfer s
  | .beginHs => Sys2Proof.Machine.execBegin s
  | .timedRead t => Sys2Proof.Machine.execTimedRead t s
  | .delay t => Sys2Proof.Machine.execDelay t s
  | .drain => Sys2Proof.Machine.execDrain s
  | .emit b => Sys2Proof.Machine.execEmit b s
  | .fcSend => Sys2Proof.Machine.execFcSend s
  | .fcRecv => Sys2Proof.Machine.execFcRecv s
  | .get p key => Sys2Proof.Machine.execGet p key s
  | .put p key value => Sys2Proof.Machine.execPut p key value s
  | .msgSend p msg => Sys2Proof.Machine.execMsgSend p msg s
  | .msgRecv p => Sys2Proof.Machine.execMsgRecv p s
  | .msgCount p => Sys2Proof.Machine.execMsgCount p s
  | .jsonSend p text => Sys2Proof.Machine.execJsonSend p text s
  | .payDequeue => Sys2Proof.Machine.execPayDequeue s
  | .payEnqueue => Sys2Proof.Machine.execPayEnqueue s
  | .payJson => Sys2Proof.Machine.execPayJson s
  | .payCount => Sys2Proof.Machine.execPayCount s
  | .payStore => Sys2Proof.Machine.execPayStore s
  | .payFetch => Sys2Proof.Machine.execPayFetch s
  | .payReset => Sys2Proof.Machine.execPayReset s
  | .reserved w => Sys2Proof.Machine.execReserved w s

end Sys2Proof.Machine
end

