-- ==== Sys2Proof/Machine/Sequencer.lean ====
section
/-! DEFINITION. One step of the block. There is no program counter: `ctl_state` and `hs_state` say which operation comes next
(spec/10_state.md R26, R27), and in `Idle` it is the host's next command word (R39, R40). -/

namespace Sys2Proof.Machine

/-- The operation that `Sending` runs at the present position: the payload commands are read from the payload bytes, which are
fetched from memory as they are sent (spec/20_memory.md R72, spec/30_encoding.md R93; log 15); any other byte is FC_SEND's own. -/
def State.sendingOp (s : State) : Instr :=
  if 4 ≤ s.pos ∧ s.pos < 4 + s.txLen.toNat then
    if s.hs = .reset then .payReset
    else if s.pos = 4 ∧ s.payloadAddr 0 < Config.memSize then
      (decodeLetter (Memory.get s.mem (s.payloadAddr 0))).getD .fcSend
    else .fcSend
  else .fcSend

/-- One step of the controller (spec/42_retry_sync_controller.md R175). -/
def controllerStep (s : State) : Answer :=
  match s.ctl with
  | .idle => .next s
  | .sending => exec s.sendingOp s
  | .awaitingAck | .receivingHeader | .receivingPayload | .validating => exec .fcRecv s
  | .accepted => .next s.finishAccept
  | .retrying => .next s.retryStep

/-- A ready block takes the host's next command word, if there is one (R39, R40). -/
def issue (s : State) : Answer :=
  match s.cmds with
  | [] => .next s
  | w :: rest => exec (decodeHost w) { s with cmds := rest }

/-- One step of the block: deliver a response; else the present state's next sub-step (R40, R175, R213). In `HsHalted` it does
nothing, for ever (R211; log 17). -/
def blockStep (s : State) : Answer :=
  if s.rsp.isSome then .next s.deliver
  else
    match s.hs with
    | .idle => if s.ctl = .idle then issue s else controllerStep s
    | .settle => .next s.settleStep
    | .interrupt => .next (s.sendThenDelay s.params.hsInterrupt Config.tHs1 .blank1)
    | .blank1 => .next (s.sendThenDelay s.params.hsBlank Config.tHs2 .blank2)
    | .blank2 => .next (s.sendThenDelay s.params.hsBlank Config.tHs3 .activate)
    | .activate => .next (s.sendThenDelay s.params.hsActivate Config.tHs4 .drain)
    | .drain => .next s.hsDrainStep
    | .reset => controllerStep s
    | .check => .next s.hsCheckStep
    | .halted => .next s

end Sys2Proof.Machine
end

