-- ==== Sys2Proof/Machine/Step.lean ====
section
/-! DEFINITION. One step of the machine: the next move of the schedule (spec/42_retry_sync_controller.md R182; log 1). -/

namespace Sys2Proof.Machine

/-- The block's step, or a move of the environment. -/
def move (m : Move) (s : State) : Answer :=
  match m with
  | .block => blockStep s
  | m => .next (s.applyMove m)

/-- One step: the next move of the schedule. -/
def step (s : State) : Host.Outcome State Fault Refusal :=
  move s.nextMove s.taken

/-- `s` with a host command word as the block's very next one: the block idle and ready, the word offered, the block to move. -/
def State.withCommand (s : State) (w : Cmd) : State :=
  { s with ctl := .idle, hs := .idle, rsp := none, cmds := w :: s.cmds, sched := .block :: s.sched }

/-- `s` about to send the first payload byte of a one-byte request whose byte in memory is `b`. -/
def State.withFirstPayloadByte (s : State) (b : Byte) : State :=
  { s with ctl := .sending, hs := .idle, rsp := none, pos := 4, txLen := 1, seg1Len := 1, seg2Len := 0, seg3Len := 0,
           mem := Memory.set s.mem s.seg1Base.toNat b, txReady := true, sched := .block :: s.sched }

/-- `s` about to send the first payload byte of the handshake's reset request. -/
def State.withResetPayload (s : State) : State :=
  { s with ctl := .sending, hs := .reset, rsp := none, pos := 4, txLen := 5, txReady := true, sched := .block :: s.sched }

/-- `s` with the instruction of a table row's bits where the next step fetches it: a host command word on the command channel, a
payload command in the payload being sent (log 2). -/
def State.withFetchWord (s : State) (nbits w : Nat) : State :=
  match codeOfBits nbits w with
  | some (.host c) => s.withCommand c
  | some (.payload bytes) =>
    match bytes with
    | [b] => s.withFirstPayloadByte b
    | _ => if bytes = Config.hsResetCmd then s.withResetPayload else s
  | none => s

end Sys2Proof.Machine
end

