-- ==== Sys2Proof/Machine/Frame.lean ====
section
/-! DEFINITION. The wire frame as a pure function, and its parser (spec/30_encoding.md R81 to R88, spec/41_frame_codec.md R146).
The machine's FC_SEND and FC_RECV do not call these: statements compare the machine with them. -/

namespace Sys2Proof.Machine

/-- Marker, index, length-hi, length-lo (R81). -/
def frameHeader (i : Byte) (len : Word) : List Byte :=
  [Config.startMarker, i, hiByte len, loByte len]

/-- The bytes the checksum covers: the header and the payload, not the trailer (R84). -/
def frameBody (i : Byte) (payload : List Byte) : List Byte :=
  frameHeader i (BitVec.ofNat 16 payload.length) ++ payload

/-- `Frame(i, p)` (R146). -/
def frame (i : Byte) (payload : List Byte) : List Byte :=
  frameBody i payload ++ [hiByte (ck (frameBody i payload)), loByte (ck (frameBody i payload))]

/-- A frame taken off a byte string, and the bytes behind it. -/
structure Parsed where
  index : Byte
  payload : List Byte
  rest : List Byte
deriving DecidableEq, Repr

/-- The frame at the head of a byte string, if there is a whole one with the right marker and checksum. The length bytes say where
it ends; there is no end marker and no escaping (R82, R87, R88). -/
def parseFrame : List Byte → Option Parsed
  | m :: i :: h :: l :: tail =>
    let len := (joinBytes h l).toNat
    match tail.drop len with
    | c :: d :: rest =>
      if m = Config.startMarker ∧ ck (m :: i :: h :: l :: tail.take len) = joinBytes c d then
        some ⟨i, tail.take len, rest⟩
      else none
    | _ => none
  | _ => none

end Sys2Proof.Machine
end

