-- ==== Sys2Proof/Safety.lean ====
section
/-! DEFINITION. What a safe run is: the invariant of the machine, the transitions the spec's tables allow, and the terms
statements use. -/

namespace Sys2Proof.Machine

/-- The transitions of `ctl_state` (spec/42_retry_sync_controller.md R175). `Validating → Accepted` and `Accepted → Idle` are one
step (R173), so a step that accepts goes from `Validating` to `Idle`. -/
def ctlTable : CtlState → CtlState → Bool
  | .idle, .sending => true
  | .sending, .awaitingAck => true
  | .awaitingAck, .receivingHeader => true
  | .awaitingAck, .retrying => true
  | .receivingHeader, .receivingHeader => true
  | .receivingHeader, .receivingPayload => true
  | .receivingHeader, .retrying => true
  | .receivingPayload, .receivingPayload => true
  | .receivingPayload, .validating => true
  | .receivingPayload, .retrying => true
  | .validating, .idle => true
  | .validating, .retrying => true
  | .retrying, .sending => true
  | _, _ => false

/-- The transitions of `hs_state` (spec/43_startup_handshake.md R213). -/
def hsTable : HsState → HsState → Bool
  | .idle, .idle => true
  | .idle, .settle => true
  | .settle, .settle => true
  | .settle, .interrupt => true
  | .interrupt, .blank1 => true
  | .blank1, .blank2 => true
  | .blank2, .activate => true
  | .activate, .drain => true
  | .drain, .reset => true
  | .reset, .check => true
  | .check, .idle => true
  | .check, .halted => true
  | _, _ => false

/-- The invariant of the machine. In order: buffer memory is in canonical form; `Accepted` is transient (R173); `hdr_i` is 0, 1
or 2 (R28); the controller runs only for a TRANSFER or in `HsReset` (R161, R181), and in `HsReset` it does run (R208); a response
is pending only when the block is not busy (R40); a handshake that runs has set `started` (R201); a host transfer in progress meets
its preconditions (R162); the send position is inside the frame, whose length is the active descriptor's (R135); the reply bytes
consumed do not exceed the declared length (R28), and all are consumed in `Validating` (R170). -/
abbrev Inv (s : State) : Prop :=
  Memory.wf s.mem = true ∧
  s.ctl ≠ .accepted ∧
  s.hdrI ≠ 3 ∧
  (s.ctl ≠ .idle → s.hs = .idle ∨ s.hs = .reset) ∧
  (s.hs = .reset → s.ctl ≠ .idle) ∧
  (s.rsp ≠ none → s.busy = false) ∧
  (s.hs ≠ .idle → s.started = true) ∧
  (s.ctl ≠ .idle → s.hs = .idle → s.lengthsOk = true ∧ s.buffersFit = true) ∧
  (s.ctl = .sending → s.pos ≤ 5 + s.txLen.toNat) ∧
  (s.ctl = .sending → s.pos ≠ 0 → s.txLen.toNat = s.activeLen) ∧
  (s.ctl = .receivingPayload → s.rxCnt ≤ s.rxLen) ∧
  (s.ctl = .validating → s.rxCnt = s.rxLen ∧ s.pos ≤ 1)

/-- The block's next step touches nothing outside the memory: no step from `s` is a fault. -/
def Safe (s : State) : Prop :=
  ∀ f : Fault, step s ≠ .fault f

/-- The schedule is used up: the line is quiet and the block alone moves (log 3). -/
def State.quiet (s : State) : Prop :=
  s.sched = [] ∧ s.loop = []

/-- `k` steps of the machine, stopping at the first fault or refusal. -/
def runs : Nat → State → Answer
  | 0, s => .next s
  | k + 1, s => andThen (step s) (runs k)

/-- The state of the block alone (spec/10_state.md R20 and the response), with the environment's part blanked, so that "the block
changes nothing" is one equation. -/
def State.blockPart (s : State) : State :=
  { s with mem := [], rxq := [], txlog := [], txReady := true, nowMs := 0, cmds := [], rspLog := [], sched := [], loop := [] }

/-- Two runs of addresses have no byte in common. -/
def apart (a n b m : Nat) : Prop :=
  a + n ≤ b ∨ b + m ≤ a

/-- `s` after one byte of the request payload or header has gone out: on the line, folded, and the position moved on. -/
def State.sent (s : State) (b : Byte) : State :=
  { s with txlog := s.txlog ++ [b], acc := ckUpdate s.acc b, pos := s.pos + 1, waiting := false }

/-- `s` after one poll has taken the byte `c` off the queue, which leaves `rest` (R130). -/
def State.took (s : State) (c : Byte) (rest : List Byte) : State :=
  { s with t0 := s.waitStart, rxq := rest, waiting := false, timedResult := .byte c }

/-- `s` after a poll has given up (R130). -/
def State.gaveUp (s : State) : State :=
  { s with t0 := s.waitStart, waiting := false, timedResult := .timeout }

/-- `s` after a poll that goes on waiting (R130). -/
def State.stillWaits (s : State) : State :=
  { s with t0 := s.waitStart, waiting := true, timedResult := .pending }

/-- `s` with `ctl_state` at `Retrying`, at the beginning of its procedure (R252). -/
def State.retrying (s : State) : State :=
  { s with ctl := .retrying, pos := 0, waiting := false }

/-- The legal words of R96, field by field. -/
def legalFields (w : Cmd) : Prop :=
  let op := (opField w).toNat
  let r := (rField w).toNat
  op ≤ 8 ∧ (op ≠ 5 ∧ op ≠ 6 → r = 0) ∧ (op = 5 → r ≤ 7) ∧ (op = 6 → r ≤ 11 ∧ argField w = 0) ∧
    (op = 0 ∨ op = 1 ∨ op = 3 ∨ op = 7 ∨ op = 8 → argField w = 0) ∧ (op = 2 → (argField w).toNat < 256)

/-- R162's preconditions, as numbers: the lengths' sum, and where each non-empty buffer ends. -/
def transferPre (s : State) : Prop :=
  s.seg1Len.toNat + s.seg2Len.toNat + s.seg3Len.toNat ≤ 65535 ∧
  (s.seg1Len ≠ 0 → s.seg1Base.toNat + s.seg1Len.toNat - 1 ≤ 0xFFFF) ∧
  (s.seg2Len ≠ 0 → s.seg2Base.toNat + s.seg2Len.toNat - 1 ≤ 0xFFFF) ∧
  (s.seg3Len ≠ 0 → s.seg3Base.toNat + s.seg3Len.toNat - 1 ≤ 0xFFFF) ∧
  (s.rxCap ≠ 0 → s.rxBase.toNat + s.rxCap.toNat - 1 ≤ 0xFFFF)

end Sys2Proof.Machine
end

