-- ==== Sys2Proof/Certificates/Slice0/Obligations.lean ====
section
/-! DEFINITION. The statements for the provers. Each docstring names the rule it formalises; where a clause rests on a choice of
the model, it names the log entry. -/

open Sys2Proof Sys2Proof.Machine

/-! ## Encoding -/

/-- Every well-formed operation that has a code decodes from it to itself, with every operand (R89, R90, R93). -/
def Obligations.DecodeOfEncodeIsTheInstruction : Prop :=
  ∀ (i : Instr) (c : Code), i.wf = true → encode i = some c → decode c = .ok i

/-- Every host command word has exactly one meaning: it decodes to a well-formed operation that encodes back to it. -/
def Obligations.EncodeOfDecodeIsTheWord : Prop :=
  ∀ w : Cmd, (decodeHost w).wf = true ∧ encode (decodeHost w) = some (.host w)

/-- R96 and R97: a word is legal exactly when its fields satisfy R96; every other word is reserved, and the model refuses it. The
table's masks (R100) say the same. -/
def Obligations.ReservedWordsAreTheIllegalOnes : Prop :=
  ∀ w : Cmd,
    (legalWord w = true ↔ legalFields w) ∧
    (legalFields w → decodeHost w ≠ .reserved w) ∧
    (¬ legalFields w → decodeHost w = .reserved w) ∧
    ∀ s : State, exec (.reserved w) s = .refused (.reservedWord w)

/-- Words written out from R90 (op, r, arg) decode to the operations they stand for (R98's two among them), and so do R93's payload
bytes, whatever follows a letter; their values are the spec's presumption (log 20). -/
def Obligations.WrittenOutCodesDecodeAsListed : Prop :=
  decodeHost 0x000000 = .nop ∧ decodeHost 0x100000 = .ckReset ∧ decodeHost 0x200041 = .ckUpdate 0x41 ∧
  decodeHost 0x300000 = .ckFinalize ∧ decodeHost 0x40A8E8 = .ckMatches 0xA8E8 ∧
  decodeHost 0x570003 = .wrreg .rxCap 3 ∧ decodeHost 0x6B0000 = .rdreg .status ∧
  decodeHost 0x700000 = .transfer ∧ decodeHost 0x800000 = .beginHs ∧ decodeHost 0x580000 = .reserved 0x580000 ∧
  (∀ rest : List Byte,
    decodePayload (0x6D :: rest) = .ok .payDequeue ∧ decodePayload (0x4D :: rest) = .ok .payEnqueue ∧
    decodePayload (0x4A :: rest) = .ok .payJson ∧ decodePayload (0x6E :: rest) = .ok .payCount ∧
    decodePayload (0x44 :: rest) = .ok .payStore ∧ decodePayload (0x64 :: rest) = .ok .payFetch) ∧
  decodePayload [0x58, 0x58, 0x31, 0x30, 0x30] = .ok .payReset

/-- The wire frame is `6 + len` bytes long and parsing it recovers the index and the exact payload, leaving what stands behind it
(R82, R83, R87, R146, R147). -/
def Obligations.ParsingAFrameRecoversIt : Prop :=
  ∀ (i : Byte) (p rest : List Byte), p.length ≤ 65535 →
    (frame i p).length = 6 + p.length ∧ parseFrame (frame i p ++ rest) = some ⟨i, p, rest⟩

/-! ## Checksum Engine -/

/-- R110: XOR into the low byte, then swap the bytes; in byte terms `CkUpdate({H, L}, b) = {L ^ b, H}`. -/
def Obligations.CkUpdateXorsThenSwaps : Prop :=
  (∀ (a : Word) (b : Byte), ckUpdate a b = ((a ^^^ b.setWidth 16) >>> 8) ||| ((a ^^^ b.setWidth 16) <<< 8)) ∧
  ∀ h l b : Byte, ckUpdate (joinBytes h l) b = joinBytes (l ^^^ b) h

/-- R115, the closed form: the high byte collects the bytes at even distance from the end, the low byte those at odd distance. -/
def Obligations.ChecksumClosedForm : Prop :=
  ∀ bytes : List Byte, ck bytes = joinBytes (0xAA ^^^ xorEven bytes) (0xAA ^^^ xorOdd bytes)

/-- R116 (a): changing any single byte to a different value changes the checksum. R116 (b), spec/90_conflicts.md C5: exchanging two
different bytes goes unnoticed exactly when their distance is even. -/
def Obligations.ByteChangeDetectedEvenExchangeNot : Prop :=
  ∀ (pre mid post : List Byte) (a b : Byte), a ≠ b →
    ck (pre ++ a :: post) ≠ ck (pre ++ b :: post) ∧
    (ck (pre ++ a :: mid ++ b :: post) = ck (pre ++ b :: mid ++ a :: post) ↔ (mid.length + 1) % 2 = 0)

/-- R112: the word `0x2000bb` is CK_UPDATE of `bb`; it folds its byte, responds 0 and changes nothing else. -/
def Obligations.CkUpdateFoldsItsByte : Prop :=
  ∀ (b : Byte) (s : State),
    decodeHost (cmdWord 2 0 (b.setWidth 16)) = .ckUpdate b ∧
    exec (.ckUpdate b) s = .next { s with acc := ckUpdate s.acc b, rsp := some 0 }

/-- R114: the word `0x40cccc` is CK_MATCHES of `cccc`; it compares all 16 bits, latches the result in `match`, responds it and
changes nothing else. -/
def Obligations.CkMatchesLatchesComparison : Prop :=
  ∀ (cand : Word) (s : State),
    decodeHost (cmdWord 4 0 cand) = .ckMatches cand ∧
    (s.acc = cand → exec (.ckMatches cand) s = .next { s with matchFlag := true, rsp := some 1 }) ∧
    (s.acc ≠ cand → exec (.ckMatches cand) s = .next { s with matchFlag := false, rsp := some 0 })

/-! ## Housekeeping -/

/-- R230, R111, R113: NOP is the all-zero word and only responds 0; CK_RESET seeds the accumulator and responds 0; CK_FINALIZE
responds with the accumulator, which it leaves; none changes anything else. -/
def Obligations.NopCkResetAndCkFinalizeRespond : Prop :=
  decodeHost 0x000000 = .nop ∧ decodeHost 0x100000 = .ckReset ∧ decodeHost 0x300000 = .ckFinalize ∧
  ∀ s : State,
    exec .nop s = .next { s with rsp := some 0 } ∧
    exec .ckReset s = .next { s with acc := 0xAAAA, rsp := some 0 } ∧
    exec .ckFinalize s = .next { s with rsp := some s.acc }

/-- R231: the word `0x5rvvvv` is WRREG of register `r`, a descriptor; it writes that register and responds 0; every other register
and all other state keep their values. The second clause is the model's own (log 24, DEDUCED): WRREG of a read-only register has
no word (R97), and the model refuses the term, which no command word decodes to. -/
def Obligations.WrregWritesOneDescriptor : Prop :=
  ∀ (r : HostReg) (v : Word) (s : State),
    (r.writable = true → decodeHost (cmdWord 5 r.num v) = .wrreg r v ∧ ∃ t : State,
      exec (.wrreg r v) s = .next t ∧ t.readReg r = v ∧ (∀ q, q ≠ r → t.readReg q = s.readReg q) ∧
      t.rsp = some 0 ∧
      { t with seg1Base := s.seg1Base, seg1Len := s.seg1Len, seg2Base := s.seg2Base, seg2Len := s.seg2Len, seg3Base := s.seg3Base,
               seg3Len := s.seg3Len, rxBase := s.rxBase, rxCap := s.rxCap, rsp := s.rsp } = s) ∧
    (r.writable = false → exec (.wrreg r v) s = .refused (.readOnlyRegister r))

/-- R232, R37: the word `0x6r0000` is RDREG of register `r`; it responds with the register its number names, zero-extended, and
changes nothing else; STATUS has `started` in bit 0 and `match` in bit 1, and bits 15:2 read as 0. -/
def Obligations.RdregRespondsWithRegister : Prop :=
  ∀ (r : HostReg) (s : State), decodeHost (cmdWord 6 r.num 0) = .rdreg r ∧ ∃ v : Word,
    exec (.rdreg r) s = .next { s with rsp := some v } ∧
    (r = .status → v.getLsbD 0 = s.started ∧ v.getLsbD 1 = s.matchFlag ∧ ∀ i : Nat, 2 ≤ i → v.getLsbD i = false) ∧
    v = match r.num.toNat with
      | 0 => s.seg1Base
      | 1 => s.seg1Len
      | 2 => s.seg2Base
      | 3 => s.seg2Len
      | 4 => s.seg3Base
      | 5 => s.seg3Len
      | 6 => s.rxBase
      | 7 => s.rxCap
      | 8 => s.resultLen
      | 9 => BitVec.ofNat 16 s.index.toNat
      | 10 => s.acc
      | _ => s.statusWord

/-! ## TRANSFER and BEGIN -/

/-- R161, R162: TRANSFER with its preconditions met enters `Sending`, and nothing else changes but the model's own position
(log 9); with a precondition violated it is refused. -/
def Obligations.TransferEntersSendingOrIsRefused : Prop :=
  ∀ s : State,
    (transferPre s → exec .transfer s = .next { s with ctl := .sending, pos := 0, waiting := false }) ∧
    (¬ transferPre s → exec .transfer s = .refused .payloadTooLong ∨ exec .transfer s = .refused .bufferPastMemory)

/-- R201, R202: BEGIN sets `started` and enters the settle loop; issued again it only responds 0. -/
def Obligations.BeginRunsOnlyOnce : Prop :=
  ∀ s : State,
    (s.started = false → exec .beginHs s = .next { s with started := true, hs := .settle, pos := 0, waiting := false }) ∧
    (s.started = true → exec .beginHs s = .next { s with rsp := some 0 })

/-! ## Internal operations -/

/-- R130: TIMEDREAD takes the oldest byte at once, whatever the clock says; on an empty queue it gives up when the time waited since
its entry has reached `T` (R64), and goes on waiting before that. A wait is one poll an `exec` (log 10). -/
def Obligations.TimedReadTakesOrWaitsOrGivesUp : Prop :=
  ∀ (t : Nat) (s : State),
    (∀ c rest, s.rxq = c :: rest → exec (.timedRead t) s = .next (s.took c rest)) ∧
    (s.rxq = [] → t ≤ s.waitedMs → exec (.timedRead t) s = .next s.gaveUp) ∧
    (s.rxq = [] → s.waitedMs < t → exec (.timedRead t) s = .next s.stillWaits)

/-- R132: DELAY ends at the first poll that finds `T` ms elapsed since its entry, and touches only its clock sample. -/
def Obligations.DelayEndsWhenElapsed : Prop :=
  ∀ (t : Nat) (s : State),
    (t ≤ s.waitedMs → exec (.delay t) s = .next { s with t0 := s.waitStart, waiting := false }) ∧
    (s.waitedMs < t → exec (.delay t) s = .next { s with t0 := s.waitStart, waiting := true })

/-- R133: DRAIN discards every byte now buffered and touches nothing else; the accumulator is not folded. -/
def Obligations.DrainEmptiesTheQueue : Prop :=
  ∀ s : State, exec .drain s = .next { s with rxq := [] }

/-- R134, R58: EMIT writes its byte and folds it once the transport takes it; until then it waits, with nothing changed. -/
def Obligations.EmitWritesAndFolds : Prop :=
  ∀ (b : Byte) (s : State),
    (s.txReady = true → exec (.emit b) s = .next { s with txlog := s.txlog ++ [b], acc := ckUpdate s.acc b }) ∧
    (s.txReady = false → exec (.emit b) s = .next s)

/-! ## FC_SEND -/

/-- R135: the header: the length and the seeded accumulator, then marker, index, length-hi, length-lo, each folded. Until the
transport takes the byte the block waits, with nothing changed (R58). -/
def Obligations.FcSendEmitsTheHeader : Prop :=
  ∀ s : State,
    (s.txReady = true → s.pos = 0 →
      exec .fcSend s = .next ({ s with txLen := BitVec.ofNat 16 s.activeLen, acc := 0xAAAA }.sent 0xFF)) ∧
    (s.txReady = true → s.pos = 1 → exec .fcSend s = .next (s.sent s.index)) ∧
    (s.txReady = true → s.pos = 2 → exec .fcSend s = .next (s.sent (hiByte s.txLen))) ∧
    (s.txReady = true → s.pos = 3 → exec .fcSend s = .next (s.sent (loByte s.txLen))) ∧
    (s.txReady = false → s.pos < 4 → exec .fcSend s = .next s)

/-- R136: the `i`-th byte of segment `k` is read at `seg_base[k] + i` as it is sent; the segments follow each other in order; during
`HsReset` the bytes are those of `HS_RESET_CMD`. -/
def Obligations.FcSendEmitsEachPayloadByte : Prop :=
  ∀ (s : State) (i : Nat), s.txReady = true →
    (s.hs ≠ .reset → i < s.seg1Len.toNat → s.pos = 4 + i → i < s.txLen.toNat → s.seg1Base.toNat + i < 65536 →
      exec .fcSend s = .next (s.sent (Memory.get s.mem (s.seg1Base.toNat + i)))) ∧
    (s.hs ≠ .reset → i < s.seg2Len.toNat → s.pos = 4 + s.seg1Len.toNat + i → s.seg1Len.toNat + i < s.txLen.toNat →
      s.seg2Base.toNat + i < 65536 → exec .fcSend s = .next (s.sent (Memory.get s.mem (s.seg2Base.toNat + i)))) ∧
    (s.hs ≠ .reset → i < s.seg3Len.toNat → s.pos = 4 + s.seg1Len.toNat + s.seg2Len.toNat + i →
      s.seg1Len.toNat + s.seg2Len.toNat + i < s.txLen.toNat → s.seg3Base.toNat + i < 65536 →
      exec .fcSend s = .next (s.sent (Memory.get s.mem (s.seg3Base.toNat + i)))) ∧
    (s.hs = .reset → s.pos = 4 + i → i < s.txLen.toNat → ∀ b, Config.hsResetCmd[i]? = some b →
      exec .fcSend s = .next (s.sent b))

/-- R137, R163: the trailer is written high byte first, not folded, and the last byte ends `Sending`. Until the transport takes the
byte the block waits, with nothing changed (R58). -/
def Obligations.FcSendWritesTheTrailer : Prop :=
  ∀ s : State,
    (s.txReady = true → s.pos = 4 + s.txLen.toNat →
      exec .fcSend s = .next { s with txlog := s.txlog ++ [hiByte s.acc], pos := s.pos + 1, waiting := false }) ∧
    (s.txReady = true → s.pos = 5 + s.txLen.toNat →
      exec .fcSend s = .next { s with txlog := s.txlog ++ [loByte s.acc], ctl := .awaitingAck, pos := 0, waiting := false }) ∧
    (s.txReady = false → 4 + s.txLen.toNat ≤ s.pos → exec .fcSend s = .next s)

/-! ## FC_RECV -/

/-- R138, R164, R165: in `AwaitingAck` the first byte decides: 0xFF seeds and folds, any other abandons the attempt. -/
def Obligations.FcRecvMarkerPhase : Prop :=
  ∀ (s : State) (c : Byte) (rest : List Byte), s.ctl = .awaitingAck → s.rxq = c :: rest →
    (c = 0xFF → exec .fcRecv s =
      .next { s.took c rest with acc := 0x55AA, hdrI := 0, ctl := .receivingHeader, pos := 0, waiting := false }) ∧
    (c ≠ 0xFF → exec .fcRecv s = .next (s.took c rest).retrying)

/-- R139, R167, R168: the three header bytes: the index must be the expected one, the length is assembled high byte first. -/
def Obligations.FcRecvHeaderPhase : Prop :=
  ∀ (s : State) (c : Byte) (rest : List Byte), s.ctl = .receivingHeader → s.rxq = c :: rest →
    (s.hdrI = 0 → c = s.index → exec .fcRecv s = .next { s.took c rest with acc := ckUpdate s.acc c, hdrI := 1 }) ∧
    (s.hdrI = 0 → c ≠ s.index → exec .fcRecv s = .next (s.took c rest).retrying) ∧
    (s.hdrI = 1 → exec .fcRecv s =
      .next { s.took c rest with acc := ckUpdate s.acc c, rxLen := joinBytes c (loByte s.rxLen), hdrI := 2 }) ∧
    (s.hdrI = 2 → exec .fcRecv s =
      .next { s.took c rest with acc := ckUpdate s.acc c, rxLen := joinBytes (hiByte s.rxLen) c, rxCnt := 0,
                                 ctl := .receivingPayload, pos := 0, waiting := false })

/-- R140, R145, R170: a payload byte is folded and counted; below the capacity it is stored at `rx_base + rx_cnt` (or in `hs_reply`
during `HsReset`), beyond it is dropped; the last one ends the phase. With every declared byte consumed, so at once for an empty
payload, the phase ends without a read. -/
def Obligations.FcRecvPayloadPhase : Prop :=
  (∀ s : State, s.ctl = .receivingPayload → s.rxCnt = s.rxLen →
    exec .fcRecv s = .next { s with ctl := .validating, pos := 0, waiting := false }) ∧
  ∀ (s : State) (c : Byte) (rest : List Byte), s.ctl = .receivingPayload → s.rxCnt ≠ s.rxLen → s.rxq = c :: rest →
    let t := { s.took c rest with acc := ckUpdate s.acc c, rxCnt := s.rxCnt + 1 }
    let u := if s.rxCnt + 1 = s.rxLen then { t with ctl := .validating, pos := 0, waiting := false } else t
    (s.hs ≠ .reset → s.rxCnt < s.rxCap → s.rxBase.toNat + s.rxCnt.toNat < 65536 →
      exec .fcRecv s = .next { u with mem := Memory.set s.mem (s.rxBase.toNat + s.rxCnt.toNat) c }) ∧
    (s.hs ≠ .reset → ¬ s.rxCnt < s.rxCap → exec .fcRecv s = .next u) ∧
    (s.hs = .reset → s.rxCnt = 0 → exec .fcRecv s = .next { u with hsReply := c }) ∧
    (s.hs = .reset → s.rxCnt ≠ 0 → exec .fcRecv s = .next u)

/-- R141, R142, R172, R173: the two trailer bytes, neither folded; on a match the accept step advances the index and, for a host
TRANSFER, responds `min(rx_len, rx_cap)`, or for the reset transfer hands over to `HsCheck`; on a mismatch the attempt is
abandoned. -/
def Obligations.FcRecvTrailerPhaseAndAccept : Prop :=
  ∀ (s : State) (c : Byte) (rest : List Byte), s.ctl = .validating → s.rxq = c :: rest →
    (s.pos = 0 → exec .fcRecv s = .next { s.took c rest with candHi := c, pos := 1, waiting := false }) ∧
    (s.pos = 1 → s.acc ≠ joinBytes s.candHi c → exec .fcRecv s = .next (s.took c rest).retrying) ∧
    (s.pos = 1 → s.acc = joinBytes s.candHi c → s.hs = .idle →
      ∀ n : Word, n.toNat = min s.rxLen.toNat s.rxCap.toNat →
        exec .fcRecv s = .next { s.took c rest with index := s.index + 1, resultLen := n, rsp := some n, ctl := .idle, pos := 0,
                                                    waiting := false }) ∧
    (s.pos = 1 → s.acc = joinBytes s.candHi c → s.hs = .reset →
      exec .fcRecv s = .next { s.took c rest with index := s.index + 1, ctl := .idle, hs := .check, pos := 0, waiting := false })

/-- R251, R252, R166, R169, R171: in each receiving state a silent line whose wait has run out (100 ms for the first byte, 5 ms for
every later one) abandons the attempt, and nothing is recorded of the cause; before that the block waits. -/
def Obligations.FcRecvTimeoutsAbandonTheAttempt : Prop :=
  ∀ s : State, s.rxq = [] →
    (s.ctl = .awaitingAck → 100 ≤ s.waitedMs → exec .fcRecv s = .next s.gaveUp.retrying) ∧
    (s.ctl = .receivingHeader → 5 ≤ s.waitedMs → exec .fcRecv s = .next s.gaveUp.retrying) ∧
    (s.ctl = .receivingPayload → s.rxCnt ≠ s.rxLen → 5 ≤ s.waitedMs → exec .fcRecv s = .next s.gaveUp.retrying) ∧
    (s.ctl = .validating → 5 ≤ s.waitedMs → exec .fcRecv s = .next s.gaveUp.retrying) ∧
    (s.ctl = .awaitingAck → s.waitedMs < 100 → exec .fcRecv s = .next s.stillWaits) ∧
    (s.ctl = .receivingHeader ∨ s.ctl = .receivingPayload ∧ s.rxCnt ≠ s.rxLen ∨ s.ctl = .validating → s.waitedMs < 5 →
      exec .fcRecv s = .next s.stillWaits)

/-! ## Payload commands and pseudo-operations -/

/-- R93, R94, R136: the block transmits a command byte as the payload byte it is: written, folded, and the position moved on; and of
the reset command the byte at the present position. Until the transport takes it the block waits, with nothing changed, at these and
at every other payload byte (R58; log 12). The byte values are the spec's presumption (log 20). -/
def Obligations.PayloadCommandsAreTransmitted : Prop :=
  ∀ s : State,
    (s.txReady = true →
      exec .payDequeue s = .next (s.sent 0x6D) ∧ exec .payEnqueue s = .next (s.sent 0x4D) ∧
      exec .payJson s = .next (s.sent 0x4A) ∧ exec .payCount s = .next (s.sent 0x6E) ∧
      exec .payStore s = .next (s.sent 0x44) ∧ exec .payFetch s = .next (s.sent 0x64) ∧
      (s.pos = 4 ∨ s.pos = 5 → exec .payReset s = .next (s.sent 0x58)) ∧
      (s.pos = 6 → exec .payReset s = .next (s.sent 0x31)) ∧
      (s.pos = 7 ∨ s.pos = 8 → exec .payReset s = .next (s.sent 0x30))) ∧
    (s.txReady = false →
      (∀ i ∈ [Instr.payDequeue, .payEnqueue, .payJson, .payCount, .payStore, .payFetch], exec i s = .next s) ∧
      (4 ≤ s.pos → s.pos ≤ 8 → exec .payReset s = .next s) ∧
      ∀ n, s.pos = 4 + n → n < s.txLen.toNat →
        (s.hs ≠ .reset → s.payloadAddr n < 65536 → exec .fcSend s = .next s) ∧
        (s.hs = .reset → n < Config.hsResetCmd.length → exec .fcSend s = .next s))

/-- R235 to R241: each pseudo-operation places its payload, writes the descriptors of its split (each WRREG answered with 0) and
enters `Sending`; nothing else changes. The splits are the spec's illustrations (log 16); that a later segment's bytes stay where
placements overlap is the model's choice (log 30). -/
def Obligations.PseudoOperationsStartTheirTransfer : Prop :=
  ∀ (p : Placement) (k v : List Byte) (s : State),
    let go := fun (t : State) (n : Nat) =>
      { t with seg1Base := p.a1, rxBase := p.ar, rxCap := p.cap, ctl := .sending, pos := 0, waiting := false, rsp := none,
               rspLog := s.rspLog ++ List.replicate n 0 }
    let one := fun (letter : Byte) => Memory.setRange s.mem p.a1.toNat [letter]
    let two := fun (letter : Byte) => Memory.setRange (one letter) p.a2.toNat k
    let len := fun (l : List Byte) => BitVec.ofNat 16 l.length
    ((Instr.get p k).wf = true → exec (.get p k) s =
      .next (go { s with mem := two 0x64, seg1Len := 1, seg2Base := p.a2, seg2Len := len k, seg3Len := 0 } 7)) ∧
    ((Instr.put p k v).wf = true → exec (.put p k v) s =
      .next (go { s with mem := Memory.setRange (Memory.setRange (Memory.setRange s.mem p.a1.toNat (0x44 :: k)) p.a2.toNat [0xFE])
                                  p.a3.toNat v,
                         seg1Len := len (0x44 :: k), seg2Base := p.a2, seg2Len := 1, seg3Base := p.a3, seg3Len := len v } 8)) ∧
    ((Instr.msgSend p k).wf = true → exec (.msgSend p k) s =
      .next (go { s with mem := two 0x4D, seg1Len := 1, seg2Base := p.a2, seg2Len := len k, seg3Len := 0 } 7)) ∧
    ((Instr.msgRecv p).wf = true → exec (.msgRecv p) s =
      .next (go { s with mem := one 0x6D, seg1Len := 1, seg2Len := 0, seg3Len := 0 } 6)) ∧
    ((Instr.msgCount p).wf = true → exec (.msgCount p) s =
      .next (go { s with mem := one 0x6E, seg1Len := 1, seg2Len := 0, seg3Len := 0 } 6)) ∧
    ((Instr.jsonSend p k).wf = true → exec (.jsonSend p k) s =
      .next (go { s with mem := two 0x4A, seg1Len := 1, seg2Base := p.a2, seg2Len := len k, seg3Len := 0 } 7))

/-- R236 to R241: the request payload of each pseudo-operation, where its placements do not overlap. -/
def Obligations.PseudoOperationsRequestPayloads : Prop :=
  ∀ (p : Placement) (k v : List Byte) (s t : State), s.hs = .idle → Memory.wf s.mem = true →
    (apart p.a1.toNat 1 p.a2.toNat k.length → exec (.get p k) s = .next t → t.activePayload = 0x64 :: k) ∧
    (apart p.a1.toNat (1 + k.length) p.a2.toNat 1 → apart p.a1.toNat (1 + k.length) p.a3.toNat v.length →
      apart p.a2.toNat 1 p.a3.toNat v.length → exec (.put p k v) s = .next t → t.activePayload = 0x44 :: k ++ 0xFE :: v) ∧
    (apart p.a1.toNat 1 p.a2.toNat k.length → exec (.msgSend p k) s = .next t → t.activePayload = 0x4D :: k) ∧
    (exec (.msgRecv p) s = .next t → t.activePayload = [0x6D]) ∧
    (exec (.msgCount p) s = .next t → t.activePayload = [0x6E]) ∧
    (apart p.a1.toNat 1 p.a2.toNat k.length → exec (.jsonSend p k) s = .next t → t.activePayload = 0x4A :: k)

/-- Where the model stops outside the memory, its own choice (logs 16, 18; R53 and R162 rule the cases out): a pseudo-operation
whose bytes do not fit is refused as TRANSFER would be; a payload byte or a reply byte at an address of 65536 or more, and a
position behind the reset command's five bytes, are faults. -/
def Obligations.StopsOutsideTheMemory : Prop :=
  ∀ (p : Placement) (k v : List Byte) (s : State),
    (placementOk p 1 k.length 0 = false → ∀ i ∈ [Instr.get p k, .msgSend p k, .jsonSend p k],
      exec i s = .refused .payloadTooLong ∨ exec i s = .refused .bufferPastMemory) ∧
    (placementOk p (1 + k.length) 1 v.length = false →
      exec (.put p k v) s = .refused .payloadTooLong ∨ exec (.put p k v) s = .refused .bufferPastMemory) ∧
    (placementOk p 1 0 0 = false → ∀ i ∈ [Instr.msgRecv p, .msgCount p], exec i s = .refused .bufferPastMemory) ∧
    (∀ n, s.hs ≠ .reset → s.pos = 4 + n → n < s.txLen.toNat → 65536 ≤ s.payloadAddr n →
      exec .fcSend s = .fault (.addressOutsideMemory (s.payloadAddr n))) ∧
    (s.hs ≠ .reset → s.ctl = .receivingPayload → s.rxCnt ≠ s.rxLen → s.rxq ≠ [] → s.rxCnt < s.rxCap →
      65536 ≤ s.rxBase.toNat + s.rxCnt.toNat →
      exec .fcRecv s = .fault (.addressOutsideMemory (s.rxBase.toNat + s.rxCnt.toNat))) ∧
    (9 ≤ s.pos → exec .payReset s = .fault (.beyondResetCommand (s.pos - 4)))

/-- R235: GET is its expansion: the host's seven WRREG words and TRANSFER, issued one by one on a quiet line with the payload
placed, lead to the state that `exec` of GET answers. Where the placements overlap, the order of placing is log 30's. -/
def Obligations.GetIsItsExpansion : Prop :=
  ∀ (p : Placement) (key : List Byte) (s : State), (Instr.get p key).wf = true → s.busy = false → s.rsp = none → s.quiet →
    s.cmds = [] →
    runs 15 { (s.place p.a1 [0x64]).place p.a2 key with cmds := pseudoWords p [0x64] (some key) none } = exec (.get p key) s

/-- R240: with response 2 the count is `b0 * 256 + b1`, from the first two bytes of the receive buffer. -/
def Obligations.MessageCountIsBigEndian : Prop :=
  ∀ s : State, s.resultLen = 2 →
    s.messageCount = some ((Memory.get s.mem s.rxBase.toNat).toNat * 256 + (Memory.get s.mem (s.rxBase.toNat + 1)).toNat)

/-! ## The machine's step -/

/-- A step that moves the block when it is ready runs the operation the offered word decodes to, on the state with the word taken
(R39, R40); `taken` takes the move off the schedule (log 1). -/
def Obligations.StepRunsTheDecodedCommand : Prop :=
  ∀ (s : State) (w : Cmd) (rest : List Cmd) (i : Instr), s.nextMove = .block → s.busy = false → s.rsp = none →
    s.cmds = w :: rest → decode (.host w) = .ok i → i.wf = true → step s = exec i { s.taken with cmds := rest }

/-- A step that moves the block while its controller runs runs the operation that `ctl_state` names: FC_SEND, the payload command
that the fetched payload byte decodes to (log 15), or FC_RECV (R26, R72, R175). -/
def Obligations.StepRunsTheControllersOperation : Prop :=
  ∀ s : State, s.nextMove = .block → s.rsp = none → s.hs = .idle ∨ s.hs = .reset →
    (s.ctl = .sending → s.pos < 4 ∨ 4 + s.txLen.toNat ≤ s.pos → step s = exec .fcSend s.taken) ∧
    (s.ctl = .sending → s.hs = .idle → 4 < s.pos → step s = exec .fcSend s.taken) ∧
    (s.ctl = .sending → s.hs = .idle → s.pos = 4 → 0 < s.txLen.toNat → s.payloadAddr 0 < 65536 →
      match decodePayload [Memory.get s.mem (s.payloadAddr 0)] with
      | .ok i => step s = exec i s.taken
      | .error _ => step s = exec .fcSend s.taken) ∧
    (s.ctl = .sending → s.hs = .reset → 4 ≤ s.pos → s.pos < 4 + s.txLen.toNat → step s = exec .payReset s.taken) ∧
    (s.ctl = .awaitingAck ∨ s.ctl = .receivingHeader ∨ s.ctl = .receivingPayload ∨ s.ctl = .validating →
      step s = exec .fcRecv s.taken)

/-- R40 and R39: a pending response is delivered in a step of its own (log 11), and no command is taken while the block is busy or a
response is outstanding. -/
def Obligations.CommandsWaitForReadiness : Prop :=
  ∀ s t : State, s.nextMove = .block → step s = .next t →
    (s.cmdReady = false → t.cmds = s.cmds) ∧
    (∀ v, s.rsp = some v → t.rsp = none ∧ t.rspLog = s.rspLog ++ [v] ∧ t.busy = s.busy)

/-- R43, R280, R282: hardware reset at any time gives the block the values R43 states, and touches neither queue, log, memory nor
clock; the block is then idle and ready. -/
def Obligations.HardwareResetFromAnyState : Prop :=
  ∀ s t : State, s.nextMove = .rst → step s = .next t →
    t.acc = 0xAAAA ∧ t.index = 0 ∧ t.started = false ∧ t.matchFlag = false ∧ t.ctl = .idle ∧ t.hs = .idle ∧
    (∀ r, r ≠ .acc → t.readReg r = 0) ∧ t.busy = false ∧ t.cmdReady = true ∧ t.rsp = none ∧
    t.rxq = s.rxq ∧ t.txlog = s.txlog ∧ t.mem = s.mem ∧ t.nowMs = s.nowMs ∧ t.txReady = s.txReady ∧ t.cmds = s.cmds

/-- R43, R283: right after reset the block is idle and ready; and in every state, an idle block that the host offers no command
executes nothing: its step takes the move off the schedule (log 1) and changes nothing else, so it goes on sitting there until a
command comes. -/
def Obligations.IdleBlockExecutesNothing : Prop :=
  (State.reset.busy = false ∧ State.reset.rsp = none ∧ State.reset.cmdReady = true) ∧
  ∀ s : State, s.nextMove = .block → s.busy = false → s.rsp = none → s.cmds = [] →
    step s = .next s.taken ∧ s.taken = { s with sched := s.taken.sched }

/-- R252, R257 and R258: raising a link error writes `ctl_state`, raising `Halt` writes `hs_state`, and neither writes anything else
but the model's own position (log 9), whatever the cause. -/
def Obligations.RaisingWritesOneStateElement : Prop :=
  ∀ (s : State) (cause : LinkCause),
    s.raiseLinkError cause = { s with ctl := .retrying, pos := 0, waiting := false } ∧
    s.raiseHalt = { s with hs := .halted, pos := 0, waiting := false }

/-- R174, R260: `Retrying` delays 100 ms, then drains until the queue is empty, then goes back to `Sending`, with the index, the
descriptors, the result and the flags unchanged. -/
def Obligations.RetryDelaysThenDrainsThenResends : Prop :=
  ∀ s : State, s.nextMove = .block → s.rsp = none → s.hs = .idle ∨ s.hs = .reset → s.ctl = .retrying →
    let u := s.taken
    (s.pos = 0 → u.waitedMs < 100 → step s = .next { u with t0 := u.waitStart, waiting := true }) ∧
    (s.pos = 0 → 100 ≤ u.waitedMs → step s = .next { u with t0 := u.waitStart, waiting := false, pos := 1 }) ∧
    (s.pos ≠ 0 → s.rxq ≠ [] → step s = .next { u with rxq := [] }) ∧
    (s.pos ≠ 0 → s.rxq = [] → step s = .next { u with ctl := .sending, pos := 0, waiting := false })

/-- R203, R208: the settle loop drains, delays 1100 ms and tests; it repeats while bytes arrive. `HsDrain` drains and starts the
reset transfer. -/
def Obligations.SettleLoopAndFinalDrain : Prop :=
  ∀ s : State, s.nextMove = .block → s.rsp = none →
    let u := s.taken
    (s.hs = .settle → s.pos = 0 → s.rxq ≠ [] → step s = .next { u with rxq := [] }) ∧
    (s.hs = .settle → s.pos = 0 → s.rxq = [] → step s = .next { u with pos := 1, waiting := false }) ∧
    (s.hs = .settle → s.pos ≠ 0 → u.waitedMs < 1100 → step s = .next { u with t0 := u.waitStart, waiting := true }) ∧
    (s.hs = .settle → s.pos ≠ 0 → 1100 ≤ u.waitedMs → s.rxq ≠ [] →
      step s = .next { u with t0 := u.waitStart, hs := .settle, pos := 0, waiting := false }) ∧
    (s.hs = .settle → s.pos ≠ 0 → 1100 ≤ u.waitedMs → s.rxq = [] →
      step s = .next { u with t0 := u.waitStart, hs := .interrupt, pos := 0, waiting := false }) ∧
    (s.hs = .drain → s.rxq ≠ [] → step s = .next { u with rxq := [] }) ∧
    (s.hs = .drain → s.rxq = [] → step s = .next { u with hs := .reset, ctl := .sending, pos := 0, waiting := false })

/-- R95, R204 to R207, R214: each of the four strings goes out byte by byte, unframed and unfolded, and is followed by its own
delay: 250 ms after the interrupt, 500 ms and 750 ms after the blank lines, 500 ms after the activate command. -/
def Obligations.HandshakeStringsAndDelays : Prop :=
  ∀ (s : State) (str : List Byte) (ms : Nat) (after : HsState), s.nextMove = .block → s.rsp = none →
    (s.hs = .interrupt ∧ str = s.params.hsInterrupt ∧ ms = 250 ∧ after = .blank1 ∨
      s.hs = .blank1 ∧ str = s.params.hsBlank ∧ ms = 500 ∧ after = .blank2 ∨
      s.hs = .blank2 ∧ str = s.params.hsBlank ∧ ms = 750 ∧ after = .activate ∨
      s.hs = .activate ∧ str = s.params.hsActivate ∧ ms = 500 ∧ after = .drain) →
    let u := s.taken
    (∀ b, str[s.pos]? = some b → s.txReady = true →
      step s = .next { u with txlog := s.txlog ++ [b], pos := s.pos + 1, waiting := false }) ∧
    (∀ b, str[s.pos]? = some b → s.txReady = false → step s = .next u) ∧
    (str.length ≤ s.pos → u.waitedMs < ms → step s = .next { u with t0 := u.waitStart, waiting := true }) ∧
    (str.length ≤ s.pos → ms ≤ u.waitedMs →
      step s = .next { u with t0 := u.waitStart, hs := after, pos := 0, waiting := false })

/-- R210 to R212, R31: a zero reply byte finishes BEGIN with response 0, any other halts; with an empty reply the value tested is
free, so either may happen, and the statement holds for every value of it (log 8). -/
def Obligations.HandshakeVerdict : Prop :=
  ∀ s : State, s.nextMove = .block → s.rsp = none → s.hs = .check →
    let u := s.taken
    (s.rxLen ≠ 0 → s.hsReply = 0 → step s = .next { u with hs := .idle, pos := 0, waiting := false, rsp := some 0 }) ∧
    (s.rxLen ≠ 0 → s.hsReply ≠ 0 → step s = .next { u with hs := .halted, pos := 0, waiting := false }) ∧
    (s.rxLen = 0 →
      step s = .next { u with hs := .idle, pos := 0, waiting := false, rsp := some 0, freeCount := s.freeCount + 1 } ∨
      step s = .next { u with hs := .halted, pos := 0, waiting := false, freeCount := s.freeCount + 1 })

/-- R211: nothing but hardware reset leaves `HsHalted`; in it the block writes nothing to the transport or memory and changes no
state of its own, and is busy for ever. -/
def Obligations.HaltedForGood : Prop :=
  ∀ s t : State, s.hs = .halted → s.rsp = none → s.nextMove ≠ .rst → step s = .next t →
    t.blockPart = s.blockPart ∧ t.busy = true ∧ t.cmdReady = false ∧ t.txlog = s.txlog ∧ t.rspLog = s.rspLog ∧
    (s.nextMove = .block → t.rxq = s.rxq ∧ t.mem = s.mem ∧ t.cmds = s.cmds)

/-! ## Whole-machine rules -/

/-- R22, R173, R177: a step changes the index only by hardware reset, to 0, or by the accept step, which needs `Validating`, the
second trailer byte (the position is past the first) and a matching checksum, and adds exactly 1. -/
def Obligations.IndexAdvancesOnlyOnAccept : Prop :=
  ∀ s t : State, step s = .next t →
    t.index = s.index ∨ (s.nextMove = .rst ∧ t.index = 0) ∨
    (s.nextMove = .block ∧ s.ctl = .validating ∧ s.pos ≠ 0 ∧ t.ctl = .idle ∧ t.index = s.index + 1 ∧
      ∃ c rest, s.rxq = c :: rest ∧ t.rxq = rest ∧ s.acc = joinBytes s.candHi c)

/-- R23, R24, R216: only hardware reset clears `started`; `match` changes only by hardware reset or by a CK_MATCHES that a ready
block takes, whose comparison it then is. -/
def Obligations.FlagsChangeOnlyAsStated : Prop :=
  ∀ s t : State, step s = .next t → s.nextMove ≠ .rst →
    (s.started = true → t.started = true) ∧
    (t.matchFlag = s.matchFlag ∨ (s.nextMove = .block ∧ s.busy = false ∧ s.rsp = none ∧
      ∃ w rest cand, s.cmds = w :: rest ∧ t.cmds = rest ∧ decodeHost w = .ckMatches cand ∧ t.matchFlag = decide (s.acc = cand)))

/-- R29, R44: a busy block writes no descriptor, and `result_len` only by accepting a host TRANSFER; its own steps take no
command (a move of the host may offer one more). -/
def Obligations.BusyBlockKeepsDescriptors : Prop :=
  ∀ s t : State, s.busy = true → s.nextMove ≠ .rst → step s = .next t →
    (∀ r : HostReg, r.writable = true → t.readReg r = s.readReg r) ∧ t.matchFlag = s.matchFlag ∧ t.params = s.params ∧
    (t.resultLen = s.resultLen ∨ (s.hs = .idle ∧ t.ctl = .idle ∧ t.rsp = some t.resultLen)) ∧
    (s.nextMove = .block → t.cmds = s.cmds)

/-- R52, R53, R145: a step of the block changes no byte of memory but the one at `rx_base + rx_cnt`, in `ReceivingPayload` of a host
transfer, below the capacity; so no segment outside the receive buffer is ever written. -/
def Obligations.MemoryWrittenOnlyInReceiveBuffer : Prop :=
  ∀ (s t : State) (a : Nat), s.nextMove = .block → step s = .next t → Memory.get t.mem a ≠ Memory.get s.mem a →
    s.hs = .idle ∧ s.ctl = .receivingPayload ∧ s.rxCnt < s.rxCap ∧ a = s.rxBase.toNat + s.rxCnt.toNat

/-- R62, R69, R293: a step of the block writes at most one byte and then reads none, and it writes only in `Sending` or one of the
four string states of the handshake; it takes the queue's head only in a receiving state, and empties the queue only in a drain
(`Retrying` after its delay, the settle loop's own, `HsDrain`); so none is read while sending and none written while receiving. A
block that is not busy touches the transport in no way. -/
def Obligations.TransportIsHalfDuplex : Prop :=
  ∀ s t : State, s.nextMove = .block → step s = .next t →
    let active := s.hs = .idle ∨ s.hs = .reset
    let receives := s.ctl = .awaitingAck ∨ s.ctl = .receivingHeader ∨ s.ctl = .receivingPayload ∨ s.ctl = .validating
    (t.txlog = s.txlog ∨
      (∃ b, t.txlog = s.txlog ++ [b]) ∧ t.rxq = s.rxq ∧
        (active ∧ s.ctl = .sending ∨ s.hs = .interrupt ∨ s.hs = .blank1 ∨ s.hs = .blank2 ∨ s.hs = .activate)) ∧
    (t.rxq = s.rxq ∨
      (active ∧ receives ∧ ∃ c, s.rxq = c :: t.rxq) ∨
      (t.rxq = [] ∧ (active ∧ s.ctl = .retrying ∧ s.pos ≠ 0 ∨ s.hs = .settle ∧ s.pos = 0 ∨ s.hs = .drain))) ∧
    (active → s.ctl = .sending → t.rxq = s.rxq) ∧
    (active → receives → t.txlog = s.txlog) ∧
    (s.busy = false → t.txlog = s.txlog ∧ t.rxq = s.rxq)

/-- R175 and R213, complete: from a state that meets the invariant, every step but hardware reset leaves `ctl_state` and
`hs_state` as they are or moves each along its table. -/
def Obligations.TransitionsFollowTheTables : Prop :=
  ∀ s t : State, Inv s → s.nextMove ≠ .rst → step s = .next t →
    (t.ctl = s.ctl ∨ ctlTable s.ctl t.ctl = true) ∧ (t.hs = s.hs ∨ hsTable s.hs t.hs = true)

/-- The invariant holds right after reset. -/
def Obligations.InvariantAtReset : Prop :=
  Inv State.reset

/-- Every step keeps the invariant, from every state that meets it (R28, R51, R161, R162, R173, R181). -/
def Obligations.StepKeepsInvariant : Prop :=
  ∀ s t : State, Inv s → step s = .next t → Inv t

/-- R53, R55, R263: from a state that meets the invariant no step faults: the block never reaches outside buffer memory. -/
def Obligations.NoFaultUnderInvariant : Prop :=
  ∀ s : State, Inv s → Safe s

/-! ## Whole frames and transfers -/

/-- R135 to R137, R146, R163: from the start of `Sending`, with a transport that takes every byte, `6 + len` steps put exactly
`Frame(index, payload)` on the line and leave its checksum in `acc`; the queue, memory and index are untouched. -/
def Obligations.SendingWritesExactlyTheFrame : Prop :=
  ∀ s : State, s.quiet → s.rsp = none → s.ctl = .sending → s.pos = 0 → s.txReady = true →
    (s.hs = .reset ∨ s.hs = .idle ∧ transferPre s) →
    ∃ t : State, runs (6 + s.activeLen) s = .next t ∧ t.txlog = s.txlog ++ frame s.index s.activePayload ∧
      t.acc = ck (frameBody s.index s.activePayload) ∧ t.ctl = .awaitingAck ∧ t.pos = 0 ∧ t.hs = s.hs ∧ t.index = s.index ∧
      t.mem = s.mem ∧ t.rxq = s.rxq ∧ t.rsp = none ∧ t.quiet ∧ ∀ r : HostReg, r ≠ .acc → t.readReg r = s.readReg r

/-- R138 to R142, R145, R147, R172, R173, R45: in `AwaitingAck` of a host TRANSFER with `Frame(index, p)` at the head of the
queue, the reply is accepted: `rx_len` is its length, the first `min(len, rx_cap)` bytes are stored, that count is the response,
the index advances by one, `acc` is the reply's checksum, and what stands behind the frame stays in the queue (R293). -/
def Obligations.ValidReplyIsAccepted : Prop :=
  ∀ (s : State) (p rest : List Byte), s.quiet → s.rsp = none → s.hs = .idle → s.ctl = .awaitingAck → transferPre s →
    p.length ≤ 65535 → s.rxq = frame s.index p ++ rest →
    ∃ t : State, runs (6 + max p.length 1) s = .next t ∧ t.ctl = .idle ∧ t.hs = .idle ∧ t.index = s.index + 1 ∧
      t.rxLen = BitVec.ofNat 16 p.length ∧ t.resultLen = BitVec.ofNat 16 (min p.length s.rxCap.toNat) ∧
      t.rsp = some t.resultLen ∧
      t.acc = ck (frameBody s.index p) ∧ t.rxq = rest ∧ t.txlog = s.txlog ∧
      t.mem = Memory.setRange s.mem s.rxBase.toNat (p.take s.rxCap.toNat) ∧
      ∀ r : HostReg, r.writable = true → t.readReg r = s.readReg r

/-- R209, R217, R181, R30: the reset reply is accepted the same way, but its first payload byte goes to `hs_reply`, memory is
untouched, and the handshake goes on to `HsCheck` with no response. -/
def Obligations.ValidResetReplyReachesCheck : Prop :=
  ∀ (s : State) (p rest : List Byte), s.quiet → s.rsp = none → s.hs = .reset → s.ctl = .awaitingAck → p.length ≤ 65535 →
    s.rxq = frame s.index p ++ rest →
    ∃ t : State, runs (6 + max p.length 1) s = .next t ∧ t.ctl = .idle ∧ t.hs = .check ∧ t.index = s.index + 1 ∧
      t.rxLen = BitVec.ofNat 16 p.length ∧ t.hsReply = p.head?.getD s.hsReply ∧ t.rsp = none ∧
      t.acc = ck (frameBody s.index p) ∧ t.rxq = rest ∧ t.mem = s.mem ∧ t.resultLen = s.resultLen

/-- R160, R176: TRANSFER issued on a ready block with its preconditions met, and a valid reply already buffered, completes in one
attempt: the request frame is on the line, the reply's bytes are in the receive buffer and the stored count is the response. -/
def Obligations.TransferCompletesOnAValidReply : Prop :=
  ∀ (s : State) (p rest : List Byte) (later : List Cmd), s.quiet → s.busy = false → s.rsp = none → s.txReady = true → transferPre s →
    s.cmds = 0x700000 :: later → p.length ≤ 65535 → s.rxq = frame s.index p ++ rest →
    ∃ t : State, runs (1 + (6 + s.activeLen) + (6 + max p.length 1)) s = .next t ∧ t.busy = false ∧ t.cmds = later ∧
      t.txlog = s.txlog ++ frame s.index s.activePayload ∧ t.index = s.index + 1 ∧ t.rxq = rest ∧
      t.rsp = some (BitVec.ofNat 16 (min p.length s.rxCap.toNat)) ∧
      t.mem = Memory.setRange s.mem s.rxBase.toNat (p.take s.rxCap.toNat) ∧ t.acc = ck (frameBody s.index p)

/-- R174, R176, R300: on a silent line an attempt is abandoned and the block is back at the start of `Sending` 200 ms later, with
the index, the descriptors and memory unchanged, so that the next frame is the same. The quiet clock is log 3's. -/
def Obligations.SilentAttemptIsRetried : Prop :=
  ∀ s : State, s.quiet → s.rsp = none → s.hs = .idle ∨ s.hs = .reset → s.ctl = .awaitingAck → s.waiting = false → s.rxq = [] →
    ∃ t : State, runs 203 s = .next t ∧ t.ctl = .sending ∧ t.pos = 0 ∧ t.hs = s.hs ∧ t.index = s.index ∧ t.mem = s.mem ∧
      t.activePayload = s.activePayload ∧ t.txlog = s.txlog ∧ t.rxq = [] ∧ t.rsp = none ∧ t.nowMs = s.nowMs + 200 ∧
      ∀ r : HostReg, r.writable = true → t.readReg r = s.readReg r

/-- R176, R262 (a), R292: against a peer that stays silent a transfer never responds: after any number of steps the block is still
busy, its index unchanged. -/
def Obligations.SilentPeerBlocksForEver : Prop :=
  ∀ (s : State) (k : Nat), Inv s → s.quiet → s.ctl ≠ .idle → s.rxq = [] →
    ∃ t : State, runs k s = .next t ∧ t.busy = true ∧ t.rsp = none ∧ t.index = s.index ∧ t.rxq = []

/-- R133, R262 (b): against a peer that sends without pause a drain never ends. The recurring schedule is the model's (log 1). -/
def Obligations.DrainMayNeverEnd : Prop :=
  ∀ (s : State) (b : Byte) (k : Nat), s.rsp = none → s.hs = .idle → s.ctl = .retrying → s.pos = 1 → s.sched = [] →
    s.loop = [.arrive [b], .block] →
    ∃ t : State, runs (2 * k) s = .next t ∧ t.ctl = .retrying ∧ t.pos = 1 ∧ t.index = s.index
end

