-- ==== Sys2Proof/Laws/Bytes.lean ====
section
/-! SUPPORT. The halves of a word and the fields of a command word, each read back from what it was built of. -/

namespace Sys2Proof.Machine

@[simp] theorem joinBytes_halves (v : Word) : joinBytes (hiByte v) (loByte v) = v := by
  unfold joinBytes hiByte loByte
  ext i hi
  simp only [BitVec.getElem_or, BitVec.getElem_shiftLeft, BitVec.getElem_setWidth, BitVec.getLsbD_extractLsb', Nat.zero_add]
  by_cases h : i < 8
  · simp [h, BitVec.getLsbD_eq_getElem hi]
  · simp [h, show i - 8 < 8 by omega, show 8 + (i - 8) = i by omega, BitVec.getLsbD_eq_getElem hi]

@[simp] theorem hiByte_joinBytes (h l : Byte) : hiByte (joinBytes h l) = h := by
  unfold joinBytes hiByte
  ext i hi
  simp [hi, show 8 + i < 16 by omega, BitVec.getLsbD_eq_getElem]

@[simp] theorem loByte_joinBytes (h l : Byte) : loByte (joinBytes h l) = l := by
  unfold joinBytes loByte
  ext i hi
  simp [hi, show i < 16 by omega, BitVec.getLsbD_eq_getElem]

/-- XOR works on the halves. -/
theorem joinBytes_xor (p q r s : Byte) : joinBytes p q ^^^ joinBytes r s = joinBytes (p ^^^ r) (q ^^^ s) := by
  unfold joinBytes
  ext i hi
  by_cases h8 : i < 8
  · simp [h8]
  · simp [h8, show i - 8 < 8 by omega, BitVec.getLsbD_of_ge _ i (show 8 ≤ i by omega)]

/-- Two words with equal halves are equal. -/
theorem word_ext {v w : Word} (hh : hiByte v = hiByte w) (hl : loByte v = loByte w) : v = w := by
  rw [← joinBytes_halves v, ← joinBytes_halves w, hh, hl]

end Sys2Proof.Machine

namespace Sys2Proof

@[simp] theorem opField_cmdWord (op r : BitVec 4) (a : Word) : opField (cmdWord op r a) = op := by
  unfold opField cmdWord
  ext i hi
  simp [hi, show 20 + i < 24 by omega, show ¬ 20 + i < 16 by omega, BitVec.getLsbD_of_ge r (20 + i - 16) (by omega),
    BitVec.getLsbD_of_ge a (20 + i) (by omega), BitVec.getLsbD_eq_getElem]

@[simp] theorem rField_cmdWord (op r : BitVec 4) (a : Word) : rField (cmdWord op r a) = r := by
  unfold rField cmdWord
  ext i hi
  simp [hi, show 16 + i < 24 by omega, show 16 + i < 20 by omega, BitVec.getLsbD_eq_getElem]

@[simp] theorem argField_cmdWord (op r : BitVec 4) (a : Word) : argField (cmdWord op r a) = a := by
  unfold argField cmdWord
  ext i hi
  simp [hi, show i < 24 by omega, show i < 20 by omega, BitVec.getLsbD_eq_getElem]

/-- A command word is its three fields (R89). -/
theorem cmdWord_fields (w : Cmd) : cmdWord (opField w) (rField w) (argField w) = w := by
  unfold opField rField argField cmdWord
  ext i hi
  by_cases h : i < 16
  · simp [h, show i < 20 by omega, BitVec.getLsbD_eq_getElem hi]
  · by_cases h2 : i < 20
    · simp [h, h2, show i - 16 < 4 by omega, show 16 + (i - 16) = i by omega, BitVec.getLsbD_eq_getElem hi]
    · simp [h, h2, show i - 20 < 4 by omega, show ¬ i - 16 < 4 by omega, show 20 + (i - 20) = i by omega,
        BitVec.getLsbD_eq_getElem hi]

/-- Two command words are equal when their fields are. -/
theorem cmd_ext_iff {v w : Cmd} : v = w ↔ opField v = opField w ∧ rField v = rField w ∧ argField v = argField w := by
  constructor
  · rintro rfl
    exact ⟨rfl, rfl, rfl⟩
  · rintro ⟨ho, hr, ha⟩
    rw [← cmdWord_fields v, ← cmdWord_fields w, ho, hr, ha]

@[simp] theorem opField_and (v w : Cmd) : opField (v &&& w) = opField v &&& opField w := by
  unfold opField
  ext i hi
  simp

@[simp] theorem rField_and (v w : Cmd) : rField (v &&& w) = rField v &&& rField w := by
  unfold rField
  ext i hi
  simp

@[simp] theorem argField_and (v w : Cmd) : argField (v &&& w) = argField v &&& argField w := by
  unfold argField
  ext i hi
  simp

/-- A register's number names it. -/
@[simp] theorem ofNum_num (r : HostReg) : HostReg.ofNum r.num = some r := by
  cases r <;> rfl

/-- A number names the register whose number it is, and none from 12 on. -/
theorem num_of_ofNum {n : BitVec 4} {r : HostReg} (h : HostReg.ofNum n = some r) : r.num = n := by
  unfold HostReg.ofNum at h
  split at h <;> cases h <;> (apply BitVec.eq_of_toNat_eq; simp_all [HostReg.num])

end Sys2Proof
end

