-- ==== Sys2Proof/Laws/Memory.lean ====
section
/-! SUPPORT. Buffer memory: what a store does to every read, and that every operation keeps the canonical form. -/

namespace Sys2Proof.Machine.Memory

theorem get_cons_same (a : Nat) (b : Byte) (rest : List Host.Cell) (h : get rest a = Config.memDefault) :
    get (cons a b rest) a = b := by
  unfold cons
  split
  · simp_all
  · simp [get]

theorem get_cons_other {a a' : Nat} (b : Byte) (rest : List Host.Cell) (h : a' ≠ a) :
    get (cons a b rest) a' = get rest a' := by
  unfold cons
  split
  · rfl
  · simp [get, Ne.symm h]

/-- Below the lowest listed address every byte reads as the default. -/
theorem get_below {low : Nat} {m : List Host.Cell} (h : wfFrom low m = true) {a : Nat} (ha : a < low) :
    get m a = Config.memDefault := by
  induction m generalizing low with
  | nil => rfl
  | cons c rest ih =>
    obtain ⟨k, v⟩ := c
    simp only [wfFrom, Bool.and_eq_true, decide_eq_true_eq] at h
    have hk : ¬ k = a := by omega
    simp only [get, hk, if_false]
    exact ih h.2 (by omega)

/-- A store leaves every other address alone. -/
theorem get_set_other (m : List Host.Cell) {a a' : Nat} (b : Byte) (h : a' ≠ a) : get (set m a b) a' = get m a' := by
  induction m with
  | nil => exact get_cons_other b [] h
  | cons c rest ih =>
    obtain ⟨k, v⟩ := c
    unfold set
    split
    · exact get_cons_other b _ h
    · split
      · next hk => rw [get_cons_other b _ h]; simp [get, show ¬ k = a' by omega]
      · simp [get, ih]

/-- A stored byte reads back. -/
theorem get_set_same {low : Nat} {m : List Host.Cell} (h : wfFrom low m = true) (a : Nat) (b : Byte) :
    get (set m a b) a = b := by
  induction m generalizing low with
  | nil => exact get_cons_same a b [] rfl
  | cons c rest ih =>
    obtain ⟨k, v⟩ := c
    simp only [wfFrom, Bool.and_eq_true, decide_eq_true_eq] at h
    unfold set
    split
    · next hlt =>
      apply get_cons_same
      simp only [get, show ¬ k = a by omega, if_false]
      exact get_below h.2 (by omega)
    · split
      · next hk => subst hk; exact get_cons_same _ b rest (get_below h.2 (by omega))
      · next hk => simp only [get, show ¬ k = a from fun e => hk e.symm, if_false]; exact ih h.2

theorem wfFrom_mono {low low' : Nat} {m : List Host.Cell} (h : wfFrom low m = true) (hl : low' ≤ low) :
    wfFrom low' m = true := by
  cases m with
  | nil => rfl
  | cons c rest =>
    obtain ⟨k, v⟩ := c
    simp only [wfFrom, Bool.and_eq_true, decide_eq_true_eq] at h ⊢
    exact ⟨⟨⟨by omega, h.1.1.2⟩, h.1.2⟩, h.2⟩

theorem wfFrom_cons {low a : Nat} {b : Byte} {rest : List Host.Cell} (hl : low ≤ a) (ha : a < Config.memSize)
    (h : wfFrom (a + 1) rest = true) : wfFrom low (cons a b rest) = true := by
  unfold cons
  split
  · exact wfFrom_mono h (by omega)
  · next hb => simp [wfFrom, hl, ha, hb, h]

theorem wfFrom_set {low : Nat} {m : List Host.Cell} (h : wfFrom low m = true) {a : Nat} (hl : low ≤ a)
    (ha : a < Config.memSize) (b : Byte) : wfFrom low (set m a b) = true := by
  induction m generalizing low with
  | nil => exact wfFrom_cons hl ha rfl
  | cons c rest ih =>
    obtain ⟨k, v⟩ := c
    simp only [wfFrom, Bool.and_eq_true, decide_eq_true_eq] at h
    unfold set
    split
    · next hlt =>
      apply wfFrom_cons hl ha
      simp only [wfFrom, Bool.and_eq_true, decide_eq_true_eq]
      exact ⟨⟨⟨by omega, h.1.1.2⟩, h.1.2⟩, h.2⟩
    · split
      · next hk => subst hk; exact wfFrom_cons hl ha h.2
      · next hk =>
        simp only [wfFrom, Bool.and_eq_true, decide_eq_true_eq]
        exact ⟨h.1, ih h.2 (by omega)⟩

/-- A store inside the memory keeps the canonical form. -/
theorem wf_set {m : List Host.Cell} (h : wf m = true) {a : Nat} (ha : a < Config.memSize) (b : Byte) :
    wf (set m a b) = true :=
  wfFrom_set h (Nat.zero_le a) ha b

/-- Storing a run of bytes inside the memory keeps the canonical form. -/
theorem wf_setRange {m : List Host.Cell} (h : wf m = true) (bytes : List Byte) {a : Nat}
    (ha : bytes = [] ∨ a + bytes.length ≤ Config.memSize) : wf (setRange m a bytes) = true := by
  induction bytes generalizing m a with
  | nil => exact h
  | cons b rest ih =>
    simp only [List.length_cons, reduceCtorEq, false_or] at ha
    exact ih (wf_set h (by omega) b) (.inr (by omega))

/-- A run of bytes leaves every address outside it alone. -/
theorem get_setRange_other (m : List Host.Cell) (bytes : List Byte) {a a' : Nat} (h : a' < a ∨ a + bytes.length ≤ a') :
    get (setRange m a bytes) a' = get m a' := by
  induction bytes generalizing m a with
  | nil => rfl
  | cons b rest ih =>
    simp only [List.length_cons] at h
    rw [setRange, ih _ (by omega), get_set_other _ _ (by omega)]

theorem length_getRange (m : List Host.Cell) (a n : Nat) : (getRange m a n).length = n := by
  induction n generalizing a with
  | zero => rfl
  | succ n ih => simp [getRange, ih]

/-- The `i`-th byte of a run is the byte at the run's address plus `i`. -/
theorem getElem?_getRange (m : List Host.Cell) (a : Nat) {n i : Nat} (h : i < n) : (getRange m a n)[i]? = some (get m (a + i)) := by
  induction n generalizing a i with
  | zero => omega
  | succ n ih =>
    cases i with
    | zero => rfl
    | succ i =>
      rw [getRange, List.getElem?_cons_succ, ih _ (by omega)]
      congr 2
      omega

/-- A run depends only on the bytes in it. -/
theorem getRange_congr {m m' : List Host.Cell} {a n : Nat} (h : ∀ k, a ≤ k → k < a + n → get m k = get m' k) :
    getRange m a n = getRange m' a n := by
  induction n generalizing a with
  | zero => rfl
  | succ n ih => rw [getRange, getRange, h a (by omega) (by omega), ih fun k h1 h2 => h k (by omega) (by omega)]

/-- A stored run reads back. -/
theorem getRange_setRange {m : List Host.Cell} (h : wf m = true) (bytes : List Byte) {a : Nat}
    (ha : bytes = [] ∨ a + bytes.length ≤ Config.memSize) : getRange (setRange m a bytes) a bytes.length = bytes := by
  induction bytes generalizing m a with
  | nil => rfl
  | cons b rest ih =>
    simp only [List.length_cons, reduceCtorEq, false_or] at ha
    rw [List.length_cons, getRange, setRange, get_setRange_other _ _ (by omega), get_set_same h,
      ih (wf_set h (by omega) b) (.inr (by omega))]

end Sys2Proof.Machine.Memory
end

