-- ==== Sys2Proof/Laws/State.lean ====
section
/-! SUPPORT. The fields of State after each of the plain updates: one lemma per field per update, so that no proof unfolds a
record update. -/

namespace Sys2Proof.Machine

variable (s : State)

/-! The response of an operation (R39). -/

@[simp] theorem respond_acc (v : Word) : (s.respond v).acc = s.acc := rfl
@[simp] theorem respond_index (v : Word) : (s.respond v).index = s.index := rfl
@[simp] theorem respond_started (v : Word) : (s.respond v).started = s.started := rfl
@[simp] theorem respond_matchFlag (v : Word) : (s.respond v).matchFlag = s.matchFlag := rfl
@[simp] theorem respond_ctl (v : Word) : (s.respond v).ctl = s.ctl := rfl
@[simp] theorem respond_hs (v : Word) : (s.respond v).hs = s.hs := rfl
@[simp] theorem respond_seg1Base (v : Word) : (s.respond v).seg1Base = s.seg1Base := rfl
@[simp] theorem respond_seg1Len (v : Word) : (s.respond v).seg1Len = s.seg1Len := rfl
@[simp] theorem respond_seg2Base (v : Word) : (s.respond v).seg2Base = s.seg2Base := rfl
@[simp] theorem respond_seg2Len (v : Word) : (s.respond v).seg2Len = s.seg2Len := rfl
@[simp] theorem respond_seg3Base (v : Word) : (s.respond v).seg3Base = s.seg3Base := rfl
@[simp] theorem respond_seg3Len (v : Word) : (s.respond v).seg3Len = s.seg3Len := rfl
@[simp] theorem respond_rxBase (v : Word) : (s.respond v).rxBase = s.rxBase := rfl
@[simp] theorem respond_rxCap (v : Word) : (s.respond v).rxCap = s.rxCap := rfl
@[simp] theorem respond_resultLen (v : Word) : (s.respond v).resultLen = s.resultLen := rfl
@[simp] theorem respond_txLen (v : Word) : (s.respond v).txLen = s.txLen := rfl
@[simp] theorem respond_hdrI (v : Word) : (s.respond v).hdrI = s.hdrI := rfl
@[simp] theorem respond_rxLen (v : Word) : (s.respond v).rxLen = s.rxLen := rfl
@[simp] theorem respond_rxCnt (v : Word) : (s.respond v).rxCnt = s.rxCnt := rfl
@[simp] theorem respond_candHi (v : Word) : (s.respond v).candHi = s.candHi := rfl
@[simp] theorem respond_t0 (v : Word) : (s.respond v).t0 = s.t0 := rfl
@[simp] theorem respond_hsReply (v : Word) : (s.respond v).hsReply = s.hsReply := rfl
@[simp] theorem respond_rsp (v : Word) : (s.respond v).rsp = some v := rfl
@[simp] theorem respond_pos (v : Word) : (s.respond v).pos = s.pos := rfl
@[simp] theorem respond_waiting (v : Word) : (s.respond v).waiting = s.waiting := rfl
@[simp] theorem respond_timedResult (v : Word) : (s.respond v).timedResult = s.timedResult := rfl
@[simp] theorem respond_freeCount (v : Word) : (s.respond v).freeCount = s.freeCount := rfl
@[simp] theorem respond_mem (v : Word) : (s.respond v).mem = s.mem := rfl
@[simp] theorem respond_rxq (v : Word) : (s.respond v).rxq = s.rxq := rfl
@[simp] theorem respond_txlog (v : Word) : (s.respond v).txlog = s.txlog := rfl
@[simp] theorem respond_txReady (v : Word) : (s.respond v).txReady = s.txReady := rfl
@[simp] theorem respond_nowMs (v : Word) : (s.respond v).nowMs = s.nowMs := rfl
@[simp] theorem respond_cmds (v : Word) : (s.respond v).cmds = s.cmds := rfl
@[simp] theorem respond_rspLog (v : Word) : (s.respond v).rspLog = s.rspLog := rfl
@[simp] theorem respond_sched (v : Word) : (s.respond v).sched = s.sched := rfl
@[simp] theorem respond_loop (v : Word) : (s.respond v).loop = s.loop := rfl
@[simp] theorem respond_params (v : Word) : (s.respond v).params = s.params := rfl

/-! A change of `ctl_state` (R26). -/

@[simp] theorem enterCtl_acc (c : CtlState) : (s.enterCtl c).acc = s.acc := rfl
@[simp] theorem enterCtl_index (c : CtlState) : (s.enterCtl c).index = s.index := rfl
@[simp] theorem enterCtl_started (c : CtlState) : (s.enterCtl c).started = s.started := rfl
@[simp] theorem enterCtl_matchFlag (c : CtlState) : (s.enterCtl c).matchFlag = s.matchFlag := rfl
@[simp] theorem enterCtl_ctl (c : CtlState) : (s.enterCtl c).ctl = c := rfl
@[simp] theorem enterCtl_hs (c : CtlState) : (s.enterCtl c).hs = s.hs := rfl
@[simp] theorem enterCtl_seg1Base (c : CtlState) : (s.enterCtl c).seg1Base = s.seg1Base := rfl
@[simp] theorem enterCtl_seg1Len (c : CtlState) : (s.enterCtl c).seg1Len = s.seg1Len := rfl
@[simp] theorem enterCtl_seg2Base (c : CtlState) : (s.enterCtl c).seg2Base = s.seg2Base := rfl
@[simp] theorem enterCtl_seg2Len (c : CtlState) : (s.enterCtl c).seg2Len = s.seg2Len := rfl
@[simp] theorem enterCtl_seg3Base (c : CtlState) : (s.enterCtl c).seg3Base = s.seg3Base := rfl
@[simp] theorem enterCtl_seg3Len (c : CtlState) : (s.enterCtl c).seg3Len = s.seg3Len := rfl
@[simp] theorem enterCtl_rxBase (c : CtlState) : (s.enterCtl c).rxBase = s.rxBase := rfl
@[simp] theorem enterCtl_rxCap (c : CtlState) : (s.enterCtl c).rxCap = s.rxCap := rfl
@[simp] theorem enterCtl_resultLen (c : CtlState) : (s.enterCtl c).resultLen = s.resultLen := rfl
@[simp] theorem enterCtl_txLen (c : CtlState) : (s.enterCtl c).txLen = s.txLen := rfl
@[simp] theorem enterCtl_hdrI (c : CtlState) : (s.enterCtl c).hdrI = s.hdrI := rfl
@[simp] theorem enterCtl_rxLen (c : CtlState) : (s.enterCtl c).rxLen = s.rxLen := rfl
@[simp] theorem enterCtl_rxCnt (c : CtlState) : (s.enterCtl c).rxCnt = s.rxCnt := rfl
@[simp] theorem enterCtl_candHi (c : CtlState) : (s.enterCtl c).candHi = s.candHi := rfl
@[simp] theorem enterCtl_t0 (c : CtlState) : (s.enterCtl c).t0 = s.t0 := rfl
@[simp] theorem enterCtl_hsReply (c : CtlState) : (s.enterCtl c).hsReply = s.hsReply := rfl
@[simp] theorem enterCtl_rsp (c : CtlState) : (s.enterCtl c).rsp = s.rsp := rfl
@[simp] theorem enterCtl_pos (c : CtlState) : (s.enterCtl c).pos = 0 := rfl
@[simp] theorem enterCtl_waiting (c : CtlState) : (s.enterCtl c).waiting = false := rfl
@[simp] theorem enterCtl_timedResult (c : CtlState) : (s.enterCtl c).timedResult = s.timedResult := rfl
@[simp] theorem enterCtl_freeCount (c : CtlState) : (s.enterCtl c).freeCount = s.freeCount := rfl
@[simp] theorem enterCtl_mem (c : CtlState) : (s.enterCtl c).mem = s.mem := rfl
@[simp] theorem enterCtl_rxq (c : CtlState) : (s.enterCtl c).rxq = s.rxq := rfl
@[simp] theorem enterCtl_txlog (c : CtlState) : (s.enterCtl c).txlog = s.txlog := rfl
@[simp] theorem enterCtl_txReady (c : CtlState) : (s.enterCtl c).txReady = s.txReady := rfl
@[simp] theorem enterCtl_nowMs (c : CtlState) : (s.enterCtl c).nowMs = s.nowMs := rfl
@[simp] theorem enterCtl_cmds (c : CtlState) : (s.enterCtl c).cmds = s.cmds := rfl
@[simp] theorem enterCtl_rspLog (c : CtlState) : (s.enterCtl c).rspLog = s.rspLog := rfl
@[simp] theorem enterCtl_sched (c : CtlState) : (s.enterCtl c).sched = s.sched := rfl
@[simp] theorem enterCtl_loop (c : CtlState) : (s.enterCtl c).loop = s.loop := rfl
@[simp] theorem enterCtl_params (c : CtlState) : (s.enterCtl c).params = s.params := rfl

/-! A change of `hs_state` (R27). -/

@[simp] theorem enterHs_acc (h : HsState) : (s.enterHs h).acc = s.acc := rfl
@[simp] theorem enterHs_index (h : HsState) : (s.enterHs h).index = s.index := rfl
@[simp] theorem enterHs_started (h : HsState) : (s.enterHs h).started = s.started := rfl
@[simp] theorem enterHs_matchFlag (h : HsState) : (s.enterHs h).matchFlag = s.matchFlag := rfl
@[simp] theorem enterHs_ctl (h : HsState) : (s.enterHs h).ctl = s.ctl := rfl
@[simp] theorem enterHs_hs (h : HsState) : (s.enterHs h).hs = h := rfl
@[simp] theorem enterHs_seg1Base (h : HsState) : (s.enterHs h).seg1Base = s.seg1Base := rfl
@[simp] theorem enterHs_seg1Len (h : HsState) : (s.enterHs h).seg1Len = s.seg1Len := rfl
@[simp] theorem enterHs_seg2Base (h : HsState) : (s.enterHs h).seg2Base = s.seg2Base := rfl
@[simp] theorem enterHs_seg2Len (h : HsState) : (s.enterHs h).seg2Len = s.seg2Len := rfl
@[simp] theorem enterHs_seg3Base (h : HsState) : (s.enterHs h).seg3Base = s.seg3Base := rfl
@[simp] theorem enterHs_seg3Len (h : HsState) : (s.enterHs h).seg3Len = s.seg3Len := rfl
@[simp] theorem enterHs_rxBase (h : HsState) : (s.enterHs h).rxBase = s.rxBase := rfl
@[simp] theorem enterHs_rxCap (h : HsState) : (s.enterHs h).rxCap = s.rxCap := rfl
@[simp] theorem enterHs_resultLen (h : HsState) : (s.enterHs h).resultLen = s.resultLen := rfl
@[simp] theorem enterHs_txLen (h : HsState) : (s.enterHs h).txLen = s.txLen := rfl
@[simp] theorem enterHs_hdrI (h : HsState) : (s.enterHs h).hdrI = s.hdrI := rfl
@[simp] theorem enterHs_rxLen (h : HsState) : (s.enterHs h).rxLen = s.rxLen := rfl
@[simp] theorem enterHs_rxCnt (h : HsState) : (s.enterHs h).rxCnt = s.rxCnt := rfl
@[simp] theorem enterHs_candHi (h : HsState) : (s.enterHs h).candHi = s.candHi := rfl
@[simp] theorem enterHs_t0 (h : HsState) : (s.enterHs h).t0 = s.t0 := rfl
@[simp] theorem enterHs_hsReply (h : HsState) : (s.enterHs h).hsReply = s.hsReply := rfl
@[simp] theorem enterHs_rsp (h : HsState) : (s.enterHs h).rsp = s.rsp := rfl
@[simp] theorem enterHs_pos (h : HsState) : (s.enterHs h).pos = 0 := rfl
@[simp] theorem enterHs_waiting (h : HsState) : (s.enterHs h).waiting = false := rfl
@[simp] theorem enterHs_timedResult (h : HsState) : (s.enterHs h).timedResult = s.timedResult := rfl
@[simp] theorem enterHs_freeCount (h : HsState) : (s.enterHs h).freeCount = s.freeCount := rfl
@[simp] theorem enterHs_mem (h : HsState) : (s.enterHs h).mem = s.mem := rfl
@[simp] theorem enterHs_rxq (h : HsState) : (s.enterHs h).rxq = s.rxq := rfl
@[simp] theorem enterHs_txlog (h : HsState) : (s.enterHs h).txlog = s.txlog := rfl
@[simp] theorem enterHs_txReady (h : HsState) : (s.enterHs h).txReady = s.txReady := rfl
@[simp] theorem enterHs_nowMs (h : HsState) : (s.enterHs h).nowMs = s.nowMs := rfl
@[simp] theorem enterHs_cmds (h : HsState) : (s.enterHs h).cmds = s.cmds := rfl
@[simp] theorem enterHs_rspLog (h : HsState) : (s.enterHs h).rspLog = s.rspLog := rfl
@[simp] theorem enterHs_sched (h : HsState) : (s.enterHs h).sched = s.sched := rfl
@[simp] theorem enterHs_loop (h : HsState) : (s.enterHs h).loop = s.loop := rfl
@[simp] theorem enterHs_params (h : HsState) : (s.enterHs h).params = s.params := rfl

/-! One more sub-step (log 9). -/

@[simp] theorem advance_acc : (s.advance).acc = s.acc := rfl
@[simp] theorem advance_index : (s.advance).index = s.index := rfl
@[simp] theorem advance_started : (s.advance).started = s.started := rfl
@[simp] theorem advance_matchFlag : (s.advance).matchFlag = s.matchFlag := rfl
@[simp] theorem advance_ctl : (s.advance).ctl = s.ctl := rfl
@[simp] theorem advance_hs : (s.advance).hs = s.hs := rfl
@[simp] theorem advance_seg1Base : (s.advance).seg1Base = s.seg1Base := rfl
@[simp] theorem advance_seg1Len : (s.advance).seg1Len = s.seg1Len := rfl
@[simp] theorem advance_seg2Base : (s.advance).seg2Base = s.seg2Base := rfl
@[simp] theorem advance_seg2Len : (s.advance).seg2Len = s.seg2Len := rfl
@[simp] theorem advance_seg3Base : (s.advance).seg3Base = s.seg3Base := rfl
@[simp] theorem advance_seg3Len : (s.advance).seg3Len = s.seg3Len := rfl
@[simp] theorem advance_rxBase : (s.advance).rxBase = s.rxBase := rfl
@[simp] theorem advance_rxCap : (s.advance).rxCap = s.rxCap := rfl
@[simp] theorem advance_resultLen : (s.advance).resultLen = s.resultLen := rfl
@[simp] theorem advance_txLen : (s.advance).txLen = s.txLen := rfl
@[simp] theorem advance_hdrI : (s.advance).hdrI = s.hdrI := rfl
@[simp] theorem advance_rxLen : (s.advance).rxLen = s.rxLen := rfl
@[simp] theorem advance_rxCnt : (s.advance).rxCnt = s.rxCnt := rfl
@[simp] theorem advance_candHi : (s.advance).candHi = s.candHi := rfl
@[simp] theorem advance_t0 : (s.advance).t0 = s.t0 := rfl
@[simp] theorem advance_hsReply : (s.advance).hsReply = s.hsReply := rfl
@[simp] theorem advance_rsp : (s.advance).rsp = s.rsp := rfl
@[simp] theorem advance_pos : (s.advance).pos = s.pos + 1 := rfl
@[simp] theorem advance_waiting : (s.advance).waiting = false := rfl
@[simp] theorem advance_timedResult : (s.advance).timedResult = s.timedResult := rfl
@[simp] theorem advance_freeCount : (s.advance).freeCount = s.freeCount := rfl
@[simp] theorem advance_mem : (s.advance).mem = s.mem := rfl
@[simp] theorem advance_rxq : (s.advance).rxq = s.rxq := rfl
@[simp] theorem advance_txlog : (s.advance).txlog = s.txlog := rfl
@[simp] theorem advance_txReady : (s.advance).txReady = s.txReady := rfl
@[simp] theorem advance_nowMs : (s.advance).nowMs = s.nowMs := rfl
@[simp] theorem advance_cmds : (s.advance).cmds = s.cmds := rfl
@[simp] theorem advance_rspLog : (s.advance).rspLog = s.rspLog := rfl
@[simp] theorem advance_sched : (s.advance).sched = s.sched := rfl
@[simp] theorem advance_loop : (s.advance).loop = s.loop := rfl
@[simp] theorem advance_params : (s.advance).params = s.params := rfl

/-! `raise LinkError` (R252). -/

@[simp] theorem raiseLinkError_acc (k : LinkCause) : (s.raiseLinkError k).acc = s.acc := rfl
@[simp] theorem raiseLinkError_index (k : LinkCause) : (s.raiseLinkError k).index = s.index := rfl
@[simp] theorem raiseLinkError_started (k : LinkCause) : (s.raiseLinkError k).started = s.started := rfl
@[simp] theorem raiseLinkError_matchFlag (k : LinkCause) : (s.raiseLinkError k).matchFlag = s.matchFlag := rfl
@[simp] theorem raiseLinkError_ctl (k : LinkCause) : (s.raiseLinkError k).ctl = .retrying := rfl
@[simp] theorem raiseLinkError_hs (k : LinkCause) : (s.raiseLinkError k).hs = s.hs := rfl
@[simp] theorem raiseLinkError_seg1Base (k : LinkCause) : (s.raiseLinkError k).seg1Base = s.seg1Base := rfl
@[simp] theorem raiseLinkError_seg1Len (k : LinkCause) : (s.raiseLinkError k).seg1Len = s.seg1Len := rfl
@[simp] theorem raiseLinkError_seg2Base (k : LinkCause) : (s.raiseLinkError k).seg2Base = s.seg2Base := rfl
@[simp] theorem raiseLinkError_seg2Len (k : LinkCause) : (s.raiseLinkError k).seg2Len = s.seg2Len := rfl
@[simp] theorem raiseLinkError_seg3Base (k : LinkCause) : (s.raiseLinkError k).seg3Base = s.seg3Base := rfl
@[simp] theorem raiseLinkError_seg3Len (k : LinkCause) : (s.raiseLinkError k).seg3Len = s.seg3Len := rfl
@[simp] theorem raiseLinkError_rxBase (k : LinkCause) : (s.raiseLinkError k).rxBase = s.rxBase := rfl
@[simp] theorem raiseLinkError_rxCap (k : LinkCause) : (s.raiseLinkError k).rxCap = s.rxCap := rfl
@[simp] theorem raiseLinkError_resultLen (k : LinkCause) : (s.raiseLinkError k).resultLen = s.resultLen := rfl
@[simp] theorem raiseLinkError_txLen (k : LinkCause) : (s.raiseLinkError k).txLen = s.txLen := rfl
@[simp] theorem raiseLinkError_hdrI (k : LinkCause) : (s.raiseLinkError k).hdrI = s.hdrI := rfl
@[simp] theorem raiseLinkError_rxLen (k : LinkCause) : (s.raiseLinkError k).rxLen = s.rxLen := rfl
@[simp] theorem raiseLinkError_rxCnt (k : LinkCause) : (s.raiseLinkError k).rxCnt = s.rxCnt := rfl
@[simp] theorem raiseLinkError_candHi (k : LinkCause) : (s.raiseLinkError k).candHi = s.candHi := rfl
@[simp] theorem raiseLinkError_t0 (k : LinkCause) : (s.raiseLinkError k).t0 = s.t0 := rfl
@[simp] theorem raiseLinkError_hsReply (k : LinkCause) : (s.raiseLinkError k).hsReply = s.hsReply := rfl
@[simp] theorem raiseLinkError_rsp (k : LinkCause) : (s.raiseLinkError k).rsp = s.rsp := rfl
@[simp] theorem raiseLinkError_pos (k : LinkCause) : (s.raiseLinkError k).pos = 0 := rfl
@[simp] theorem raiseLinkError_waiting (k : LinkCause) : (s.raiseLinkError k).waiting = false := rfl
@[simp] theorem raiseLinkError_timedResult (k : LinkCause) : (s.raiseLinkError k).timedResult = s.timedResult := rfl
@[simp] theorem raiseLinkError_freeCount (k : LinkCause) : (s.raiseLinkError k).freeCount = s.freeCount := rfl
@[simp] theorem raiseLinkError_mem (k : LinkCause) : (s.raiseLinkError k).mem = s.mem := rfl
@[simp] theorem raiseLinkError_rxq (k : LinkCause) : (s.raiseLinkError k).rxq = s.rxq := rfl
@[simp] theorem raiseLinkError_txlog (k : LinkCause) : (s.raiseLinkError k).txlog = s.txlog := rfl
@[simp] theorem raiseLinkError_txReady (k : LinkCause) : (s.raiseLinkError k).txReady = s.txReady := rfl
@[simp] theorem raiseLinkError_nowMs (k : LinkCause) : (s.raiseLinkError k).nowMs = s.nowMs := rfl
@[simp] theorem raiseLinkError_cmds (k : LinkCause) : (s.raiseLinkError k).cmds = s.cmds := rfl
@[simp] theorem raiseLinkError_rspLog (k : LinkCause) : (s.raiseLinkError k).rspLog = s.rspLog := rfl
@[simp] theorem raiseLinkError_sched (k : LinkCause) : (s.raiseLinkError k).sched = s.sched := rfl
@[simp] theorem raiseLinkError_loop (k : LinkCause) : (s.raiseLinkError k).loop = s.loop := rfl
@[simp] theorem raiseLinkError_params (k : LinkCause) : (s.raiseLinkError k).params = s.params := rfl

/-! The return from the retry path (R260). -/

@[simp] theorem retryReturn_acc : (s.retryReturn).acc = s.acc := rfl
@[simp] theorem retryReturn_index : (s.retryReturn).index = s.index := rfl
@[simp] theorem retryReturn_started : (s.retryReturn).started = s.started := rfl
@[simp] theorem retryReturn_matchFlag : (s.retryReturn).matchFlag = s.matchFlag := rfl
@[simp] theorem retryReturn_ctl : (s.retryReturn).ctl = .sending := rfl
@[simp] theorem retryReturn_hs : (s.retryReturn).hs = s.hs := rfl
@[simp] theorem retryReturn_seg1Base : (s.retryReturn).seg1Base = s.seg1Base := rfl
@[simp] theorem retryReturn_seg1Len : (s.retryReturn).seg1Len = s.seg1Len := rfl
@[simp] theorem retryReturn_seg2Base : (s.retryReturn).seg2Base = s.seg2Base := rfl
@[simp] theorem retryReturn_seg2Len : (s.retryReturn).seg2Len = s.seg2Len := rfl
@[simp] theorem retryReturn_seg3Base : (s.retryReturn).seg3Base = s.seg3Base := rfl
@[simp] theorem retryReturn_seg3Len : (s.retryReturn).seg3Len = s.seg3Len := rfl
@[simp] theorem retryReturn_rxBase : (s.retryReturn).rxBase = s.rxBase := rfl
@[simp] theorem retryReturn_rxCap : (s.retryReturn).rxCap = s.rxCap := rfl
@[simp] theorem retryReturn_resultLen : (s.retryReturn).resultLen = s.resultLen := rfl
@[simp] theorem retryReturn_txLen : (s.retryReturn).txLen = s.txLen := rfl
@[simp] theorem retryReturn_hdrI : (s.retryReturn).hdrI = s.hdrI := rfl
@[simp] theorem retryReturn_rxLen : (s.retryReturn).rxLen = s.rxLen := rfl
@[simp] theorem retryReturn_rxCnt : (s.retryReturn).rxCnt = s.rxCnt := rfl
@[simp] theorem retryReturn_candHi : (s.retryReturn).candHi = s.candHi := rfl
@[simp] theorem retryReturn_t0 : (s.retryReturn).t0 = s.t0 := rfl
@[simp] theorem retryReturn_hsReply : (s.retryReturn).hsReply = s.hsReply := rfl
@[simp] theorem retryReturn_rsp : (s.retryReturn).rsp = s.rsp := rfl
@[simp] theorem retryReturn_pos : (s.retryReturn).pos = 0 := rfl
@[simp] theorem retryReturn_waiting : (s.retryReturn).waiting = false := rfl
@[simp] theorem retryReturn_timedResult : (s.retryReturn).timedResult = s.timedResult := rfl
@[simp] theorem retryReturn_freeCount : (s.retryReturn).freeCount = s.freeCount := rfl
@[simp] theorem retryReturn_mem : (s.retryReturn).mem = s.mem := rfl
@[simp] theorem retryReturn_rxq : (s.retryReturn).rxq = s.rxq := rfl
@[simp] theorem retryReturn_txlog : (s.retryReturn).txlog = s.txlog := rfl
@[simp] theorem retryReturn_txReady : (s.retryReturn).txReady = s.txReady := rfl
@[simp] theorem retryReturn_nowMs : (s.retryReturn).nowMs = s.nowMs := rfl
@[simp] theorem retryReturn_cmds : (s.retryReturn).cmds = s.cmds := rfl
@[simp] theorem retryReturn_rspLog : (s.retryReturn).rspLog = s.rspLog := rfl
@[simp] theorem retryReturn_sched : (s.retryReturn).sched = s.sched := rfl
@[simp] theorem retryReturn_loop : (s.retryReturn).loop = s.loop := rfl
@[simp] theorem retryReturn_params : (s.retryReturn).params = s.params := rfl

/-! `raise Halt` (R258). -/

@[simp] theorem raiseHalt_acc : (s.raiseHalt).acc = s.acc := rfl
@[simp] theorem raiseHalt_index : (s.raiseHalt).index = s.index := rfl
@[simp] theorem raiseHalt_started : (s.raiseHalt).started = s.started := rfl
@[simp] theorem raiseHalt_matchFlag : (s.raiseHalt).matchFlag = s.matchFlag := rfl
@[simp] theorem raiseHalt_ctl : (s.raiseHalt).ctl = s.ctl := rfl
@[simp] theorem raiseHalt_hs : (s.raiseHalt).hs = .halted := rfl
@[simp] theorem raiseHalt_seg1Base : (s.raiseHalt).seg1Base = s.seg1Base := rfl
@[simp] theorem raiseHalt_seg1Len : (s.raiseHalt).seg1Len = s.seg1Len := rfl
@[simp] theorem raiseHalt_seg2Base : (s.raiseHalt).seg2Base = s.seg2Base := rfl
@[simp] theorem raiseHalt_seg2Len : (s.raiseHalt).seg2Len = s.seg2Len := rfl
@[simp] theorem raiseHalt_seg3Base : (s.raiseHalt).seg3Base = s.seg3Base := rfl
@[simp] theorem raiseHalt_seg3Len : (s.raiseHalt).seg3Len = s.seg3Len := rfl
@[simp] theorem raiseHalt_rxBase : (s.raiseHalt).rxBase = s.rxBase := rfl
@[simp] theorem raiseHalt_rxCap : (s.raiseHalt).rxCap = s.rxCap := rfl
@[simp] theorem raiseHalt_resultLen : (s.raiseHalt).resultLen = s.resultLen := rfl
@[simp] theorem raiseHalt_txLen : (s.raiseHalt).txLen = s.txLen := rfl
@[simp] theorem raiseHalt_hdrI : (s.raiseHalt).hdrI = s.hdrI := rfl
@[simp] theorem raiseHalt_rxLen : (s.raiseHalt).rxLen = s.rxLen := rfl
@[simp] theorem raiseHalt_rxCnt : (s.raiseHalt).rxCnt = s.rxCnt := rfl
@[simp] theorem raiseHalt_candHi : (s.raiseHalt).candHi = s.candHi := rfl
@[simp] theorem raiseHalt_t0 : (s.raiseHalt).t0 = s.t0 := rfl
@[simp] theorem raiseHalt_hsReply : (s.raiseHalt).hsReply = s.hsReply := rfl
@[simp] theorem raiseHalt_rsp : (s.raiseHalt).rsp = s.rsp := rfl
@[simp] theorem raiseHalt_pos : (s.raiseHalt).pos = 0 := rfl
@[simp] theorem raiseHalt_waiting : (s.raiseHalt).waiting = false := rfl
@[simp] theorem raiseHalt_timedResult : (s.raiseHalt).timedResult = s.timedResult := rfl
@[simp] theorem raiseHalt_freeCount : (s.raiseHalt).freeCount = s.freeCount := rfl
@[simp] theorem raiseHalt_mem : (s.raiseHalt).mem = s.mem := rfl
@[simp] theorem raiseHalt_rxq : (s.raiseHalt).rxq = s.rxq := rfl
@[simp] theorem raiseHalt_txlog : (s.raiseHalt).txlog = s.txlog := rfl
@[simp] theorem raiseHalt_txReady : (s.raiseHalt).txReady = s.txReady := rfl
@[simp] theorem raiseHalt_nowMs : (s.raiseHalt).nowMs = s.nowMs := rfl
@[simp] theorem raiseHalt_cmds : (s.raiseHalt).cmds = s.cmds := rfl
@[simp] theorem raiseHalt_rspLog : (s.raiseHalt).rspLog = s.rspLog := rfl
@[simp] theorem raiseHalt_sched : (s.raiseHalt).sched = s.sched := rfl
@[simp] theorem raiseHalt_loop : (s.raiseHalt).loop = s.loop := rfl
@[simp] theorem raiseHalt_params : (s.raiseHalt).params = s.params := rfl

/-! `Write` (R58). -/

@[simp] theorem write_acc (b : Byte) : (s.write b).acc = s.acc := rfl
@[simp] theorem write_index (b : Byte) : (s.write b).index = s.index := rfl
@[simp] theorem write_started (b : Byte) : (s.write b).started = s.started := rfl
@[simp] theorem write_matchFlag (b : Byte) : (s.write b).matchFlag = s.matchFlag := rfl
@[simp] theorem write_ctl (b : Byte) : (s.write b).ctl = s.ctl := rfl
@[simp] theorem write_hs (b : Byte) : (s.write b).hs = s.hs := rfl
@[simp] theorem write_seg1Base (b : Byte) : (s.write b).seg1Base = s.seg1Base := rfl
@[simp] theorem write_seg1Len (b : Byte) : (s.write b).seg1Len = s.seg1Len := rfl
@[simp] theorem write_seg2Base (b : Byte) : (s.write b).seg2Base = s.seg2Base := rfl
@[simp] theorem write_seg2Len (b : Byte) : (s.write b).seg2Len = s.seg2Len := rfl
@[simp] theorem write_seg3Base (b : Byte) : (s.write b).seg3Base = s.seg3Base := rfl
@[simp] theorem write_seg3Len (b : Byte) : (s.write b).seg3Len = s.seg3Len := rfl
@[simp] theorem write_rxBase (b : Byte) : (s.write b).rxBase = s.rxBase := rfl
@[simp] theorem write_rxCap (b : Byte) : (s.write b).rxCap = s.rxCap := rfl
@[simp] theorem write_resultLen (b : Byte) : (s.write b).resultLen = s.resultLen := rfl
@[simp] theorem write_txLen (b : Byte) : (s.write b).txLen = s.txLen := rfl
@[simp] theorem write_hdrI (b : Byte) : (s.write b).hdrI = s.hdrI := rfl
@[simp] theorem write_rxLen (b : Byte) : (s.write b).rxLen = s.rxLen := rfl
@[simp] theorem write_rxCnt (b : Byte) : (s.write b).rxCnt = s.rxCnt := rfl
@[simp] theorem write_candHi (b : Byte) : (s.write b).candHi = s.candHi := rfl
@[simp] theorem write_t0 (b : Byte) : (s.write b).t0 = s.t0 := rfl
@[simp] theorem write_hsReply (b : Byte) : (s.write b).hsReply = s.hsReply := rfl
@[simp] theorem write_rsp (b : Byte) : (s.write b).rsp = s.rsp := rfl
@[simp] theorem write_pos (b : Byte) : (s.write b).pos = s.pos := rfl
@[simp] theorem write_waiting (b : Byte) : (s.write b).waiting = s.waiting := rfl
@[simp] theorem write_timedResult (b : Byte) : (s.write b).timedResult = s.timedResult := rfl
@[simp] theorem write_freeCount (b : Byte) : (s.write b).freeCount = s.freeCount := rfl
@[simp] theorem write_mem (b : Byte) : (s.write b).mem = s.mem := rfl
@[simp] theorem write_rxq (b : Byte) : (s.write b).rxq = s.rxq := rfl
@[simp] theorem write_txlog (b : Byte) : (s.write b).txlog = s.txlog ++ [b] := rfl
@[simp] theorem write_txReady (b : Byte) : (s.write b).txReady = s.txReady := rfl
@[simp] theorem write_nowMs (b : Byte) : (s.write b).nowMs = s.nowMs := rfl
@[simp] theorem write_cmds (b : Byte) : (s.write b).cmds = s.cmds := rfl
@[simp] theorem write_rspLog (b : Byte) : (s.write b).rspLog = s.rspLog := rfl
@[simp] theorem write_sched (b : Byte) : (s.write b).sched = s.sched := rfl
@[simp] theorem write_loop (b : Byte) : (s.write b).loop = s.loop := rfl
@[simp] theorem write_params (b : Byte) : (s.write b).params = s.params := rfl

/-! A fold into the accumulator (R110). -/

@[simp] theorem fold_acc (b : Byte) : (s.fold b).acc = ckUpdate s.acc b := rfl
@[simp] theorem fold_index (b : Byte) : (s.fold b).index = s.index := rfl
@[simp] theorem fold_started (b : Byte) : (s.fold b).started = s.started := rfl
@[simp] theorem fold_matchFlag (b : Byte) : (s.fold b).matchFlag = s.matchFlag := rfl
@[simp] theorem fold_ctl (b : Byte) : (s.fold b).ctl = s.ctl := rfl
@[simp] theorem fold_hs (b : Byte) : (s.fold b).hs = s.hs := rfl
@[simp] theorem fold_seg1Base (b : Byte) : (s.fold b).seg1Base = s.seg1Base := rfl
@[simp] theorem fold_seg1Len (b : Byte) : (s.fold b).seg1Len = s.seg1Len := rfl
@[simp] theorem fold_seg2Base (b : Byte) : (s.fold b).seg2Base = s.seg2Base := rfl
@[simp] theorem fold_seg2Len (b : Byte) : (s.fold b).seg2Len = s.seg2Len := rfl
@[simp] theorem fold_seg3Base (b : Byte) : (s.fold b).seg3Base = s.seg3Base := rfl
@[simp] theorem fold_seg3Len (b : Byte) : (s.fold b).seg3Len = s.seg3Len := rfl
@[simp] theorem fold_rxBase (b : Byte) : (s.fold b).rxBase = s.rxBase := rfl
@[simp] theorem fold_rxCap (b : Byte) : (s.fold b).rxCap = s.rxCap := rfl
@[simp] theorem fold_resultLen (b : Byte) : (s.fold b).resultLen = s.resultLen := rfl
@[simp] theorem fold_txLen (b : Byte) : (s.fold b).txLen = s.txLen := rfl
@[simp] theorem fold_hdrI (b : Byte) : (s.fold b).hdrI = s.hdrI := rfl
@[simp] theorem fold_rxLen (b : Byte) : (s.fold b).rxLen = s.rxLen := rfl
@[simp] theorem fold_rxCnt (b : Byte) : (s.fold b).rxCnt = s.rxCnt := rfl
@[simp] theorem fold_candHi (b : Byte) : (s.fold b).candHi = s.candHi := rfl
@[simp] theorem fold_t0 (b : Byte) : (s.fold b).t0 = s.t0 := rfl
@[simp] theorem fold_hsReply (b : Byte) : (s.fold b).hsReply = s.hsReply := rfl
@[simp] theorem fold_rsp (b : Byte) : (s.fold b).rsp = s.rsp := rfl
@[simp] theorem fold_pos (b : Byte) : (s.fold b).pos = s.pos := rfl
@[simp] theorem fold_waiting (b : Byte) : (s.fold b).waiting = s.waiting := rfl
@[simp] theorem fold_timedResult (b : Byte) : (s.fold b).timedResult = s.timedResult := rfl
@[simp] theorem fold_freeCount (b : Byte) : (s.fold b).freeCount = s.freeCount := rfl
@[simp] theorem fold_mem (b : Byte) : (s.fold b).mem = s.mem := rfl
@[simp] theorem fold_rxq (b : Byte) : (s.fold b).rxq = s.rxq := rfl
@[simp] theorem fold_txlog (b : Byte) : (s.fold b).txlog = s.txlog := rfl
@[simp] theorem fold_txReady (b : Byte) : (s.fold b).txReady = s.txReady := rfl
@[simp] theorem fold_nowMs (b : Byte) : (s.fold b).nowMs = s.nowMs := rfl
@[simp] theorem fold_cmds (b : Byte) : (s.fold b).cmds = s.cmds := rfl
@[simp] theorem fold_rspLog (b : Byte) : (s.fold b).rspLog = s.rspLog := rfl
@[simp] theorem fold_sched (b : Byte) : (s.fold b).sched = s.sched := rfl
@[simp] theorem fold_loop (b : Byte) : (s.fold b).loop = s.loop := rfl
@[simp] theorem fold_params (b : Byte) : (s.fold b).params = s.params := rfl

/-! `Emit` (R134). -/

@[simp] theorem emitByte_acc (b : Byte) : (s.emitByte b).acc = ckUpdate s.acc b := rfl
@[simp] theorem emitByte_index (b : Byte) : (s.emitByte b).index = s.index := rfl
@[simp] theorem emitByte_started (b : Byte) : (s.emitByte b).started = s.started := rfl
@[simp] theorem emitByte_matchFlag (b : Byte) : (s.emitByte b).matchFlag = s.matchFlag := rfl
@[simp] theorem emitByte_ctl (b : Byte) : (s.emitByte b).ctl = s.ctl := rfl
@[simp] theorem emitByte_hs (b : Byte) : (s.emitByte b).hs = s.hs := rfl
@[simp] theorem emitByte_seg1Base (b : Byte) : (s.emitByte b).seg1Base = s.seg1Base := rfl
@[simp] theorem emitByte_seg1Len (b : Byte) : (s.emitByte b).seg1Len = s.seg1Len := rfl
@[simp] theorem emitByte_seg2Base (b : Byte) : (s.emitByte b).seg2Base = s.seg2Base := rfl
@[simp] theorem emitByte_seg2Len (b : Byte) : (s.emitByte b).seg2Len = s.seg2Len := rfl
@[simp] theorem emitByte_seg3Base (b : Byte) : (s.emitByte b).seg3Base = s.seg3Base := rfl
@[simp] theorem emitByte_seg3Len (b : Byte) : (s.emitByte b).seg3Len = s.seg3Len := rfl
@[simp] theorem emitByte_rxBase (b : Byte) : (s.emitByte b).rxBase = s.rxBase := rfl
@[simp] theorem emitByte_rxCap (b : Byte) : (s.emitByte b).rxCap = s.rxCap := rfl
@[simp] theorem emitByte_resultLen (b : Byte) : (s.emitByte b).resultLen = s.resultLen := rfl
@[simp] theorem emitByte_txLen (b : Byte) : (s.emitByte b).txLen = s.txLen := rfl
@[simp] theorem emitByte_hdrI (b : Byte) : (s.emitByte b).hdrI = s.hdrI := rfl
@[simp] theorem emitByte_rxLen (b : Byte) : (s.emitByte b).rxLen = s.rxLen := rfl
@[simp] theorem emitByte_rxCnt (b : Byte) : (s.emitByte b).rxCnt = s.rxCnt := rfl
@[simp] theorem emitByte_candHi (b : Byte) : (s.emitByte b).candHi = s.candHi := rfl
@[simp] theorem emitByte_t0 (b : Byte) : (s.emitByte b).t0 = s.t0 := rfl
@[simp] theorem emitByte_hsReply (b : Byte) : (s.emitByte b).hsReply = s.hsReply := rfl
@[simp] theorem emitByte_rsp (b : Byte) : (s.emitByte b).rsp = s.rsp := rfl
@[simp] theorem emitByte_pos (b : Byte) : (s.emitByte b).pos = s.pos := rfl
@[simp] theorem emitByte_waiting (b : Byte) : (s.emitByte b).waiting = s.waiting := rfl
@[simp] theorem emitByte_timedResult (b : Byte) : (s.emitByte b).timedResult = s.timedResult := rfl
@[simp] theorem emitByte_freeCount (b : Byte) : (s.emitByte b).freeCount = s.freeCount := rfl
@[simp] theorem emitByte_mem (b : Byte) : (s.emitByte b).mem = s.mem := rfl
@[simp] theorem emitByte_rxq (b : Byte) : (s.emitByte b).rxq = s.rxq := rfl
@[simp] theorem emitByte_txlog (b : Byte) : (s.emitByte b).txlog = s.txlog ++ [b] := rfl
@[simp] theorem emitByte_txReady (b : Byte) : (s.emitByte b).txReady = s.txReady := rfl
@[simp] theorem emitByte_nowMs (b : Byte) : (s.emitByte b).nowMs = s.nowMs := rfl
@[simp] theorem emitByte_cmds (b : Byte) : (s.emitByte b).cmds = s.cmds := rfl
@[simp] theorem emitByte_rspLog (b : Byte) : (s.emitByte b).rspLog = s.rspLog := rfl
@[simp] theorem emitByte_sched (b : Byte) : (s.emitByte b).sched = s.sched := rfl
@[simp] theorem emitByte_loop (b : Byte) : (s.emitByte b).loop = s.loop := rfl
@[simp] theorem emitByte_params (b : Byte) : (s.emitByte b).params = s.params := rfl

/-! The start of a frame (R135). -/

@[simp] theorem beginFrame_acc : (s.beginFrame).acc = Config.seed := rfl
@[simp] theorem beginFrame_index : (s.beginFrame).index = s.index := rfl
@[simp] theorem beginFrame_started : (s.beginFrame).started = s.started := rfl
@[simp] theorem beginFrame_matchFlag : (s.beginFrame).matchFlag = s.matchFlag := rfl
@[simp] theorem beginFrame_ctl : (s.beginFrame).ctl = s.ctl := rfl
@[simp] theorem beginFrame_hs : (s.beginFrame).hs = s.hs := rfl
@[simp] theorem beginFrame_seg1Base : (s.beginFrame).seg1Base = s.seg1Base := rfl
@[simp] theorem beginFrame_seg1Len : (s.beginFrame).seg1Len = s.seg1Len := rfl
@[simp] theorem beginFrame_seg2Base : (s.beginFrame).seg2Base = s.seg2Base := rfl
@[simp] theorem beginFrame_seg2Len : (s.beginFrame).seg2Len = s.seg2Len := rfl
@[simp] theorem beginFrame_seg3Base : (s.beginFrame).seg3Base = s.seg3Base := rfl
@[simp] theorem beginFrame_seg3Len : (s.beginFrame).seg3Len = s.seg3Len := rfl
@[simp] theorem beginFrame_rxBase : (s.beginFrame).rxBase = s.rxBase := rfl
@[simp] theorem beginFrame_rxCap : (s.beginFrame).rxCap = s.rxCap := rfl
@[simp] theorem beginFrame_resultLen : (s.beginFrame).resultLen = s.resultLen := rfl
@[simp] theorem beginFrame_txLen : (s.beginFrame).txLen = BitVec.ofNat 16 s.activeLen := rfl
@[simp] theorem beginFrame_hdrI : (s.beginFrame).hdrI = s.hdrI := rfl
@[simp] theorem beginFrame_rxLen : (s.beginFrame).rxLen = s.rxLen := rfl
@[simp] theorem beginFrame_rxCnt : (s.beginFrame).rxCnt = s.rxCnt := rfl
@[simp] theorem beginFrame_candHi : (s.beginFrame).candHi = s.candHi := rfl
@[simp] theorem beginFrame_t0 : (s.beginFrame).t0 = s.t0 := rfl
@[simp] theorem beginFrame_hsReply : (s.beginFrame).hsReply = s.hsReply := rfl
@[simp] theorem beginFrame_rsp : (s.beginFrame).rsp = s.rsp := rfl
@[simp] theorem beginFrame_pos : (s.beginFrame).pos = s.pos := rfl
@[simp] theorem beginFrame_waiting : (s.beginFrame).waiting = s.waiting := rfl
@[simp] theorem beginFrame_timedResult : (s.beginFrame).timedResult = s.timedResult := rfl
@[simp] theorem beginFrame_freeCount : (s.beginFrame).freeCount = s.freeCount := rfl
@[simp] theorem beginFrame_mem : (s.beginFrame).mem = s.mem := rfl
@[simp] theorem beginFrame_rxq : (s.beginFrame).rxq = s.rxq := rfl
@[simp] theorem beginFrame_txlog : (s.beginFrame).txlog = s.txlog := rfl
@[simp] theorem beginFrame_txReady : (s.beginFrame).txReady = s.txReady := rfl
@[simp] theorem beginFrame_nowMs : (s.beginFrame).nowMs = s.nowMs := rfl
@[simp] theorem beginFrame_cmds : (s.beginFrame).cmds = s.cmds := rfl
@[simp] theorem beginFrame_rspLog : (s.beginFrame).rspLog = s.rspLog := rfl
@[simp] theorem beginFrame_sched : (s.beginFrame).sched = s.sched := rfl
@[simp] theorem beginFrame_loop : (s.beginFrame).loop = s.loop := rfl
@[simp] theorem beginFrame_params : (s.beginFrame).params = s.params := rfl

/-! The marker has been read (R138). -/

@[simp] theorem markerSeen_acc : (s.markerSeen).acc = ckUpdate Config.seed Config.startMarker := rfl
@[simp] theorem markerSeen_index : (s.markerSeen).index = s.index := rfl
@[simp] theorem markerSeen_started : (s.markerSeen).started = s.started := rfl
@[simp] theorem markerSeen_matchFlag : (s.markerSeen).matchFlag = s.matchFlag := rfl
@[simp] theorem markerSeen_ctl : (s.markerSeen).ctl = .receivingHeader := rfl
@[simp] theorem markerSeen_hs : (s.markerSeen).hs = s.hs := rfl
@[simp] theorem markerSeen_seg1Base : (s.markerSeen).seg1Base = s.seg1Base := rfl
@[simp] theorem markerSeen_seg1Len : (s.markerSeen).seg1Len = s.seg1Len := rfl
@[simp] theorem markerSeen_seg2Base : (s.markerSeen).seg2Base = s.seg2Base := rfl
@[simp] theorem markerSeen_seg2Len : (s.markerSeen).seg2Len = s.seg2Len := rfl
@[simp] theorem markerSeen_seg3Base : (s.markerSeen).seg3Base = s.seg3Base := rfl
@[simp] theorem markerSeen_seg3Len : (s.markerSeen).seg3Len = s.seg3Len := rfl
@[simp] theorem markerSeen_rxBase : (s.markerSeen).rxBase = s.rxBase := rfl
@[simp] theorem markerSeen_rxCap : (s.markerSeen).rxCap = s.rxCap := rfl
@[simp] theorem markerSeen_resultLen : (s.markerSeen).resultLen = s.resultLen := rfl
@[simp] theorem markerSeen_txLen : (s.markerSeen).txLen = s.txLen := rfl
@[simp] theorem markerSeen_hdrI : (s.markerSeen).hdrI = 0 := rfl
@[simp] theorem markerSeen_rxLen : (s.markerSeen).rxLen = s.rxLen := rfl
@[simp] theorem markerSeen_rxCnt : (s.markerSeen).rxCnt = s.rxCnt := rfl
@[simp] theorem markerSeen_candHi : (s.markerSeen).candHi = s.candHi := rfl
@[simp] theorem markerSeen_t0 : (s.markerSeen).t0 = s.t0 := rfl
@[simp] theorem markerSeen_hsReply : (s.markerSeen).hsReply = s.hsReply := rfl
@[simp] theorem markerSeen_rsp : (s.markerSeen).rsp = s.rsp := rfl
@[simp] theorem markerSeen_pos : (s.markerSeen).pos = 0 := rfl
@[simp] theorem markerSeen_waiting : (s.markerSeen).waiting = false := rfl
@[simp] theorem markerSeen_timedResult : (s.markerSeen).timedResult = s.timedResult := rfl
@[simp] theorem markerSeen_freeCount : (s.markerSeen).freeCount = s.freeCount := rfl
@[simp] theorem markerSeen_mem : (s.markerSeen).mem = s.mem := rfl
@[simp] theorem markerSeen_rxq : (s.markerSeen).rxq = s.rxq := rfl
@[simp] theorem markerSeen_txlog : (s.markerSeen).txlog = s.txlog := rfl
@[simp] theorem markerSeen_txReady : (s.markerSeen).txReady = s.txReady := rfl
@[simp] theorem markerSeen_nowMs : (s.markerSeen).nowMs = s.nowMs := rfl
@[simp] theorem markerSeen_cmds : (s.markerSeen).cmds = s.cmds := rfl
@[simp] theorem markerSeen_rspLog : (s.markerSeen).rspLog = s.rspLog := rfl
@[simp] theorem markerSeen_sched : (s.markerSeen).sched = s.sched := rfl
@[simp] theorem markerSeen_loop : (s.markerSeen).loop = s.loop := rfl
@[simp] theorem markerSeen_params : (s.markerSeen).params = s.params := rfl

/-! The host places bytes (R235). -/

@[simp] theorem place_acc (a : Word) (bytes : List Byte) : (s.place a bytes).acc = s.acc := rfl
@[simp] theorem place_index (a : Word) (bytes : List Byte) : (s.place a bytes).index = s.index := rfl
@[simp] theorem place_started (a : Word) (bytes : List Byte) : (s.place a bytes).started = s.started := rfl
@[simp] theorem place_matchFlag (a : Word) (bytes : List Byte) : (s.place a bytes).matchFlag = s.matchFlag := rfl
@[simp] theorem place_ctl (a : Word) (bytes : List Byte) : (s.place a bytes).ctl = s.ctl := rfl
@[simp] theorem place_hs (a : Word) (bytes : List Byte) : (s.place a bytes).hs = s.hs := rfl
@[simp] theorem place_seg1Base (a : Word) (bytes : List Byte) : (s.place a bytes).seg1Base = s.seg1Base := rfl
@[simp] theorem place_seg1Len (a : Word) (bytes : List Byte) : (s.place a bytes).seg1Len = s.seg1Len := rfl
@[simp] theorem place_seg2Base (a : Word) (bytes : List Byte) : (s.place a bytes).seg2Base = s.seg2Base := rfl
@[simp] theorem place_seg2Len (a : Word) (bytes : List Byte) : (s.place a bytes).seg2Len = s.seg2Len := rfl
@[simp] theorem place_seg3Base (a : Word) (bytes : List Byte) : (s.place a bytes).seg3Base = s.seg3Base := rfl
@[simp] theorem place_seg3Len (a : Word) (bytes : List Byte) : (s.place a bytes).seg3Len = s.seg3Len := rfl
@[simp] theorem place_rxBase (a : Word) (bytes : List Byte) : (s.place a bytes).rxBase = s.rxBase := rfl
@[simp] theorem place_rxCap (a : Word) (bytes : List Byte) : (s.place a bytes).rxCap = s.rxCap := rfl
@[simp] theorem place_resultLen (a : Word) (bytes : List Byte) : (s.place a bytes).resultLen = s.resultLen := rfl
@[simp] theorem place_txLen (a : Word) (bytes : List Byte) : (s.place a bytes).txLen = s.txLen := rfl
@[simp] theorem place_hdrI (a : Word) (bytes : List Byte) : (s.place a bytes).hdrI = s.hdrI := rfl
@[simp] theorem place_rxLen (a : Word) (bytes : List Byte) : (s.place a bytes).rxLen = s.rxLen := rfl
@[simp] theorem place_rxCnt (a : Word) (bytes : List Byte) : (s.place a bytes).rxCnt = s.rxCnt := rfl
@[simp] theorem place_candHi (a : Word) (bytes : List Byte) : (s.place a bytes).candHi = s.candHi := rfl
@[simp] theorem place_t0 (a : Word) (bytes : List Byte) : (s.place a bytes).t0 = s.t0 := rfl
@[simp] theorem place_hsReply (a : Word) (bytes : List Byte) : (s.place a bytes).hsReply = s.hsReply := rfl
@[simp] theorem place_rsp (a : Word) (bytes : List Byte) : (s.place a bytes).rsp = s.rsp := rfl
@[simp] theorem place_pos (a : Word) (bytes : List Byte) : (s.place a bytes).pos = s.pos := rfl
@[simp] theorem place_waiting (a : Word) (bytes : List Byte) : (s.place a bytes).waiting = s.waiting := rfl
@[simp] theorem place_timedResult (a : Word) (bytes : List Byte) : (s.place a bytes).timedResult = s.timedResult := rfl
@[simp] theorem place_freeCount (a : Word) (bytes : List Byte) : (s.place a bytes).freeCount = s.freeCount := rfl
@[simp] theorem place_mem (a : Word) (bytes : List Byte) : (s.place a bytes).mem = Memory.setRange s.mem a.toNat bytes := rfl
@[simp] theorem place_rxq (a : Word) (bytes : List Byte) : (s.place a bytes).rxq = s.rxq := rfl
@[simp] theorem place_txlog (a : Word) (bytes : List Byte) : (s.place a bytes).txlog = s.txlog := rfl
@[simp] theorem place_txReady (a : Word) (bytes : List Byte) : (s.place a bytes).txReady = s.txReady := rfl
@[simp] theorem place_nowMs (a : Word) (bytes : List Byte) : (s.place a bytes).nowMs = s.nowMs := rfl
@[simp] theorem place_cmds (a : Word) (bytes : List Byte) : (s.place a bytes).cmds = s.cmds := rfl
@[simp] theorem place_rspLog (a : Word) (bytes : List Byte) : (s.place a bytes).rspLog = s.rspLog := rfl
@[simp] theorem place_sched (a : Word) (bytes : List Byte) : (s.place a bytes).sched = s.sched := rfl
@[simp] theorem place_loop (a : Word) (bytes : List Byte) : (s.place a bytes).loop = s.loop := rfl
@[simp] theorem place_params (a : Word) (bytes : List Byte) : (s.place a bytes).params = s.params := rfl

/-! Hardware reset (R43, R280, R282). -/

@[simp] theorem hwReset_acc : s.hwReset.acc = Config.seed := rfl
@[simp] theorem hwReset_index : s.hwReset.index = 0 := rfl
@[simp] theorem hwReset_started : s.hwReset.started = false := rfl
@[simp] theorem hwReset_matchFlag : s.hwReset.matchFlag = false := rfl
@[simp] theorem hwReset_ctl : s.hwReset.ctl = .idle := rfl
@[simp] theorem hwReset_hs : s.hwReset.hs = .idle := rfl
@[simp] theorem hwReset_seg1Base : s.hwReset.seg1Base = 0 := rfl
@[simp] theorem hwReset_seg1Len : s.hwReset.seg1Len = 0 := rfl
@[simp] theorem hwReset_seg2Base : s.hwReset.seg2Base = 0 := rfl
@[simp] theorem hwReset_seg2Len : s.hwReset.seg2Len = 0 := rfl
@[simp] theorem hwReset_seg3Base : s.hwReset.seg3Base = 0 := rfl
@[simp] theorem hwReset_seg3Len : s.hwReset.seg3Len = 0 := rfl
@[simp] theorem hwReset_rxBase : s.hwReset.rxBase = 0 := rfl
@[simp] theorem hwReset_rxCap : s.hwReset.rxCap = 0 := rfl
@[simp] theorem hwReset_resultLen : s.hwReset.resultLen = 0 := rfl
@[simp] theorem hwReset_txLen : s.hwReset.txLen = 0 := rfl
@[simp] theorem hwReset_hdrI : s.hwReset.hdrI = 0 := rfl
@[simp] theorem hwReset_rxLen : s.hwReset.rxLen = 0 := rfl
@[simp] theorem hwReset_rxCnt : s.hwReset.rxCnt = 0 := rfl
@[simp] theorem hwReset_candHi : s.hwReset.candHi = 0 := rfl
@[simp] theorem hwReset_t0 : s.hwReset.t0 = 0 := rfl
@[simp] theorem hwReset_hsReply : s.hwReset.hsReply = 0 := rfl
@[simp] theorem hwReset_rsp : s.hwReset.rsp = none := rfl
@[simp] theorem hwReset_pos : s.hwReset.pos = 0 := rfl
@[simp] theorem hwReset_waiting : s.hwReset.waiting = false := rfl
@[simp] theorem hwReset_timedResult : s.hwReset.timedResult = .pending := rfl
@[simp] theorem hwReset_freeCount : s.hwReset.freeCount = s.freeCount := rfl
@[simp] theorem hwReset_mem : s.hwReset.mem = s.mem := rfl
@[simp] theorem hwReset_rxq : s.hwReset.rxq = s.rxq := rfl
@[simp] theorem hwReset_txlog : s.hwReset.txlog = s.txlog := rfl
@[simp] theorem hwReset_txReady : s.hwReset.txReady = s.txReady := rfl
@[simp] theorem hwReset_nowMs : s.hwReset.nowMs = s.nowMs := rfl
@[simp] theorem hwReset_cmds : s.hwReset.cmds = s.cmds := rfl
@[simp] theorem hwReset_rspLog : s.hwReset.rspLog = s.rspLog := rfl
@[simp] theorem hwReset_sched : s.hwReset.sched = s.sched := rfl
@[simp] theorem hwReset_loop : s.hwReset.loop = s.loop := rfl
@[simp] theorem hwReset_params : s.hwReset.params = s.params := rfl

end Sys2Proof.Machine
end

