-- ==== Sys2Proof/Laws/Ops.lean ====
section
/-! SUPPORT. What each shared operation can do, said once. -/

namespace Sys2Proof.Machine

@[simp] theorem andThen_next (s : State) (f : State → Answer) : andThen (.next s) f = f s := rfl

/-- A chained answer is a next state only through a next state. -/
theorem andThen_eq_next {o : Answer} {f : State → Answer} {t : State} (h : andThen o f = .next t) :
    ∃ s, o = .next s ∧ f s = .next t := by
  cases o with
  | next s => exact ⟨s, rfl, h⟩
  | fault r => cases h
  | refused r => cases h

/-- Every byte of a run that fits is inside the memory (R53). -/
theorem fitsAt_lt {base : Word} {len k : Nat} (h : fitsAt base len = true) (hk : k < len) : base.toNat + k < Config.memSize := by
  unfold fitsAt at h
  rcases Bool.or_eq_true_iff.mp h with h | h
  · have := beq_iff_eq.mp h; omega
  · have := of_decide_eq_true h; omega

/-- With no response pending there is nothing to deliver. -/
theorem deliver_none {s : State} (h : s.rsp = none) : s.deliver = s := by
  simp [State.deliver, h]

/-- A pending response reaches the host, and only `rsp` and `rspLog` change. -/
theorem deliver_some {s : State} {v : Word} (h : s.rsp = some v) :
    s.deliver = { s with rsp := none, rspLog := s.rspLog ++ [v] } := by
  simp [State.deliver, h]

/-- A store answers a next state only inside the memory, and changes one byte of it. -/
theorem memWrite_eq_next {s t : State} {a : Nat} {b : Byte} (h : s.memWrite a b = .next t) :
    a < Config.memSize ∧ t = { s with mem := Memory.set s.mem a b } := by
  unfold State.memWrite at h
  split at h
  · next ha => cases h; exact ⟨ha, rfl⟩
  · cases h

theorem memWrite_of_lt {s : State} {a : Nat} (b : Byte) (h : a < Config.memSize) :
    s.memWrite a b = .next { s with mem := Memory.set s.mem a b } := by
  simp [State.memWrite, h]

theorem withMemByte_of_lt {s : State} {a : Nat} (k : Byte → Answer) (h : a < Config.memSize) :
    s.withMemByte a k = k (Memory.get s.mem a) := by
  simp [State.withMemByte, h]

/-- A load goes on to a next state only inside the memory. -/
theorem withMemByte_eq_next {s t : State} {a : Nat} {k : Byte → Answer} (h : s.withMemByte a k = .next t) :
    a < Config.memSize ∧ k (Memory.get s.mem a) = .next t := by
  unfold State.withMemByte at h
  split at h
  · next ha => exact ⟨ha, h⟩
  · cases h

theorem withResetByte_eq_next {k : Nat} {f : Byte → Answer} {t : State} (h : withResetByte k f = .next t) :
    ∃ b, Config.hsResetCmd[k]? = some b ∧ f b = .next t := by
  unfold withResetByte at h
  split at h
  · next b hb => exact ⟨b, hb, h⟩
  · cases h

@[simp] theorem whenTxReady_ready {s : State} (f : State → State) (h : s.txReady = true) : s.whenTxReady f = f s := by
  simp [State.whenTxReady, h]

@[simp] theorem whenTxReady_not_ready {s : State} (f : State → State) (h : s.txReady = false) : s.whenTxReady f = s := by
  simp [State.whenTxReady, h]

theorem reset_width_pos (s : State) : 0 < 2 ^ (s.params.availWPred + 1) - 1 := by
  have h : 2 ≤ 2 ^ (s.params.availWPred + 1) := by
    rw [Nat.pow_succ]; have := Nat.one_le_two_pow (n := s.params.availWPred); omega
  omega

/-- The zero test of `Available()` says whether the queue holds a byte, whatever the count's width (R60). -/
theorem available_eq (s : State) : s.available = !s.rxq.isEmpty := by
  have h := reset_width_pos s
  cases hq : s.rxq with
  | nil => simp [State.available, State.availableCount, hq]
  | cons c rest => simp [State.available, State.availableCount, hq]

theorem available_eq_true {s : State} : s.available = true ↔ s.rxq ≠ [] := by
  rw [available_eq]; cases s.rxq <;> simp

theorem available_eq_false {s : State} : s.available = false ↔ s.rxq = [] := by
  rw [available_eq]; cases s.rxq <;> simp

/-- A round of the drain leaves the queue empty and nothing else changed (R133). -/
theorem drainRound_eq (s : State) : s.drainRound = { s with rxq := [] } := by
  unfold State.drainRound
  split
  · rfl
  · next h => rw [Bool.not_eq_true, available_eq_false] at h; simp [← h]

/-- A poll that finds a byte takes it, whatever the clock says (R130). -/
theorem pollRead_byte {s : State} {c : Byte} {rest : List Byte} (t : Nat) (h : s.rxq = c :: rest) :
    s.pollRead t = { s with t0 := s.waitStart, rxq := rest, waiting := false, timedResult := .byte c } := by
  simp [State.pollRead, h]

/-- A poll of an empty queue gives up when the time waited has reached `T` (R130). -/
theorem pollRead_timeout {s : State} {t : Nat} (h : s.rxq = []) (ht : t ≤ s.waitedMs) :
    s.pollRead t = { s with t0 := s.waitStart, waiting := false, timedResult := .timeout } := by
  simp [State.pollRead, h, ht]

/-- A poll of an empty queue before that goes on waiting (R130). -/
theorem pollRead_pending {s : State} {t : Nat} (h : s.rxq = []) (ht : s.waitedMs < t) :
    s.pollRead t = { s with t0 := s.waitStart, waiting := true, timedResult := .pending } := by
  simp [State.pollRead, h, Nat.not_le.mpr ht]

/-- Everything a poll can do: in each case only `rxq`, `t0`, `waiting` and `timedResult` change. -/
theorem pollRead_cases (s : State) (t : Nat) :
    (∃ c rest, s.rxq = c :: rest ∧
      s.pollRead t = { s with t0 := s.waitStart, rxq := rest, waiting := false, timedResult := .byte c }) ∨
    (s.rxq = [] ∧ t ≤ s.waitedMs ∧
      s.pollRead t = { s with t0 := s.waitStart, waiting := false, timedResult := .timeout }) ∨
    (s.rxq = [] ∧ s.waitedMs < t ∧
      s.pollRead t = { s with t0 := s.waitStart, waiting := true, timedResult := .pending }) := by
  by_cases hq : s.rxq = []
  · by_cases ht : t ≤ s.waitedMs
    · exact .inr (.inl ⟨hq, ht, pollRead_timeout hq ht⟩)
    · exact .inr (.inr ⟨hq, by omega, pollRead_pending hq (by omega)⟩)
  · obtain ⟨c, rest, h⟩ := List.exists_cons_of_ne_nil hq
    exact .inl ⟨c, rest, h, pollRead_byte t h⟩

/-- The quiet tick changes only the clock. -/
theorem quietTick_eq (s : State) : ∃ n : Millis, s.quietTick = { s with nowMs := n } := by
  unfold State.quietTick
  split
  · exact ⟨_, rfl⟩
  · exact ⟨s.nowMs, rfl⟩

end Sys2Proof.Machine
end

