-- ==== Sys2Proof/Laws/Codec.lean ====
section
/-! SUPPORT. Everything one step of FC_SEND, of FC_RECV and of the retry path can do, said once each. -/

namespace Sys2Proof.Machine

/-- Where each step of FC_SEND leads once the transport takes the byte: the four parts of the frame. -/
theorem execFcSend_ready {s t : State} (hr : s.txReady = true) (h : execFcSend s = .next t) :
    (s.pos = 0 ∧ t = s.beginFrame.sent Config.startMarker) ∨
    (s.pos ≠ 0 ∧ s.pos < 4 + s.txLen.toNat ∧ ∃ b, t = s.sent b) ∨
    (s.pos ≠ 0 ∧ s.pos < 4 ∧ ∃ b, t = s.sent b) ∨
    (4 ≤ s.pos ∧ s.pos = 4 + s.txLen.toNat ∧
      t = { s with txlog := s.txlog ++ [hiByte s.acc], pos := s.pos + 1, waiting := false }) ∨
    (4 ≤ s.pos ∧ 4 + s.txLen.toNat < s.pos ∧
      t = { s with txlog := s.txlog ++ [loByte s.acc], ctl := .awaitingAck, pos := 0, waiting := false }) := by
  unfold execFcSend at h
  split at h
  · next h4 =>
    rw [whenTxReady_ready _ hr] at h
    unfold State.sendHeaderByte at h
    split at h <;> cases h <;> rename_i hp
    · exact .inl ⟨hp, rfl⟩
    all_goals exact .inr (.inr (.inl ⟨by omega, by omega, _, rfl⟩))
  · next h4 =>
    split at h
    · next hl =>
      have key : ∃ b, t = s.sent b := by
        unfold State.withPayloadByte at h
        split at h
        · obtain ⟨b, -, h⟩ := withResetByte_eq_next h
          simp only [State.sendPayloadByte, whenTxReady_ready _ hr, Host.Outcome.next.injEq] at h
          exact ⟨b, h.symm⟩
        · obtain ⟨-, h⟩ := withMemByte_eq_next h
          simp only [State.sendPayloadByte, whenTxReady_ready _ hr, Host.Outcome.next.injEq] at h
          exact ⟨_, h.symm⟩
      exact .inr (.inl ⟨by omega, hl, key⟩)
    · split at h
      · next he =>
        rw [whenTxReady_ready _ hr] at h
        cases h
        exact .inr (.inr (.inr (.inl ⟨by omega, he, rfl⟩)))
      · rw [whenTxReady_ready _ hr] at h
        cases h
        exact .inr (.inr (.inr (.inr ⟨by omega, by omega, rfl⟩)))

/-- Until the transport takes the byte FC_SEND waits, with nothing changed (R58). -/
theorem execFcSend_not_ready {s t : State} (hr : s.txReady = false) (h : execFcSend s = .next t) : t = s := by
  unfold execFcSend at h
  split at h
  · rw [whenTxReady_not_ready _ hr] at h; cases h; rfl
  · split at h
    · unfold State.withPayloadByte at h
      split at h
      · obtain ⟨b, -, h⟩ := withResetByte_eq_next h
        simp only [State.sendPayloadByte, whenTxReady_not_ready _ hr, Host.Outcome.next.injEq] at h
        exact h.symm
      · obtain ⟨-, h⟩ := withMemByte_eq_next h
        simp only [State.sendPayloadByte, whenTxReady_not_ready _ hr, Host.Outcome.next.injEq] at h
        exact h.symm
    · split at h <;> (rw [whenTxReady_not_ready _ hr] at h; cases h; rfl)

/-- A payload byte is transmitted, or waits for the transport (R58, R136). -/
theorem sendPayloadByte_cases (s : State) (b : Byte) :
    (s.txReady = true ∧ s.sendPayloadByte b = s.sent b) ∨ (s.txReady = false ∧ s.sendPayloadByte b = s) := by
  cases hr : s.txReady
  · exact .inr ⟨rfl, whenTxReady_not_ready _ hr⟩
  · exact .inl ⟨rfl, whenTxReady_ready _ hr⟩

/-- The accept step, by what the transfer was for (R173). -/
theorem accept_eq (s : State) :
    (s.hs = .idle ∧ s.accept =
      { s with index := s.index + 1, resultLen := minWord s.rxLen s.rxCap, rsp := some (minWord s.rxLen s.rxCap), ctl := .idle,
               pos := 0, waiting := false }) ∨
    (s.hs ≠ .idle ∧ s.accept =
      { s with index := s.index + 1, ctl := .idle, hs := .check, pos := 0, waiting := false }) := by
  by_cases h : s.hs = .idle
  · exact .inl ⟨h, by simp [State.accept, State.finishAccept, h, State.respond, State.enterCtl]⟩
  · exact .inr ⟨h, by simp [State.accept, State.finishAccept, h, State.enterCtl, State.enterHs]⟩

/-- The three answers of a poll that a receiving phase distinguishes. -/
theorem poll_cases (s : State) (t : Nat) :
    (∃ c rest, s.rxq = c :: rest ∧ s.pollRead t = s.took c rest) ∨
    (s.rxq = [] ∧ t ≤ s.waitedMs ∧ s.pollRead t = s.gaveUp) ∨
    (s.rxq = [] ∧ s.waitedMs < t ∧ s.pollRead t = s.stillWaits) :=
  pollRead_cases s t

/-- Everything the marker phase can do (R138). -/
theorem recvMarker_cases {s t : State} (h : s.recvMarker = .next t) :
    (s.rxq = [] ∧ t = s.stillWaits) ∨ (s.rxq = [] ∧ t = s.gaveUp.retrying) ∨
    ∃ c rest, s.rxq = c :: rest ∧
      ((c = Config.startMarker ∧ t = (s.took c rest).markerSeen) ∨ (c ≠ Config.startMarker ∧ t = (s.took c rest).retrying)) := by
  unfold State.recvMarker at h
  rcases poll_cases s Config.tAck with ⟨c, rest, hq, hp⟩ | ⟨hq, -, hp⟩ | ⟨hq, -, hp⟩ <;> rw [hp] at h
  · refine .inr (.inr ⟨c, rest, hq, ?_⟩)
    simp only [State.took] at h
    split at h <;> cases h
    · next hc => exact .inl ⟨hc, rfl⟩
    · next hc => exact .inr ⟨hc, rfl⟩
  · cases h; exact .inr (.inl ⟨hq, rfl⟩)
  · cases h; exact .inl ⟨hq, rfl⟩

/-- Everything the header phase can do (R139). -/
theorem recvHeader_cases {s t : State} (h : s.recvHeader = .next t) :
    (s.rxq = [] ∧ t = s.stillWaits) ∨ (s.rxq = [] ∧ t = s.gaveUp.retrying) ∨
    ∃ c rest, s.rxq = c :: rest ∧ t = (s.took c rest).headerByte c := by
  unfold State.recvHeader at h
  rcases poll_cases s Config.tByte with ⟨c, rest, hq, hp⟩ | ⟨hq, -, hp⟩ | ⟨hq, -, hp⟩ <;> rw [hp] at h <;> cases h
  · exact .inr (.inr ⟨c, rest, hq, rfl⟩)
  · exact .inr (.inl ⟨hq, rfl⟩)
  · exact .inl ⟨hq, rfl⟩

/-- Everything a header byte can do (R139). -/
theorem headerByte_cases (s : State) (c : Byte) :
    (s.hdrI = 0 ∧ c = s.index ∧ s.headerByte c = { s.fold c with hdrI := 1 }) ∨
    (s.hdrI = 0 ∧ c ≠ s.index ∧ s.headerByte c = s.retrying) ∨
    (s.hdrI = 1 ∧ s.headerByte c = { s.fold c with rxLen := joinBytes c (loByte s.rxLen), hdrI := 2 }) ∨
    (s.hdrI ≠ 0 ∧ s.hdrI ≠ 1 ∧ s.headerByte c =
      { s.fold c with rxLen := joinBytes (hiByte s.rxLen) c, rxCnt := 0, ctl := .receivingPayload, pos := 0, waiting := false }) := by
  unfold State.headerByte
  split
  · next h0 =>
    split
    · next hc => exact .inl ⟨h0, hc, rfl⟩
    · next hc => exact .inr (.inl ⟨h0, hc, rfl⟩)
  · next h0 =>
    split
    · next h1 => exact .inr (.inr (.inl ⟨h1, rfl⟩))
    · next h1 => exact .inr (.inr (.inr ⟨h0, h1, rfl⟩))

/-- Everything the storing of a reply byte can do (R140, R145). -/
theorem storeReplyByte_cases {s t : State} {c : Byte} (h : s.storeReplyByte c = .next t) :
    (s.rxCnt < s.activeCap ∧ s.hs = .reset ∧ t = { s with hsReply := c }) ∨
    (s.rxCnt < s.activeCap ∧ s.hs ≠ .reset ∧ s.sinkAddr < Config.memSize ∧
      t = { s with mem := Memory.set s.mem s.sinkAddr c }) ∨
    (¬ s.rxCnt < s.activeCap ∧ t = s) := by
  unfold State.storeReplyByte at h
  split at h
  · next hc =>
    split at h
    · next hs => cases h; exact .inl ⟨hc, hs, rfl⟩
    · next hs => obtain ⟨ha, rfl⟩ := memWrite_eq_next h; exact .inr (.inl ⟨hc, hs, ha, rfl⟩)
  · next hc => cases h; exact .inr (.inr ⟨hc, rfl⟩)

/-- Everything the counting of a reply byte can do (R140, R170). -/
theorem countReplyByte_cases (s : State) :
    (s.rxCnt + 1 = s.rxLen ∧
      s.countReplyByte = { s with rxCnt := s.rxCnt + 1, ctl := .validating, pos := 0, waiting := false }) ∨
    (s.rxCnt + 1 ≠ s.rxLen ∧ s.countReplyByte = { s with rxCnt := s.rxCnt + 1 }) := by
  by_cases h : s.rxCnt + 1 = s.rxLen
  · exact .inl ⟨h, if_pos h⟩
  · exact .inr ⟨h, if_neg h⟩

/-- Everything the payload phase can do (R140). -/
theorem recvPayload_cases {s t : State} (h : s.recvPayload = .next t) :
    (s.rxCnt = s.rxLen ∧ t = { s with ctl := .validating, pos := 0, waiting := false }) ∨
    (s.rxCnt ≠ s.rxLen ∧ s.rxq = [] ∧ t = s.stillWaits) ∨ (s.rxCnt ≠ s.rxLen ∧ s.rxq = [] ∧ t = s.gaveUp.retrying) ∨
    (s.rxCnt ≠ s.rxLen ∧ ∃ c rest u, s.rxq = c :: rest ∧ ((s.took c rest).fold c).storeReplyByte c = .next u ∧
      t = u.countReplyByte) := by
  unfold State.recvPayload at h
  split at h
  · next he => cases h; exact .inl ⟨he, rfl⟩
  · next he =>
    rcases poll_cases s Config.tByte with ⟨c, rest, hq, hp⟩ | ⟨hq, -, hp⟩ | ⟨hq, -, hp⟩ <;> rw [hp] at h
    · simp only [State.took] at h
      obtain ⟨u, hu, ht⟩ := andThen_eq_next h
      cases ht
      exact .inr (.inr (.inr ⟨he, c, rest, u, hq, hu, rfl⟩))
    · cases h; exact .inr (.inr (.inl ⟨he, hq, rfl⟩))
    · cases h; exact .inr (.inl ⟨he, hq, rfl⟩)

/-- Everything a trailer byte can do (R141, R142). -/
theorem trailerByte_cases (s : State) (c : Byte) :
    (s.pos = 0 ∧ s.trailerByte c = { s with candHi := c, pos := s.pos + 1, waiting := false }) ∨
    (s.pos ≠ 0 ∧ s.acc = joinBytes s.candHi c ∧ s.trailerByte c = s.accept) ∨
    (s.pos ≠ 0 ∧ s.acc ≠ joinBytes s.candHi c ∧ s.trailerByte c = s.retrying) := by
  unfold State.trailerByte accMatches
  split
  · next h0 => exact .inl ⟨h0, rfl⟩
  · next h0 =>
    split
    · next hm => exact .inr (.inl ⟨h0, by simpa using hm, rfl⟩)
    · next hm => exact .inr (.inr ⟨h0, by simpa using hm, rfl⟩)

/-- Everything the trailer phase can do (R141). -/
theorem recvTrailer_cases {s t : State} (h : s.recvTrailer = .next t) :
    (s.rxq = [] ∧ t = s.stillWaits) ∨ (s.rxq = [] ∧ t = s.gaveUp.retrying) ∨
    ∃ c rest, s.rxq = c :: rest ∧ t = (s.took c rest).trailerByte c := by
  unfold State.recvTrailer at h
  rcases poll_cases s Config.tByte with ⟨c, rest, hq, hp⟩ | ⟨hq, -, hp⟩ | ⟨hq, -, hp⟩ <;> rw [hp] at h <;> cases h
  · exact .inr (.inr ⟨c, rest, hq, rfl⟩)
  · exact .inr (.inl ⟨hq, rfl⟩)
  · exact .inl ⟨hq, rfl⟩

/-- A poll of a delay changes the clock sample and says whether the wait goes on (R132). -/
theorem pollDelay_eq (s : State) (t : Nat) :
    s.pollDelay t = { s with t0 := s.waitStart, waiting := decide (s.waitedMs < t) } := rfl

/-- Everything one step of the retry path can do (R174, R260). -/
theorem retryStep_cases (s : State) :
    (s.pos = 0 ∧ s.waitedMs < Config.tBackoff ∧ s.retryStep = { s with t0 := s.waitStart, waiting := true }) ∨
    (s.pos = 0 ∧ Config.tBackoff ≤ s.waitedMs ∧
      s.retryStep = { s with t0 := s.waitStart, pos := s.pos + 1, waiting := false }) ∨
    (s.pos ≠ 0 ∧ s.rxq ≠ [] ∧ s.retryStep = { s with rxq := [] }) ∨
    (s.pos ≠ 0 ∧ s.rxq = [] ∧ s.retryStep = { s with ctl := .sending, pos := 0, waiting := false }) := by
  unfold State.retryStep
  by_cases h0 : s.pos = 0
  · by_cases ht : s.waitedMs < Config.tBackoff
    · exact .inl ⟨h0, ht, by simp [h0, State.pollDelay, ht]⟩
    · exact .inr (.inl ⟨h0, by omega, by simp [h0, State.pollDelay, ht, State.advance]⟩)
  · by_cases hq : s.rxq = []
    · exact .inr (.inr (.inr ⟨h0, hq, by simp [h0, available_eq_false.mpr hq, State.retryReturn, State.enterCtl]⟩))
    · exact .inr (.inr (.inl ⟨h0, hq, by simp [h0, available_eq_true.mpr hq, drainRound_eq]⟩))

end Sys2Proof.Machine
end

