-- ==== Sys2Proof/Laws/Step.lean ====
section
/-! SUPPORT. What a step can do, said once: which agent moves, and the block's step by its state. -/

namespace Sys2Proof.Machine

/-- What the mover finds differs from the state only in `sched` and `nowMs`. -/
theorem taken_eq (s : State) : ∃ (q : List Move) (n : Millis), s.taken = { s with sched := q, nowMs := n } := by
  unfold State.taken
  split
  · exact ⟨_, s.nowMs, rfl⟩
  · split
    · exact ⟨_, s.nowMs, rfl⟩
    · obtain ⟨n, h⟩ := quietTick_eq s
      exact ⟨s.sched, n, h⟩

@[simp] theorem taken_acc (s : State) : s.taken.acc = s.acc := by
  obtain ⟨q, n, h⟩ := taken_eq s
  rw [h]

@[simp] theorem taken_index (s : State) : s.taken.index = s.index := by
  obtain ⟨q, n, h⟩ := taken_eq s
  rw [h]

@[simp] theorem taken_started (s : State) : s.taken.started = s.started := by
  obtain ⟨q, n, h⟩ := taken_eq s
  rw [h]

@[simp] theorem taken_matchFlag (s : State) : s.taken.matchFlag = s.matchFlag := by
  obtain ⟨q, n, h⟩ := taken_eq s
  rw [h]

@[simp] theorem taken_ctl (s : State) : s.taken.ctl = s.ctl := by
  obtain ⟨q, n, h⟩ := taken_eq s
  rw [h]

@[simp] theorem taken_hs (s : State) : s.taken.hs = s.hs := by
  obtain ⟨q, n, h⟩ := taken_eq s
  rw [h]

@[simp] theorem taken_seg1Base (s : State) : s.taken.seg1Base = s.seg1Base := by
  obtain ⟨q, n, h⟩ := taken_eq s
  rw [h]

@[simp] theorem taken_seg1Len (s : State) : s.taken.seg1Len = s.seg1Len := by
  obtain ⟨q, n, h⟩ := taken_eq s
  rw [h]

@[simp] theorem taken_seg2Base (s : State) : s.taken.seg2Base = s.seg2Base := by
  obtain ⟨q, n, h⟩ := taken_eq s
  rw [h]

@[simp] theorem taken_seg2Len (s : State) : s.taken.seg2Len = s.seg2Len := by
  obtain ⟨q, n, h⟩ := taken_eq s
  rw [h]

@[simp] theorem taken_seg3Base (s : State) : s.taken.seg3Base = s.seg3Base := by
  obtain ⟨q, n, h⟩ := taken_eq s
  rw [h]

@[simp] theorem taken_seg3Len (s : State) : s.taken.seg3Len = s.seg3Len := by
  obtain ⟨q, n, h⟩ := taken_eq s
  rw [h]

@[simp] theorem taken_rxBase (s : State) : s.taken.rxBase = s.rxBase := by
  obtain ⟨q, n, h⟩ := taken_eq s
  rw [h]

@[simp] theorem taken_rxCap (s : State) : s.taken.rxCap = s.rxCap := by
  obtain ⟨q, n, h⟩ := taken_eq s
  rw [h]

@[simp] theorem taken_resultLen (s : State) : s.taken.resultLen = s.resultLen := by
  obtain ⟨q, n, h⟩ := taken_eq s
  rw [h]

@[simp] theorem taken_txLen (s : State) : s.taken.txLen = s.txLen := by
  obtain ⟨q, n, h⟩ := taken_eq s
  rw [h]

@[simp] theorem taken_hdrI (s : State) : s.taken.hdrI = s.hdrI := by
  obtain ⟨q, n, h⟩ := taken_eq s
  rw [h]

@[simp] theorem taken_rxLen (s : State) : s.taken.rxLen = s.rxLen := by
  obtain ⟨q, n, h⟩ := taken_eq s
  rw [h]

@[simp] theorem taken_rxCnt (s : State) : s.taken.rxCnt = s.rxCnt := by
  obtain ⟨q, n, h⟩ := taken_eq s
  rw [h]

@[simp] theorem taken_candHi (s : State) : s.taken.candHi = s.candHi := by
  obtain ⟨q, n, h⟩ := taken_eq s
  rw [h]

@[simp] theorem taken_t0 (s : State) : s.taken.t0 = s.t0 := by
  obtain ⟨q, n, h⟩ := taken_eq s
  rw [h]

@[simp] theorem taken_hsReply (s : State) : s.taken.hsReply = s.hsReply := by
  obtain ⟨q, n, h⟩ := taken_eq s
  rw [h]

@[simp] theorem taken_rsp (s : State) : s.taken.rsp = s.rsp := by
  obtain ⟨q, n, h⟩ := taken_eq s
  rw [h]

@[simp] theorem taken_pos (s : State) : s.taken.pos = s.pos := by
  obtain ⟨q, n, h⟩ := taken_eq s
  rw [h]

@[simp] theorem taken_waiting (s : State) : s.taken.waiting = s.waiting := by
  obtain ⟨q, n, h⟩ := taken_eq s
  rw [h]

@[simp] theorem taken_timedResult (s : State) : s.taken.timedResult = s.timedResult := by
  obtain ⟨q, n, h⟩ := taken_eq s
  rw [h]

@[simp] theorem taken_freeCount (s : State) : s.taken.freeCount = s.freeCount := by
  obtain ⟨q, n, h⟩ := taken_eq s
  rw [h]

@[simp] theorem taken_mem (s : State) : s.taken.mem = s.mem := by
  obtain ⟨q, n, h⟩ := taken_eq s
  rw [h]

@[simp] theorem taken_rxq (s : State) : s.taken.rxq = s.rxq := by
  obtain ⟨q, n, h⟩ := taken_eq s
  rw [h]

@[simp] theorem taken_txlog (s : State) : s.taken.txlog = s.txlog := by
  obtain ⟨q, n, h⟩ := taken_eq s
  rw [h]

@[simp] theorem taken_txReady (s : State) : s.taken.txReady = s.txReady := by
  obtain ⟨q, n, h⟩ := taken_eq s
  rw [h]

@[simp] theorem taken_cmds (s : State) : s.taken.cmds = s.cmds := by
  obtain ⟨q, n, h⟩ := taken_eq s
  rw [h]

@[simp] theorem taken_rspLog (s : State) : s.taken.rspLog = s.rspLog := by
  obtain ⟨q, n, h⟩ := taken_eq s
  rw [h]

@[simp] theorem taken_loop (s : State) : s.taken.loop = s.loop := by
  obtain ⟨q, n, h⟩ := taken_eq s
  rw [h]

@[simp] theorem taken_params (s : State) : s.taken.params = s.params := by
  obtain ⟨q, n, h⟩ := taken_eq s
  rw [h]

@[simp] theorem taken_busy (s : State) : s.taken.busy = s.busy := by
  simp [State.busy]

@[simp] theorem taken_cmdReady (s : State) : s.taken.cmdReady = s.cmdReady := by
  simp [State.cmdReady]

@[simp] theorem taken_payloadAddr (s : State) (k : Nat) : s.taken.payloadAddr k = s.payloadAddr k := by
  simp [State.payloadAddr]

@[simp] theorem taken_hostLen (s : State) : s.taken.hostLen = s.hostLen := by
  simp [State.hostLen]

@[simp] theorem taken_activeLen (s : State) : s.taken.activeLen = s.activeLen := by
  simp [State.activeLen]

@[simp] theorem taken_activePayload (s : State) : s.taken.activePayload = s.activePayload := by
  simp [State.activePayload]

@[simp] theorem taken_readReg (s : State) (r : HostReg) : s.taken.readReg r = s.readReg r := by
  cases r <;> simp [State.readReg, State.statusWord]

/-- A step is the block's, or a move of the environment; a step of the environment is always a next state. -/
theorem step_eq_next {s t : State} (h : step s = .next t) :
    (s.nextMove = .block ∧ blockStep s.taken = .next t) ∨
      (s.nextMove ≠ .block ∧ t = s.taken.applyMove s.nextMove) := by
  unfold step move at h
  split at h
  · next hm => exact .inl ⟨hm, h⟩
  · next hm => exact .inr ⟨hm, by cases h; rfl⟩

theorem step_of_block {s : State} (h : s.nextMove = .block) : step s = blockStep s.taken := by
  simp [step, move, h]

theorem step_of_env {s : State} (h : s.nextMove ≠ .block) : step s = .next (s.taken.applyMove s.nextMove) := by
  unfold step move
  split
  · next hm => exact absurd hm h
  · rfl

/-- The block delivers a pending response before anything else (R40). -/
theorem blockStep_of_rsp {s : State} (h : s.rsp ≠ none) : blockStep s = .next s.deliver := by
  simp [blockStep, Option.isSome_iff_ne_none, h]

/-- A ready block issues the host's next command word (R39, R40). -/
theorem blockStep_ready {s : State} (hr : s.rsp = none) (hc : s.ctl = .idle) (hh : s.hs = .idle) :
    blockStep s = issue s := by
  simp [blockStep, hr, hc, hh]

/-- A running controller takes its next step (R175). -/
theorem blockStep_controller {s : State} (hr : s.rsp = none) (hc : s.ctl ≠ .idle) (hh : s.hs = .idle ∨ s.hs = .reset) :
    blockStep s = controllerStep s := by
  rcases hh with hh | hh <;> simp [blockStep, hr, hc, hh]

/-- A quiet schedule moves the block and the clock only. -/
theorem taken_quiet {s : State} (h : s.sched = []) (hl : s.loop = []) : s.nextMove = .block ∧ s.taken = s.quietTick := by
  simp [State.nextMove, State.taken, h, hl]

@[simp] theorem runs_zero (s : State) : runs 0 s = .next s := rfl

theorem runs_succ_of_next {k : Nat} {s t : State} (h : step s = .next t) : runs (k + 1) s = runs k t := by
  simp [runs, h]

/-- Runs compose. -/
theorem runs_add {j k : Nat} {s t : State} (h : runs j s = .next t) : runs (j + k) s = runs k t := by
  induction j generalizing s with
  | zero => cases h; rw [Nat.zero_add]
  | succ j ih =>
    obtain ⟨u, hu, hr⟩ := andThen_eq_next h
    rw [Nat.succ_add, runs_succ_of_next hu, ih hr]

end Sys2Proof.Machine
end

