-- ==== Sys2Proof/Laws/Block.lean ====
section
/-! SUPPORT. Everything one step of the block can do outside the codec: the handshake's states, the pseudo-operations' writes and
the host operations a command word may name. -/

namespace Sys2Proof.Machine

/-- Everything one step of `HsSettle` can do (R203). -/
theorem settleStep_cases (s : State) :
    (s.pos = 0 ∧ s.rxq ≠ [] ∧ s.settleStep = { s with rxq := [] }) ∨
    (s.pos = 0 ∧ s.rxq = [] ∧ s.settleStep = { s with pos := s.pos + 1, waiting := false }) ∨
    (s.pos ≠ 0 ∧ s.waitedMs < Config.tSettle ∧ s.settleStep = { s with t0 := s.waitStart, waiting := true }) ∨
    (s.pos ≠ 0 ∧ Config.tSettle ≤ s.waitedMs ∧ s.rxq ≠ [] ∧
      s.settleStep = { s with t0 := s.waitStart, hs := .settle, pos := 0, waiting := false }) ∨
    (s.pos ≠ 0 ∧ Config.tSettle ≤ s.waitedMs ∧ s.rxq = [] ∧
      s.settleStep = { s with t0 := s.waitStart, hs := .interrupt, pos := 0, waiting := false }) := by
  unfold State.settleStep
  by_cases h0 : s.pos = 0
  · by_cases hq : s.rxq = []
    · exact .inr (.inl ⟨h0, hq, by simp [h0, available_eq_false.mpr hq, State.advance]⟩)
    · exact .inl ⟨h0, hq, by simp [h0, available_eq_true.mpr hq, drainRound_eq]⟩
  · by_cases ht : s.waitedMs < Config.tSettle
    · exact .inr (.inr (.inl ⟨h0, ht, by simp [h0, State.pollDelay, ht]⟩))
    · have hp : s.pollDelay Config.tSettle = { s with t0 := s.waitStart, waiting := false } := by
        simp [State.pollDelay, ht]
      by_cases hq : s.rxq = []
      · refine .inr (.inr (.inr (.inr ⟨h0, by omega, hq, ?_⟩)))
        simp [h0, hp, available_eq, hq, State.enterHs]
      · refine .inr (.inr (.inr (.inl ⟨h0, by omega, hq, ?_⟩)))
        simp [h0, hp, available_eq, hq, State.enterHs]

/-- Everything one step of a handshake string and its delay can do (R204 to R207). -/
theorem sendThenDelay_cases (s : State) (bytes : List Byte) (t : Nat) (after : HsState) :
    (∃ b, bytes[s.pos]? = some b ∧ s.txReady = true ∧
      s.sendThenDelay bytes t after = { s with txlog := s.txlog ++ [b], pos := s.pos + 1, waiting := false }) ∨
    (s.pos < bytes.length ∧ s.txReady = false ∧ s.sendThenDelay bytes t after = s) ∨
    (bytes.length ≤ s.pos ∧ s.waitedMs < t ∧ s.sendThenDelay bytes t after = { s with t0 := s.waitStart, waiting := true }) ∨
    (bytes.length ≤ s.pos ∧ t ≤ s.waitedMs ∧
      s.sendThenDelay bytes t after = { s with t0 := s.waitStart, hs := after, pos := 0, waiting := false }) := by
  unfold State.sendThenDelay
  cases hb : bytes[s.pos]? with
  | none =>
    have hl : bytes.length ≤ s.pos := List.getElem?_eq_none_iff.mp hb
    by_cases ht : s.waitedMs < t
    · exact .inr (.inr (.inl ⟨hl, ht, by simp [State.pollDelay, ht]⟩))
    · exact .inr (.inr (.inr ⟨hl, by omega, by simp [State.pollDelay, ht, State.enterHs]⟩))
  | some b =>
    cases hr : s.txReady
    · exact .inr (.inl ⟨(List.getElem?_eq_some_iff.mp hb).1, rfl, by simp [hr]⟩)
    · exact .inl ⟨b, rfl, rfl, by simp [hr, State.write, State.advance]⟩

/-- Everything one step of `HsDrain` can do (R208). -/
theorem hsDrainStep_cases (s : State) :
    (s.rxq ≠ [] ∧ s.hsDrainStep = { s with rxq := [] }) ∨
    (s.rxq = [] ∧ s.hsDrainStep = { s with hs := .reset, ctl := .sending, pos := 0, waiting := false }) := by
  unfold State.hsDrainStep
  by_cases hq : s.rxq = []
  · exact .inr ⟨hq, by simp [available_eq_false.mpr hq, State.enterHs, State.enterCtl]⟩
  · exact .inl ⟨hq, by simp [available_eq_true.mpr hq, drainRound_eq]⟩

/-- Everything the handshake's test can do: finish with a response, or halt; only `freeCount` differs between a stated reply and a
free one (R210 to R212, R31). -/
theorem hsCheckStep_cases (s : State) :
    ∃ n : Nat, (s.rxLen ≠ 0 → n = s.freeCount) ∧
      (s.hsCheckStep = { s with freeCount := n, hs := .idle, pos := 0, waiting := false, rsp := some 0 } ∨
        s.hsCheckStep = { s with freeCount := n, hs := .halted, pos := 0, waiting := false }) := by
  unfold State.hsCheckStep
  split
  · next h0 =>
    refine ⟨s.freeCount + 1, fun h => absurd h0 h, ?_⟩
    unfold State.hsVerdict
    split
    · exact .inl rfl
    · exact .inr rfl
  · refine ⟨s.freeCount, fun _ => rfl, ?_⟩
    unfold State.hsVerdict
    split
    · exact .inl rfl
    · exact .inr rfl

/-- A host register write changes the eight descriptors only (R29, R231). -/
theorem writeReg_frame (s : State) (r : HostReg) (v : Word) :
    ∃ a b c d e f g h : Word, s.writeReg r v =
      { s with seg1Base := a, seg1Len := b, seg2Base := c, seg2Len := d, seg3Base := e, seg3Len := f, rxBase := g, rxCap := h } := by
  refine ⟨(s.writeReg r v).seg1Base, (s.writeReg r v).seg1Len, (s.writeReg r v).seg2Base, (s.writeReg r v).seg2Len,
    (s.writeReg r v).seg3Base, (s.writeReg r v).seg3Len, (s.writeReg r v).rxBase, (s.writeReg r v).rxCap, ?_⟩
  cases r <;> rfl

/-- The operations a host command word may name (R90, R97). -/
theorem decodeHost_cases (w : Cmd) :
    decodeHost w = .nop ∨ decodeHost w = .ckReset ∨ (∃ b, decodeHost w = .ckUpdate b) ∨ decodeHost w = .ckFinalize ∨
    (∃ c, decodeHost w = .ckMatches c) ∨ (∃ r v, r.writable = true ∧ decodeHost w = .wrreg r v) ∨
    (∃ r, decodeHost w = .rdreg r) ∨ decodeHost w = .transfer ∨ decodeHost w = .beginHs ∨ decodeHost w = .reserved w := by
  have bare : ∀ i : Instr, decodeBare i w = i ∨ decodeBare i w = .reserved w := by
    intro i; unfold decodeBare; split <;> simp
  unfold decodeHost
  split
  · rcases bare .nop with h | h <;> simp [h]
  · rcases bare .ckReset with h | h <;> simp [h]
  · unfold decodeUpdate; split <;> simp
  · rcases bare .ckFinalize with h | h <;> simp [h]
  · unfold decodeMatches; split <;> simp
  · unfold decodeWrreg
    split
    · next r _ =>
      split
      · next hr => exact .inr (.inr (.inr (.inr (.inr (.inl ⟨r, _, hr, rfl⟩)))))
      · simp
    · simp
  · unfold decodeRdreg
    split
    · split <;> simp
    · simp
  · rcases bare .transfer with h | h <;> simp [h]
  · rcases bare .beginHs with h | h <;> simp [h]
  · simp

/-- TRANSFER goes on only with its preconditions met (R161, R162). -/
theorem execTransfer_eq_next {s t : State} (h : execTransfer s = .next t) :
    s.lengthsOk = true ∧ s.buffersFit = true ∧ t = { s with ctl := .sending, pos := 0, waiting := false } := by
  unfold execTransfer at h
  split at h
  · next hl =>
    split at h
    · next hb => cases h; exact ⟨hl, hb, rfl⟩
    · cases h
  · cases h

/-- What an operation that responds may change: the accumulator, `match`, which only CK_MATCHES writes, with its comparison
(R114), the descriptors and the response. -/
def Responds (w : Cmd) (s t : State) : Prop :=
  ∃ (x : Word) (m : Bool) (a b c d e f g i v : Word),
    (m = s.matchFlag ∨ ∃ cand, decodeHost w = .ckMatches cand ∧ m = decide (s.acc = cand)) ∧
    t = { s with acc := x, matchFlag := m, seg1Base := a, seg1Len := b, seg2Base := c, seg2Len := d, seg3Base := e, seg3Len := f,
                 rxBase := g, rxCap := i, rsp := some v }

/-- Everything the issue of a host command word can do: an operation responds at once (R111 to R114, R201, R230 to R232), or TRANSFER
or BEGIN starts its procedure and responds later (R161, R202). -/
theorem execHost_cases {w : Cmd} {s t : State} (h : exec (decodeHost w) s = .next t) :
    Responds w s t ∨
    (s.lengthsOk = true ∧ s.buffersFit = true ∧ t = { s with ctl := .sending, pos := 0, waiting := false }) ∨
    t = { s with started := true, hs := .settle, pos := 0, waiting := false } := by
  have keep : ∀ (x : Word) (m : Bool) (v : Word),
      (m = s.matchFlag ∨ ∃ cand, decodeHost w = .ckMatches cand ∧ m = decide (s.acc = cand)) → Responds w s { s with acc := x, matchFlag := m, rsp := some v } := fun x m v hm =>
    ⟨x, m, s.seg1Base, s.seg1Len, s.seg2Base, s.seg2Len, s.seg3Base, s.seg3Len, s.rxBase, s.rxCap, v, hm, rfl⟩
  rcases decodeHost_cases w with hd | hd | ⟨b, hd⟩ | hd | ⟨c, hd⟩ | ⟨r, v, hr, hd⟩ | ⟨r, hd⟩ | hd | hd | hd <;> rw [hd] at h
  · cases h; exact .inl (keep _ _ _ (.inl rfl))
  · cases h; exact .inl (keep _ _ _ (.inl rfl))
  · cases h; exact .inl (keep _ _ _ (.inl rfl))
  · cases h; exact .inl (keep _ _ _ (.inl rfl))
  · cases h; exact .inl (keep _ _ _ (.inr ⟨c, hd, rfl⟩))
  · obtain ⟨a, b, c, d, e, f, g, i, he⟩ := writeReg_frame s r v
    simp only [exec, execWrreg, hr, if_true, he, Host.Outcome.next.injEq] at h
    exact .inl ⟨s.acc, s.matchFlag, a, b, c, d, e, f, g, i, 0, .inl rfl, h.symm⟩
  · cases h; exact .inl (keep _ _ _ (.inl rfl))
  · exact .inr (.inl (execTransfer_eq_next h))
  · simp only [exec, execBegin] at h
    split at h <;> cases h
    · exact .inl (keep _ _ _ (.inl rfl))
    · exact .inr (.inr rfl)
  · cases h

/-- Running the payload command that a fetched byte decodes to is what FC_SEND does with that byte (R93, R136). -/
theorem exec_sendingOp (s : State) : exec s.sendingOp s = execFcSend s := by
  unfold State.sendingOp
  split
  · next hp =>
    have h4 : ¬ s.pos < 4 := by omega
    have hrun : execFcSend s = s.withPayloadByte (fun b => .next (s.sendPayloadByte b)) := by
      simp [execFcSend, h4, hp.2]
    split
    · next hr => rw [hrun]; simp [exec, execPayReset, State.withPayloadByte, hr]
    · next hr =>
      split
      · next ha =>
        have hb : execFcSend s = .next (s.sendPayloadByte (Memory.get s.mem (s.payloadAddr 0))) := by
          rw [hrun]
          simp only [State.withPayloadByte, hr, if_false, ha.1, Nat.sub_self]
          exact withMemByte_of_lt _ ha.2
        rw [hb]
        generalize Memory.get s.mem (s.payloadAddr 0) = b at hb
        unfold decodeLetter
        split
        · next h => rw [h]; rfl
        split
        · next h => rw [h]; rfl
        split
        · next h => rw [h]; rfl
        split
        · next h => rw [h]; rfl
        split
        · next h => rw [h]; rfl
        split
        · next h => rw [h]; rfl
        · exact hb
      · rfl
  · rfl

/-- The controller's step by its state (R175). -/
theorem controllerStep_cases {s t : State} (h : controllerStep s = .next t) :
    (s.ctl = .idle ∧ t = s) ∨ (s.ctl = .sending ∧ execFcSend s = .next t) ∨ (s.ctl = .awaitingAck ∧ s.recvMarker = .next t) ∨
    (s.ctl = .receivingHeader ∧ s.recvHeader = .next t) ∨ (s.ctl = .receivingPayload ∧ s.recvPayload = .next t) ∨
    (s.ctl = .validating ∧ s.recvTrailer = .next t) ∨ (s.ctl = .accepted ∧ t = s.finishAccept) ∨
    (s.ctl = .retrying ∧ t = s.retryStep) := by
  unfold controllerStep at h
  split at h <;> rename_i hc <;> (try rw [exec_sendingOp] at h) <;>
    simp_all [exec, execFcRecv]

/-- The block's step by its state: a response is delivered first; an idle block issues a command or rests; else the present state's
procedure goes on (R40, R175, R213). -/
theorem blockStep_cases {s t : State} (h : blockStep s = .next t) :
    (∃ v, s.rsp = some v ∧ t = { s with rsp := none, rspLog := s.rspLog ++ [v] }) ∨
    (s.rsp = none ∧
      ((s.hs = .idle ∧ s.ctl = .idle ∧ s.cmds = [] ∧ t = s) ∨
       (s.hs = .idle ∧ s.ctl = .idle ∧ ∃ w rest, s.cmds = w :: rest ∧ exec (decodeHost w) { s with cmds := rest } = .next t) ∨
       ((s.hs = .idle ∧ s.ctl ≠ .idle ∨ s.hs = .reset) ∧ controllerStep s = .next t) ∨
       (s.hs = .settle ∧ t = s.settleStep) ∨
       (∃ str ms after, (s.hs = .interrupt ∧ str = s.params.hsInterrupt ∧ ms = Config.tHs1 ∧ after = .blank1 ∨
          s.hs = .blank1 ∧ str = s.params.hsBlank ∧ ms = Config.tHs2 ∧ after = .blank2 ∨
          s.hs = .blank2 ∧ str = s.params.hsBlank ∧ ms = Config.tHs3 ∧ after = .activate ∨
          s.hs = .activate ∧ str = s.params.hsActivate ∧ ms = Config.tHs4 ∧ after = .drain) ∧
          t = s.sendThenDelay str ms after) ∨
       (s.hs = .drain ∧ t = s.hsDrainStep) ∨ (s.hs = .check ∧ t = s.hsCheckStep) ∨ (s.hs = .halted ∧ t = s))) := by
  unfold blockStep at h
  cases hr : s.rsp with
  | some v =>
    simp only [hr, Option.isSome_some, if_true, Host.Outcome.next.injEq] at h
    exact .inl ⟨v, rfl, by rw [← h, deliver_some hr]⟩
  | none =>
    simp only [hr, Option.isSome_none, Bool.false_eq_true, if_false] at h
    refine .inr ⟨rfl, ?_⟩
    split at h <;> rename_i hh
    · split at h
      · next hc =>
        unfold issue at h
        split at h
        · next hq => cases h; exact .inl ⟨hh, hc, hq, rfl⟩
        · next w rest hq => rw [hr] at h; exact .inr (.inl ⟨hh, hc, w, rest, hq, h⟩)
      · next hc => exact .inr (.inr (.inl ⟨.inl ⟨hh, hc⟩, h⟩))
    · cases h; exact .inr (.inr (.inr (.inl ⟨hh, rfl⟩)))
    · cases h; exact .inr (.inr (.inr (.inr (.inl ⟨_, _, _, .inl ⟨hh, rfl, rfl, rfl⟩, rfl⟩))))
    · cases h; exact .inr (.inr (.inr (.inr (.inl ⟨_, _, _, .inr (.inl ⟨hh, rfl, rfl, rfl⟩), rfl⟩))))
    · cases h; exact .inr (.inr (.inr (.inr (.inl ⟨_, _, _, .inr (.inr (.inl ⟨hh, rfl, rfl, rfl⟩)), rfl⟩))))
    · cases h; exact .inr (.inr (.inr (.inr (.inl ⟨_, _, _, .inr (.inr (.inr ⟨hh, rfl, rfl, rfl⟩)), rfl⟩))))
    · cases h; exact .inr (.inr (.inr (.inr (.inr (.inl ⟨hh, rfl⟩)))))
    · exact .inr (.inr (.inl ⟨.inr hh, h⟩))
    · cases h; exact .inr (.inr (.inr (.inr (.inr (.inr (.inl ⟨hh, rfl⟩))))))
    · cases h; exact .inr (.inr (.inr (.inr (.inr (.inr (.inr ⟨hh, rfl⟩))))))

end Sys2Proof.Machine
end

