-- ==== Sys2Proof/Laws/Effects.lean ====
section
/-! SUPPORT. The block's step as a list of effects: `blockStep_effect` says once everything it can do, so that a property of every
step is one case split. -/

namespace Sys2Proof.Machine

/-- `ctl_state` is one of the four receiving states. -/
def State.receiving (s : State) : Prop :=
  s.ctl = .awaitingAck ∨ s.ctl = .receivingHeader ∨ s.ctl = .receivingPayload ∨ s.ctl = .validating

/-- The controller may run: no handshake, or the reset transfer (R181). -/
def State.mayRun (s : State) : Prop :=
  s.hs = .idle ∨ s.hs = .reset

/-- Everything one step of the block can do: each constructor has its guard and the whole next state. -/
inductive Effect : State → State → Prop where
  /-- Nothing: an idle block without a command, a halted block, or a block that waits for the transport. -/
  | rest (s : State) : Effect s s
  | deliver (s : State) (v : Word) (hr : s.rsp = some v) : Effect s { s with rsp := none, rspLog := s.rspLog ++ [v] }
  | respond (s t : State) (w : Cmd) (rest : List Cmd) (hr : s.rsp = none) (hh : s.hs = .idle) (hc : s.ctl = .idle)
      (hq : s.cmds = w :: rest) (h : Responds w { s with cmds := rest } t) : Effect s t
  | transfer (s : State) (w : Cmd) (rest : List Cmd) (hr : s.rsp = none) (hh : s.hs = .idle) (hc : s.ctl = .idle)
      (hq : s.cmds = w :: rest) (hl : s.lengthsOk = true) (hb : s.buffersFit = true) :
      Effect s { s with cmds := rest, ctl := .sending, pos := 0, waiting := false }
  | begin (s : State) (w : Cmd) (rest : List Cmd) (hr : s.rsp = none) (hh : s.hs = .idle) (hc : s.ctl = .idle)
      (hq : s.cmds = w :: rest) : Effect s { s with cmds := rest, started := true, hs := .settle, pos := 0, waiting := false }
  | sendMarker (s : State) (hr : s.rsp = none) (hh : s.mayRun) (hc : s.ctl = .sending) (hp : s.pos = 0) :
      Effect s (s.beginFrame.sent Config.startMarker)
  | sendByte (s : State) (b : Byte) (hr : s.rsp = none) (hh : s.mayRun) (hc : s.ctl = .sending) (hp : s.pos ≠ 0)
      (hl : s.pos < 4 ∨ s.pos < 4 + s.txLen.toNat) : Effect s (s.sent b)
  | sendHigh (s : State) (hr : s.rsp = none) (hh : s.mayRun) (hc : s.ctl = .sending) (hp : 4 ≤ s.pos)
      (hl : s.pos = 4 + s.txLen.toNat) :
      Effect s { s with txlog := s.txlog ++ [hiByte s.acc], pos := s.pos + 1, waiting := false }
  | sendLow (s : State) (hr : s.rsp = none) (hh : s.mayRun) (hc : s.ctl = .sending) (hp : 4 ≤ s.pos)
      (hl : 4 + s.txLen.toNat < s.pos) :
      Effect s { s with txlog := s.txlog ++ [loByte s.acc], ctl := .awaitingAck, pos := 0, waiting := false }
  | wait (s : State) (hr : s.rsp = none) (hh : s.mayRun) (hc : s.receiving) (hq : s.rxq = []) : Effect s s.stillWaits
  | giveUp (s : State) (hr : s.rsp = none) (hh : s.mayRun) (hc : s.receiving) (hq : s.rxq = []) : Effect s s.gaveUp.retrying
  | reject (s : State) (c : Byte) (rest : List Byte) (hr : s.rsp = none) (hh : s.mayRun) (hc : s.receiving)
      (hq : s.rxq = c :: rest) : Effect s (s.took c rest).retrying
  | marker (s : State) (rest : List Byte) (hr : s.rsp = none) (hh : s.mayRun) (hc : s.ctl = .awaitingAck)
      (hq : s.rxq = Config.startMarker :: rest) : Effect s (s.took Config.startMarker rest).markerSeen
  | headerIndex (s : State) (rest : List Byte) (hr : s.rsp = none) (hh : s.mayRun) (hc : s.ctl = .receivingHeader)
      (hi : s.hdrI = 0) (hq : s.rxq = s.index :: rest) :
      Effect s { s.took s.index rest with acc := ckUpdate s.acc s.index, hdrI := 1 }
  | headerHigh (s : State) (c : Byte) (rest : List Byte) (hr : s.rsp = none) (hh : s.mayRun) (hc : s.ctl = .receivingHeader)
      (hi : s.hdrI = 1) (hq : s.rxq = c :: rest) :
      Effect s { s.took c rest with acc := ckUpdate s.acc c, rxLen := joinBytes c (loByte s.rxLen), hdrI := 2 }
  | headerLow (s : State) (c : Byte) (rest : List Byte) (hr : s.rsp = none) (hh : s.mayRun) (hc : s.ctl = .receivingHeader)
      (h0 : s.hdrI ≠ 0) (h1 : s.hdrI ≠ 1) (hq : s.rxq = c :: rest) :
      Effect s { s.took c rest with acc := ckUpdate s.acc c, rxLen := joinBytes (hiByte s.rxLen) c, rxCnt := 0,
                                    ctl := .receivingPayload, pos := 0, waiting := false }
  | payloadEnd (s : State) (hr : s.rsp = none) (hh : s.mayRun) (hc : s.ctl = .receivingPayload) (he : s.rxCnt = s.rxLen) :
      Effect s { s with ctl := .validating, pos := 0, waiting := false }
  /-- A payload byte: memory and `hs_reply` afterwards are `m` and `r`; the last byte of the payload ends the phase. -/
  | payloadByte (s : State) (c : Byte) (rest : List Byte) (m : List Host.Cell) (r : Byte) (hr : s.rsp = none) (hh : s.mayRun)
      (hc : s.ctl = .receivingPayload) (he : s.rxCnt ≠ s.rxLen) (hq : s.rxq = c :: rest)
      (hm : (s.hs = .idle ∧ s.rxCnt < s.rxCap ∧ s.sinkAddr < Config.memSize ∧ m = Memory.set s.mem s.sinkAddr c ∧ r = s.hsReply) ∨
        (s.hs = .reset ∧ m = s.mem ∧ r = c ∧ s.rxCnt < 1) ∨ (¬ s.rxCnt < s.activeCap ∧ m = s.mem ∧ r = s.hsReply))
      (ctl : CtlState) (pos : Nat) (hn : s.rxCnt + 1 = s.rxLen ∧ ctl = .validating ∧ pos = 0 ∨
        s.rxCnt + 1 ≠ s.rxLen ∧ ctl = .receivingPayload ∧ pos = s.pos) :
      Effect s { s.took c rest with acc := ckUpdate s.acc c, rxCnt := s.rxCnt + 1, mem := m, hsReply := r, ctl := ctl, pos := pos }
  | trailerHigh (s : State) (c : Byte) (rest : List Byte) (hr : s.rsp = none) (hh : s.mayRun) (hc : s.ctl = .validating)
      (hp : s.pos = 0) (hq : s.rxq = c :: rest) : Effect s { s.took c rest with candHi := c, pos := s.pos + 1 }
  | accept (s : State) (c : Byte) (rest : List Byte) (hr : s.rsp = none) (hh : s.hs = .idle) (hc : s.ctl = .validating)
      (hp : s.pos ≠ 0) (hq : s.rxq = c :: rest) (hm : s.acc = joinBytes s.candHi c) :
      Effect s { s.took c rest with index := s.index + 1, resultLen := minWord s.rxLen s.rxCap, ctl := .idle, pos := 0,
                                    rsp := some (minWord s.rxLen s.rxCap) }
  | acceptReset (s : State) (c : Byte) (rest : List Byte) (hr : s.rsp = none) (hh : s.hs = .reset) (hc : s.ctl = .validating)
      (hp : s.pos ≠ 0) (hq : s.rxq = c :: rest) (hm : s.acc = joinBytes s.candHi c) :
      Effect s { s.took c rest with index := s.index + 1, ctl := .idle, hs := .check, pos := 0 }
  /-- `Accepted` as a state of its own, which no run reaches (R173). -/
  | accepted (s : State) (hr : s.rsp = none) (hh : s.mayRun) (hc : s.ctl = .accepted) : Effect s s.finishAccept
  | retryWait (s : State) (hr : s.rsp = none) (hh : s.mayRun) (hc : s.ctl = .retrying) (hp : s.pos = 0) :
      Effect s { s with t0 := s.waitStart, waiting := true }
  | retryElapsed (s : State) (hr : s.rsp = none) (hh : s.mayRun) (hc : s.ctl = .retrying) (hp : s.pos = 0) :
      Effect s { s with t0 := s.waitStart, pos := s.pos + 1, waiting := false }
  | retryDrain (s : State) (hr : s.rsp = none) (hh : s.mayRun) (hc : s.ctl = .retrying) (hp : s.pos ≠ 0) (hq : s.rxq ≠ []) :
      Effect s { s with rxq := [] }
  | retryReturn (s : State) (hr : s.rsp = none) (hh : s.mayRun) (hc : s.ctl = .retrying) (hq : s.rxq = []) :
      Effect s { s with ctl := .sending, pos := 0, waiting := false }
  | hsDrain (s : State) (hr : s.rsp = none) (hh : s.hs = .settle ∧ s.pos = 0 ∨ s.hs = .drain) (hq : s.rxq ≠ []) :
      Effect s { s with rxq := [] }
  | settleDrained (s : State) (hr : s.rsp = none) (hh : s.hs = .settle) (hq : s.rxq = []) :
      Effect s { s with pos := s.pos + 1, waiting := false }
  | hsWait (s : State) (hr : s.rsp = none) (hh : s.hs ∈ [.settle, .interrupt, .blank1, .blank2, .activate]) :
      Effect s { s with t0 := s.waitStart, waiting := true }
  | hsString (s : State) (b : Byte) (hr : s.rsp = none) (hh : s.hs ∈ [.interrupt, .blank1, .blank2, .activate]) :
      Effect s { s with txlog := s.txlog ++ [b], pos := s.pos + 1, waiting := false }
  | hsNext (s : State) (after : HsState) (hr : s.rsp = none)
      (hh : (s.hs, after) ∈ [(HsState.settle, HsState.settle), (.settle, .interrupt), (.interrupt, .blank1), (.blank1, .blank2),
        (.blank2, .activate), (.activate, .drain)]) :
      Effect s { s with t0 := s.waitStart, hs := after, pos := 0, waiting := false }
  | hsReset (s : State) (hr : s.rsp = none) (hh : s.hs = .drain) (hq : s.rxq = []) :
      Effect s { s with hs := .reset, ctl := .sending, pos := 0, waiting := false }
  | hsDone (s : State) (n : Nat) (hr : s.rsp = none) (hh : s.hs = .check) :
      Effect s { s with freeCount := n, hs := .idle, pos := 0, waiting := false, rsp := some 0 }
  | hsHalt (s : State) (n : Nat) (hr : s.rsp = none) (hh : s.hs = .check) :
      Effect s { s with freeCount := n, hs := .halted, pos := 0, waiting := false }

/-- A step of FC_SEND is one of the effects. -/
theorem execFcSend_effect {s t : State} (hr : s.rsp = none) (hh : s.mayRun) (hc : s.ctl = .sending) (h : execFcSend s = .next t) :
    Effect s t := by
  cases ht : s.txReady with
  | false => rw [execFcSend_not_ready ht h]; exact .rest s
  | true =>
    rcases execFcSend_ready ht h with ⟨hp, rfl⟩ | ⟨hp, hl, b, rfl⟩ | ⟨hp, hl, b, rfl⟩ | ⟨hp, hl, rfl⟩ | ⟨hp, hl, rfl⟩
    · exact .sendMarker s hr hh hc hp
    · exact .sendByte s b hr hh hc hp (.inr hl)
    · exact .sendByte s b hr hh hc hp (.inl hl)
    · exact .sendHigh s hr hh hc hp hl
    · exact .sendLow s hr hh hc hp hl

/-- A step of the payload phase is one of the effects. -/
theorem recvPayload_effect {s t : State} (hr : s.rsp = none) (hh : s.mayRun) (hc : s.ctl = .receivingPayload)
    (h : s.recvPayload = .next t) : Effect s t := by
  have hcv : s.receiving := .inr (.inr (.inl hc))
  rcases recvPayload_cases h with ⟨he, rfl⟩ | ⟨-, hq, rfl⟩ | ⟨-, hq, rfl⟩ | ⟨he, c, rest, u, hq, hu, rfl⟩
  · exact .payloadEnd s hr hh hc he
  · exact .wait s hr hh hcv hq
  · exact .giveUp s hr hh hcv hq
  · have key : ∀ (m : List Host.Cell) (r : Byte), u = { (s.took c rest).fold c with mem := m, hsReply := r } →
        ((s.hs = .idle ∧ s.rxCnt < s.rxCap ∧ s.sinkAddr < Config.memSize ∧ m = Memory.set s.mem s.sinkAddr c ∧ r = s.hsReply) ∨
          (s.hs = .reset ∧ m = s.mem ∧ r = c ∧ s.rxCnt < 1) ∨ (¬ s.rxCnt < s.activeCap ∧ m = s.mem ∧ r = s.hsReply)) →
        Effect s u.countReplyByte := by
      intro m r hu hm
      subst hu
      rcases countReplyByte_cases { (s.took c rest).fold c with mem := m, hsReply := r } with ⟨hn, ht⟩ | ⟨hn, ht⟩ <;> rw [ht]
      · exact .payloadByte s c rest m r hr hh hc he hq hm .validating 0 (.inl ⟨hn, rfl, rfl⟩)
      · have := Effect.payloadByte s c rest m r hr hh hc he hq hm .receivingPayload s.pos (.inr ⟨hn, rfl, rfl⟩)
        rw [← hc] at this
        exact this
    rcases storeReplyByte_cases hu with ⟨hcap, hs, rfl⟩ | ⟨hcap, hs, ha, rfl⟩ | ⟨hcap, rfl⟩
    · have hs' : s.hs = .reset := hs
      refine key s.mem c rfl (.inr (.inl ⟨hs', rfl, rfl, ?_⟩))
      simpa [State.activeCap, hs', State.took, State.fold] using hcap
    · have hi : s.hs = .idle := hh.resolve_right hs
      refine key _ s.hsReply rfl (.inl ⟨hi, ?_, ha, rfl, rfl⟩)
      simpa [State.activeCap, hi, State.took, State.fold] using hcap
    · exact key s.mem s.hsReply rfl (.inr (.inr ⟨hcap, rfl, rfl⟩))

/-- A step of the controller is one of the effects. -/
theorem controllerStep_effect {s t : State} (hr : s.rsp = none) (hh : s.mayRun) (h : controllerStep s = .next t) : Effect s t := by
  rcases controllerStep_cases h with ⟨-, rfl⟩ | ⟨hc, h⟩ | ⟨hc, h⟩ | ⟨hc, h⟩ | ⟨hc, h⟩ | ⟨hc, h⟩ | ⟨hc, rfl⟩ | ⟨hc, rfl⟩
  · exact .rest t
  · exact execFcSend_effect hr hh hc h
  · have hcv : s.receiving := .inl hc
    rcases recvMarker_cases h with ⟨hq, rfl⟩ | ⟨hq, rfl⟩ | ⟨c, rest, hq, ⟨rfl, rfl⟩ | ⟨-, rfl⟩⟩
    · exact .wait s hr hh hcv hq
    · exact .giveUp s hr hh hcv hq
    · exact .marker s rest hr hh hc hq
    · exact .reject s c rest hr hh hcv hq
  · have hcv : s.receiving := .inr (.inl hc)
    rcases recvHeader_cases h with ⟨hq, rfl⟩ | ⟨hq, rfl⟩ | ⟨c, rest, hq, rfl⟩
    · exact .wait s hr hh hcv hq
    · exact .giveUp s hr hh hcv hq
    · rcases headerByte_cases (s.took c rest) c with ⟨hi, hci, ht⟩ | ⟨hi, -, ht⟩ | ⟨hi, ht⟩ | ⟨h0, h1, ht⟩ <;> rw [ht]
      · have hci : c = s.index := hci
        subst hci
        exact .headerIndex s rest hr hh hc hi hq
      · exact .reject s c rest hr hh hcv hq
      · exact .headerHigh s c rest hr hh hc hi hq
      · exact .headerLow s c rest hr hh hc h0 h1 hq
  · exact recvPayload_effect hr hh hc h
  · have hcv : s.receiving := .inr (.inr (.inr hc))
    rcases recvTrailer_cases h with ⟨hq, rfl⟩ | ⟨hq, rfl⟩ | ⟨c, rest, hq, rfl⟩
    · exact .wait s hr hh hcv hq
    · exact .giveUp s hr hh hcv hq
    · rcases trailerByte_cases (s.took c rest) c with ⟨hp, ht⟩ | ⟨hp, hm, ht⟩ | ⟨hp, hm, ht⟩ <;> rw [ht]
      · exact .trailerHigh s c rest hr hh hc hp hq
      · rcases accept_eq (s.took c rest) with ⟨hs, ha⟩ | ⟨hs, ha⟩ <;> rw [ha]
        · exact .accept s c rest hr hs hc hp hq hm
        · exact .acceptReset s c rest hr (hh.resolve_left hs) hc hp hq hm
      · exact .reject s c rest hr hh hcv hq
  · exact .accepted s hr hh hc
  · rcases retryStep_cases s with ⟨hp, -, ht⟩ | ⟨hp, -, ht⟩ | ⟨h0, hq, ht⟩ | ⟨-, hq, ht⟩ <;> rw [ht]
    · exact .retryWait s hr hh hc hp
    · exact .retryElapsed s hr hh hc hp
    · exact .retryDrain s hr hh hc h0 hq
    · exact .retryReturn s hr hh hc hq

/-- Every step of the block is one of the effects. -/
theorem blockStep_effect {s t : State} (h : blockStep s = .next t) : Effect s t := by
  rcases blockStep_cases h with ⟨v, hr, rfl⟩ | ⟨hr, ⟨-, -, -, rfl⟩ | ⟨hh, hc, w, rest, hq, h⟩ | ⟨hh, h⟩ | ⟨hh, rfl⟩ |
    ⟨str, ms, after, hs, rfl⟩ | ⟨hh, rfl⟩ | ⟨hh, rfl⟩ | ⟨-, rfl⟩⟩
  · exact .deliver s v hr
  · exact .rest t
  · rcases execHost_cases h with h | ⟨hl, hb, rfl⟩ | rfl
    · exact .respond s t w rest hr hh hc hq h
    · exact .transfer s w rest hr hh hc hq hl hb
    · exact .begin s w rest hr hh hc hq
  · exact controllerStep_effect hr (hh.imp_left And.left) h
  · rcases settleStep_cases s with ⟨h0, hq, ht⟩ | ⟨-, hq, ht⟩ | ⟨-, -, ht⟩ | ⟨-, -, -, ht⟩ | ⟨-, -, -, ht⟩ <;> rw [ht]
    · exact .hsDrain s hr (.inl ⟨hh, h0⟩) hq
    · exact .settleDrained s hr hh hq
    · exact .hsWait s hr (by simp [hh])
    · exact .hsNext s .settle hr (by simp [hh])
    · exact .hsNext s .interrupt hr (by simp [hh])
  · have hw : s.hs ∈ [HsState.interrupt, .blank1, .blank2, .activate] ∧
        (s.hs, after) ∈ [(HsState.interrupt, HsState.blank1), (.blank1, .blank2), (.blank2, .activate), (.activate, .drain)] := by
      rcases hs with ⟨hh, -, -, ha⟩ | ⟨hh, -, -, ha⟩ | ⟨hh, -, -, ha⟩ | ⟨hh, -, -, ha⟩ <;> simp [hh, ha]
    rcases sendThenDelay_cases s str ms after with ⟨b, -, -, ht⟩ | ⟨-, -, ht⟩ | ⟨-, -, ht⟩ | ⟨-, -, ht⟩ <;> rw [ht]
    · exact .hsString s b hr hw.1
    · exact .rest s
    · exact .hsWait s hr (List.mem_cons_of_mem _ hw.1)
    · exact .hsNext s after hr (List.mem_cons_of_mem _ (List.mem_cons_of_mem _ hw.2))
  · rcases hsDrainStep_cases s with ⟨hq, ht⟩ | ⟨hq, ht⟩ <;> rw [ht]
    · exact .hsDrain s hr (.inr hh) hq
    · exact .hsReset s hr hh hq
  · obtain ⟨n, -, ht | ht⟩ := hsCheckStep_cases s <;> rw [ht]
    · exact .hsDone s n hr hh
    · exact .hsHalt s n hr hh
  · exact .rest t

end Sys2Proof.Machine
end

