-- ==== Sys2Proof/Laws/PerInstr.lean ====
section
/-! SUPPORT. Statements for all operations, one lemma per constructor. -/

/-- Which operations have a code, and the `op` field of a command word (spec/30_encoding.md R90, R92): only the host operations and
the reserved words have a word, and a legal operation's `op` is at most 8. -/
def Sys2Proof.Laws.HostWord.Statement (i : Sys2Proof.Instr) : Prop :=
  ∀ w : Sys2Proof.Cmd, Sys2Proof.encode i = some (.host w) → (Sys2Proof.opField w).toNat ≤ 8 ∨ i = .reserved w

namespace Sys2Proof.Laws.HostWord

theorem nop : Statement .nop := by
  intro w h
  cases h
  left
  rw [opField_cmdWord]
  decide

theorem ckReset : Statement .ckReset := by
  intro w h
  cases h
  left
  rw [opField_cmdWord]
  decide

theorem ckUpdate (b : Byte) : Statement (.ckUpdate b) := by
  intro w h
  cases h
  left
  rw [opField_cmdWord]
  decide

theorem ckFinalize : Statement .ckFinalize := by
  intro w h
  cases h
  left
  rw [opField_cmdWord]
  decide

theorem ckMatches (cand : Word) : Statement (.ckMatches cand) := by
  intro w h
  cases h
  left
  rw [opField_cmdWord]
  decide

theorem wrreg (r : HostReg) (v : Word) : Statement (.wrreg r v) := by
  intro w h
  cases h
  left
  rw [opField_cmdWord]
  decide

theorem rdreg (r : HostReg) : Statement (.rdreg r) := by
  intro w h
  cases h
  left
  rw [opField_cmdWord]
  decide

theorem transfer : Statement .transfer := by
  intro w h
  cases h
  left
  rw [opField_cmdWord]
  decide

theorem beginHs : Statement .beginHs := by
  intro w h
  cases h
  left
  rw [opField_cmdWord]
  decide

theorem timedRead (t : Nat) : Statement (.timedRead t) := by
  intro w h
  cases h

theorem delay (t : Nat) : Statement (.delay t) := by
  intro w h
  cases h

theorem drain : Statement .drain := by
  intro w h
  cases h

theorem emit (b : Byte) : Statement (.emit b) := by
  intro w h
  cases h

theorem fcSend : Statement .fcSend := by
  intro w h
  cases h

theorem fcRecv : Statement .fcRecv := by
  intro w h
  cases h

theorem get (p : Placement) (key : List Byte) : Statement (.get p key) := by
  intro w h
  cases h

theorem put (p : Placement) (key : List Byte) (value : List Byte) : Statement (.put p key value) := by
  intro w h
  cases h

theorem msgSend (p : Placement) (msg : List Byte) : Statement (.msgSend p msg) := by
  intro w h
  cases h

theorem msgRecv (p : Placement) : Statement (.msgRecv p) := by
  intro w h
  cases h

theorem msgCount (p : Placement) : Statement (.msgCount p) := by
  intro w h
  cases h

theorem jsonSend (p : Placement) (text : List Byte) : Statement (.jsonSend p text) := by
  intro w h
  cases h

theorem payDequeue : Statement .payDequeue := by
  intro w h
  cases h

theorem payEnqueue : Statement .payEnqueue := by
  intro w h
  cases h

theorem payJson : Statement .payJson := by
  intro w h
  cases h

theorem payCount : Statement .payCount := by
  intro w h
  cases h

theorem payStore : Statement .payStore := by
  intro w h
  cases h

theorem payFetch : Statement .payFetch := by
  intro w h
  cases h

theorem payReset : Statement .payReset := by
  intro w h
  cases h

theorem reserved (w : Cmd) : Statement (.reserved w) := by
  intro v h
  cases h
  exact .inr rfl

end Sys2Proof.Laws.HostWord
end

