-- ==== Sys2Proof/Tests/Slice0.lean ====
section
/-! SUPPORT. Tests. Expected values are those of spec/95_test_vectors.md (named K1, F3, V8, ... as there) or are written out from the
encodings of spec/30_encoding.md. Each theorem named `witness_<statement>` shows that the hypotheses of that statement are met
together, clause by clause, at a boundary value of the clause where it has one. -/

namespace Sys2Proof.Tests

open Sys2Proof.Machine

/-- The answer is a next state that passes a check. -/
def after (o : Answer) (f : State → Bool) : Bool :=
  match o with
  | .next t => f t
  | .fault _ => false
  | .refused _ => false

/-- The answer is a refusal with this reason. -/
def refusedWith (o : Answer) (r : Refusal) : Bool :=
  match o with
  | .refused q => decide (q = r)
  | .next _ => false
  | .fault _ => false

/-- The reset state, placed in a state of the controller and of the handshake. -/
def place (c : CtlState) (h : HsState) (pos : Nat) : State :=
  { State.reset with ctl := c, hs := h, pos := pos, started := true }

/-! ### WellFormed: one ill-formed term for each check, refused -/

theorem test_wf_refuses_wrreg_of_result_len : Instr.wf (.wrreg .resultLen 0) = false := by decide
theorem test_wf_refuses_wrreg_of_status : Instr.wf (.wrreg .status 0) = false := by decide
theorem test_wf_refuses_timeout_of_6_ms : Instr.wf (.timedRead 6) = false := by decide
theorem test_wf_refuses_delay_of_5_ms : Instr.wf (.delay 5) = false := by decide
theorem test_wf_refuses_key_past_memory : Instr.wf (.get ⟨0x100, 0xFFFE, 0, 0x300, 16⟩ [1, 2, 3]) = false := by decide
theorem test_wf_takes_key_at_memory_end : Instr.wf (.get ⟨0x100, 0xFFFE, 0, 0x300, 16⟩ [1, 2]) = true := by decide
theorem test_wf_refuses_value_past_memory : Instr.wf (.put ⟨0, 0x10, 0xFFFF, 0x300, 16⟩ [1] [1, 2]) = false := by decide
theorem test_wf_refuses_letter_and_key_past_memory : Instr.wf (.put ⟨0xFFFF, 0x10, 0x20, 0x300, 16⟩ [1] [1]) = false := by decide
theorem test_wf_refuses_payload_of_65536_bytes :
    Instr.wf (.msgSend ⟨0, 0, 0, 0, 0⟩ (List.replicate 65535 0)) = false := by
  simp only [Instr.wf, placementOk, List.length_replicate]; decide
theorem test_wf_refuses_receive_buffer_past_memory : Instr.wf (.msgRecv ⟨0, 0, 0, 0xFFFF, 2⟩) = false := by decide
theorem test_wf_refuses_count_reply_in_one_byte : Instr.wf (.msgCount ⟨0, 0, 0, 0x300, 1⟩) = false := by decide
theorem test_wf_refuses_reserved_of_a_legal_word : Instr.wf (.reserved 0x570010) = false := by decide
theorem test_wf_takes_reserved_of_a_reserved_word : Instr.wf (.reserved 0x6C0000) = true := by decide

/-! ### Decoding: words written out from R89, R90, R93; every constructor with a code -/

theorem test_decode_nop : decodeHost 0b0000_0000_0000000000000000 = .nop := by decide
theorem test_decode_ck_reset : decodeHost 0b0001_0000_0000000000000000 = .ckReset := by decide
theorem test_decode_ck_update : decodeHost 0b0010_0000_0000000001000001 = .ckUpdate 0x41 := by decide
theorem test_decode_ck_finalize : decodeHost 0b0011_0000_0000000000000000 = .ckFinalize := by decide
theorem test_decode_ck_matches : decodeHost 0b0100_0000_1010100011101000 = .ckMatches 0xA8E8 := by decide
theorem test_decode_wrreg : decodeHost 0b0101_0001_0000000000000001 = .wrreg .seg1Len 1 := by decide
theorem test_decode_wrreg_last : decodeHost 0b0101_0111_1111111111111111 = .wrreg .rxCap 0xFFFF := by decide
theorem test_decode_rdreg : decodeHost 0b0110_1001_0000000000000000 = .rdreg .index := by decide
theorem test_decode_transfer : decodeHost 0b0111_0000_0000000000000000 = .transfer := by decide
theorem test_decode_begin : decodeHost 0b1000_0000_0000000000000000 = .beginHs := by decide
theorem test_decode_pay_dequeue : decode (.payload [0x6D]) = .ok .payDequeue := by decide
theorem test_decode_pay_enqueue : decode (.payload [0x4D, 0x68, 0x69]) = .ok .payEnqueue := by decide
theorem test_decode_pay_json : decode (.payload [0x4A]) = .ok .payJson := by decide
theorem test_decode_pay_count : decode (.payload [0x6E]) = .ok .payCount := by decide
theorem test_decode_pay_store : decode (.payload [0x44, 0x66, 0xFE, 0x62]) = .ok .payStore := by decide
theorem test_decode_pay_fetch : decode (.payload [0x64, 0x66, 0x6F, 0x6F]) = .ok .payFetch := by decide
theorem test_decode_pay_reset : decode (.payload [0x58, 0x58, 0x31, 0x30, 0x30]) = .ok .payReset := by decide
theorem test_decode_refuses_other_byte : decode (.payload [0x58]) = .error (.notAPayloadCommand 0x58) := by decide
theorem test_decode_refuses_empty_payload : decode (.payload []) = .error .emptyPayload := by decide

/-- The reserved words of spec/95_test_vectors.md 2.5. -/
theorem test_decode_reserved_words :
    ([0x900000, 0xF00000, 0xFFFFFF, 0x100001, 0x210041, 0x200141, 0x310000, 0x300001, 0x41A8E8, 0x580000, 0x5A1234, 0x5F0000,
      0x6C0000, 0x6F0000, 0x690001, 0x700001, 0x710000, 0x800001, 0x810000, 0x010000, 0x000001] : List Cmd).all
      (fun w => decide (decodeHost w = .reserved w) && !legalWord w) = true := by decide

/-- No two host rows share a word: their patterns differ in a bit both masks fix (R91, R100). -/
theorem test_host_rows_are_apart :
    hostRows.Pairwise (fun a b => (a.pattern ^^^ b.pattern) &&& a.mask &&& b.mask ≠ 0) := by decide

theorem test_decodeTableWord_host : decodeTableWord 24 0x40A8E8 = some (.ckMatches 0xA8E8) := by decide
theorem test_decodeTableWord_letter : decodeTableWord 8 0x6E = some .payCount := by decide
theorem test_decodeTableWord_string : decodeTableWord 40 0x3030315858 = some .payReset := by decide

/-- The interface's word is the very next instruction of the reset state. -/
theorem test_withFetchWord_host :
    after (step (State.reset.withFetchWord 24 0x2000FF)) (fun t => decide (t.acc = 0x55AA ∧ t.rsp = some 0)) = true := by decide
theorem test_withFetchWord_letter :
    after (step (State.reset.withFetchWord 8 0x64)) (fun t => decide (t.txlog = [0x64] ∧ t.pos = 5)) = true := by decide
theorem test_withFetchWord_string :
    after (step (State.reset.withFetchWord 40 0x3030315858)) (fun t => decide (t.txlog = [0x58] ∧ t.pos = 5)) = true := by decide
theorem test_withFetchWord_reserved :
    refusedWith (step (State.reset.withFetchWord 24 0x900000)) (.reservedWord 0x900000) = true := by decide

/-! ### Checksums and frames (sections 2.1, 2.2, 2.3, 2.7) -/

theorem test_ck_steps : ckUpdate 0xAAAA 0xFF = 0x55AA ∧ ckUpdate 0x1234 0x56 = 0x6212 ∧ ckUpdate 0x8000 0x01 = 0x0180 := by decide
theorem test_ck_strings :
    ck [] = 0xAAAA ∧ ck [0x41, 0x42, 0x43] = 0xA8E8 ∧
    ck [0x31, 0x32, 0x33, 0x34, 0x35, 0x36, 0x37, 0x38, 0x39] = 0x93A2 ∧ ck [1, 2, 3] = ck [3, 2, 1] ∧ ck [2, 1, 3] = 0xABAB := by
  decide
theorem test_frame_F3 :
    frame 0 [0x64, 0x66, 0x6F, 0x6F] = [0xFF, 0x00, 0x00, 0x04, 0x64, 0x66, 0x6F, 0x6F, 0xA7, 0x5E] := by decide
theorem test_frame_F17_no_escaping : frame 255 [0xFF, 0xFF] = [0xFF, 0xFF, 0x00, 0x02, 0xFF, 0xFF, 0xA8, 0xAA] := by decide
theorem test_parse_refuses_V7 : parseFrame [0xFF, 0x00, 0x00, 0x03, 0x62, 0x61, 0x72, 0xC8, 0x45] = none := by decide

/-! ### One step of each operation -/

/-- K14. -/
theorem test_ck_reset :
    after (exec .ckReset { State.reset with acc := 0x1234 }) (fun t => decide (t.acc = 0xAAAA ∧ t.rsp = some 0)) = true := by decide
/-- K16. -/
theorem test_ck_finalize :
    after (exec .ckFinalize { State.reset with acc := 0xA75E }) (fun t => decide (t.acc = 0xA75E ∧ t.rsp = some 0xA75E)) = true := by
  decide
/-- K17. -/
theorem test_ck_matches :
    after (exec (.ckMatches 0x45C8) { State.reset with acc := 0x45C8 })
      (fun t => decide (t.matchFlag = true ∧ t.rsp = some 1)) = true := by decide
/-- K18: the bytes exchanged do not match. -/
theorem test_ck_matches_not :
    after (exec (.ckMatches 0xC845) { State.reset with acc := 0x45C8, matchFlag := true })
      (fun t => decide (t.matchFlag = false ∧ t.rsp = some 0)) = true := by decide
/-- Q9. -/
theorem test_nop : after (exec .nop State.reset) (fun t => decide (t = { State.reset with rsp := some 0 })) = true := by decide
/-- Q4. -/
theorem test_wrreg :
    after (exec (.wrreg .rxCap 0x1234) State.reset) (fun t => decide (t.rxCap = 0x1234 ∧ t.rxBase = 0 ∧ t.rsp = some 0)) = true := by
  decide
/-- Q7. -/
theorem test_rdreg_status :
    after (exec (.rdreg .status) { State.reset with started := true, matchFlag := true }) (fun t => decide (t.rsp = some 3)) = true := by
  decide
/-- Q8. -/
theorem test_rdreg_index :
    after (exec (.rdreg .index) { State.reset with index := 255 }) (fun t => decide (t.rsp = some 0x00FF)) = true := by decide
/-- X4 and X7: a total of 65535 bytes, and a segment that ends at 0xFFFF. -/
theorem test_transfer_takes_longest :
    after (exec .transfer { State.reset with seg1Len := 0x8000, seg2Base := 0x8001, seg2Len := 0x7FFF })
      (fun t => decide (t.ctl = .sending)) = true := by decide
/-- X5 and X6. -/
theorem test_transfer_refuses :
    refusedWith (exec .transfer { State.reset with seg1Len := 0x8000, seg2Len := 0x8000 }) .payloadTooLong = true ∧
    refusedWith (exec .transfer { State.reset with seg1Base := 0xFFFE, seg1Len := 3 }) .bufferPastMemory = true := by decide
/-- R202. -/
theorem test_begin : after (exec .beginHs State.reset) (fun t => decide (t.started = true ∧ t.hs = .settle)) = true := by decide
/-- H6. -/
theorem test_begin_again :
    after (exec .beginHs { State.reset with started := true }) (fun t => decide (t.hs = .idle ∧ t.rsp = some 0)) = true := by decide
/-- T1. -/
theorem test_timed_read_byte :
    after (exec (.timedRead 100) { State.reset with rxq := [0xFF, 0x00] })
      (fun t => decide (t.timedResult = .byte 0xFF ∧ t.rxq = [0x00])) = true := by decide
/-- T2, at its last poll. -/
theorem test_timed_read_timeout :
    after (exec (.timedRead 5) { State.reset with waiting := true, t0 := 7, nowMs := 12 })
      (fun t => decide (t.timedResult = .timeout)) = true := by decide
/-- T4: the wait ends at 0x54, over the clock's wrap, and not 1 ms before. -/
theorem test_delay_over_the_wrap :
    after (exec (.delay 100) { State.reset with waiting := true, t0 := 0xFFFFFFF0, nowMs := 0x54 })
      (fun t => decide (t.waiting = false)) = true ∧
    after (exec (.delay 100) { State.reset with waiting := true, t0 := 0xFFFFFFF0, nowMs := 0x53 })
      (fun t => decide (t.waiting = true)) = true := by decide
/-- T5. -/
theorem test_drain :
    after (exec .drain { State.reset with rxq := [0x0D, 0x0A, 0x55] }) (fun t => decide (t.rxq = [] ∧ t.acc = 0xAAAA)) = true := by
  decide
/-- T7. -/
theorem test_emit : after (exec (.emit 0xFF) State.reset) (fun t => decide (t.txlog = [0xFF] ∧ t.acc = 0x55AA)) = true := by decide
/-- F1's first byte: the marker is folded into the seed. -/
theorem test_fc_send_marker :
    after (exec .fcSend (place .sending .idle 0)) (fun t => decide (t.txlog = [0xFF] ∧ t.acc = 0x55AA ∧ t.pos = 1)) = true := by decide
/-- F1's last byte: low byte of the trailer, not folded. -/
theorem test_fc_send_last :
    after (exec .fcSend { place .sending .idle 5 with acc := 0xAA55 })
      (fun t => decide (t.txlog = [0x55] ∧ t.acc = 0xAA55 ∧ t.ctl = .awaitingAck)) = true := by decide
/-- V7: the second trailer byte does not match. -/
theorem test_fc_recv_mismatch :
    after (exec .fcRecv { place .validating .idle 1 with acc := 0x45C8, candHi := 0xC8, rxq := [0x45] })
      (fun t => decide (t.ctl = .retrying ∧ t.index = 0)) = true := by decide
/-- V8 and X2: accepted, 3 stored, the index wraps. -/
theorem test_fc_recv_accept :
    after (exec .fcRecv { place .validating .idle 1 with index := 255, acc := 0x45C8, candHi := 0x45, rxq := [0xC8], rxLen := 3, rxCap := 4 })
      (fun t => decide (t.ctl = .idle ∧ t.index = 0 ∧ t.rsp = some 3)) = true := by decide
/-- S8: GET "foo" asks with the payload `64 66 6F 6F`. -/
theorem test_get :
    after (exec (.get ⟨0x100, 0x200, 0, 0x300, 16⟩ [0x66, 0x6F, 0x6F]) State.reset)
      (fun t => decide (t.activePayload = [0x64, 0x66, 0x6F, 0x6F] ∧ t.ctl = .sending)) = true := by decide
/-- F9's payload. -/
theorem test_put :
    after (exec (.put ⟨0x100, 0x200, 0x210, 0x300, 16⟩ [0x66, 0x6F, 0x6F] [0x62, 0x61, 0x72]) State.reset)
      (fun t => decide (t.activePayload = [0x44, 0x66, 0x6F, 0x6F, 0xFE, 0x62, 0x61, 0x72])) = true := by decide
/-- F15's payload. -/
theorem test_msg_send :
    after (exec (.msgSend ⟨0x100, 0x200, 0, 0x300, 16⟩ [0x68, 0x69]) State.reset)
      (fun t => decide (t.activePayload = [0x4D, 0x68, 0x69])) = true := by decide
/-- F14's payload. -/
theorem test_msg_recv :
    after (exec (.msgRecv ⟨0x100, 0, 0, 0x300, 16⟩) State.reset) (fun t => decide (t.activePayload = [0x6D] ∧ t.rxCap = 16)) = true := by
  decide
/-- F5's payload. -/
theorem test_msg_count :
    after (exec (.msgCount ⟨0x100, 0, 0, 0x300, 2⟩) State.reset) (fun t => decide (t.activePayload = [0x6E])) = true := by decide
/-- S9: 300 messages. -/
theorem test_msg_count_value :
    { State.reset with rxBase := 0x300, resultLen := 2, mem := [(0x300, 0x01), (0x301, 0x2C)] }.messageCount = some 300 := by decide
/-- F16's payload, shortened. -/
theorem test_json_send :
    after (exec (.jsonSend ⟨0x100, 0x200, 0, 0x300, 16⟩ [0x7B, 0x7D]) State.reset)
      (fun t => decide (t.activePayload = [0x4A, 0x7B, 0x7D])) = true := by decide
/-- The third byte of `"XX100"`. -/
theorem test_pay_reset :
    after (exec .payReset (place .sending .reset 6)) (fun t => decide (t.txlog = [0x31] ∧ t.pos = 7)) = true := by decide
theorem test_pay_letters :
    [Instr.payDequeue, .payEnqueue, .payJson, .payCount, .payStore, .payFetch].map
      (fun i => after (exec i State.reset) (fun t => decide (t.txlog ∈ [[0x6D], [0x4D], [0x4A], [0x6E], [0x44], [(0x64 : Byte)]]))) =
      [true, true, true, true, true, true] := by decide

/-! ### Witnesses: the hypotheses of each statement are met -/

theorem witness_DecodeOfEncodeIsTheInstruction :
    Instr.wf (.wrreg .rxCap 0xFFFF) = true ∧ encode (.wrreg .rxCap 0xFFFF) = some (.host 0x57FFFF) ∧
    Instr.wf (.reserved 0x580000) = true ∧ encode (.reserved 0x580000) = some (.host 0x580000) ∧
    Instr.wf .payReset = true ∧ encode .payReset = some (.payload [0x58, 0x58, 0x31, 0x30, 0x30]) := by decide

theorem witness_ReservedWordsAreTheIllegalOnes :
    legalFields 0x57FFFF ∧ legalFields 0x6B0000 ∧ legalFields 0x2000FF ∧ ¬ legalFields 0x580000 ∧ ¬ legalFields 0x6C0000 ∧
    ¬ legalFields 0x200100 ∧ ¬ legalFields 0x900000 := by
  refine ⟨?_, ?_, ?_, ?_, ?_, ?_, ?_⟩ <;> (unfold legalFields; dsimp only; decide)

theorem witness_ParsingAFrameRecoversIt :
    ([] : List Byte).length ≤ 65535 ∧ (List.replicate 65535 (0x5A : Byte)).length ≤ 65535 :=
  ⟨Nat.zero_le _, le_of_eq List.length_replicate⟩

theorem witness_ByteChangeDetectedEvenExchangeNot : (0x61 : Byte) ≠ 0x63 := by decide

theorem witness_CkMatchesLatchesComparison : State.reset.acc = 0xAAAA ∧ State.reset.acc ≠ 0xAAAB := by decide

theorem witness_WrregWritesOneDescriptor : HostReg.writable .rxCap = true ∧ HostReg.writable .resultLen = false := by decide

theorem witness_RdregRespondsWithRegister : HostReg.status = .status := rfl

/-- X4, X7 and X8 meet R162; X5 and X6 do not. -/
theorem witness_TransferEntersSendingOrIsRefused :
    transferPre { State.reset with seg1Len := 0x8000, seg2Base := 0x8001, seg2Len := 0x7FFF } ∧
    transferPre { State.reset with seg1Base := 0xFFFE, seg1Len := 2, seg2Base := 0xFFFF, rxBase := 0xFFFF, rxCap := 1 } ∧
    ¬ transferPre { State.reset with seg1Len := 0x8000, seg2Len := 0x8000 } ∧
    ¬ transferPre { State.reset with seg1Base := 0xFFFE, seg1Len := 3 } := by unfold transferPre; decide

theorem witness_BeginRunsOnlyOnce : State.reset.started = false ∧ { State.reset with started := true }.started = true := by decide

theorem witness_TimedReadTakesOrWaitsOrGivesUp :
    { State.reset with rxq := [0xFF] }.rxq = 0xFF :: [] ∧
    (State.reset.rxq = [] ∧ 100 ≤ { State.reset with waiting := true, nowMs := 100 }.waitedMs) ∧
    { State.reset with waiting := true, nowMs := 99 }.waitedMs < 100 := by decide

theorem witness_DelayEndsWhenElapsed :
    1100 ≤ { State.reset with waiting := true, nowMs := 1100 }.waitedMs ∧
    { State.reset with waiting := true, nowMs := 1099 }.waitedMs < 1100 := by decide

theorem witness_EmitWritesAndFolds : State.reset.txReady = true ∧ { State.reset with txReady := false }.txReady = false := by decide

theorem witness_FcSendEmitsTheHeader :
    State.reset.txReady = true ∧ [0, 1, 2, 3].map (fun p => (place .sending .idle p).pos) = [0, 1, 2, 3] ∧
    ({ place .sending .idle 3 with txReady := false }.txReady = false ∧ (place .sending .idle 3).pos < 4) := by decide

/-- A byte of each segment: the last byte of memory, and the last byte of the reset command. -/
theorem witness_FcSendEmitsEachPayloadByte :
    let s := { place .sending .idle 4 with txLen := 3, seg1Base := 0xFFFF, seg1Len := 1, seg2Base := 0xFFFF, seg2Len := 1,
                                           seg3Base := 0xFFFF, seg3Len := 1 }
    let r := { place .sending .reset 8 with txLen := 5 }
    s.txReady = true ∧
    (s.hs ≠ .reset ∧ 0 < s.seg1Len.toNat ∧ s.pos = 4 + 0 ∧ 0 < s.txLen.toNat ∧ s.seg1Base.toNat + 0 < 65536) ∧
    (0 < s.seg2Len.toNat ∧ { s with pos := 5 }.pos = 4 + s.seg1Len.toNat + 0 ∧ s.seg1Len.toNat + 0 < s.txLen.toNat ∧
      s.seg2Base.toNat + 0 < 65536) ∧
    (0 < s.seg3Len.toNat ∧ { s with pos := 6 }.pos = 4 + s.seg1Len.toNat + s.seg2Len.toNat + 0 ∧
      s.seg1Len.toNat + s.seg2Len.toNat + 0 < s.txLen.toNat ∧ s.seg3Base.toNat + 0 < 65536) ∧
    (r.hs = .reset ∧ r.pos = 4 + 4 ∧ 4 < r.txLen.toNat ∧ Config.hsResetCmd[4]? = some 0x30) := by decide

theorem witness_FcSendWritesTheTrailer :
    (place .sending .idle 4).txReady = true ∧ (place .sending .idle 4).pos = 4 + (place .sending .idle 4).txLen.toNat ∧
    (place .sending .idle 5).pos = 5 + (place .sending .idle 5).txLen.toNat ∧
    ({ place .sending .idle 4 with txReady := false }.txReady = false ∧
      4 + (place .sending .idle 4).txLen.toNat ≤ (place .sending .idle 4).pos) := by decide

theorem witness_FcRecvMarkerPhase :
    let s := { place .awaitingAck .idle 0 with rxq := [0xFF, 0x00] }
    s.ctl = .awaitingAck ∧ s.rxq = 0xFF :: [0x00] ∧ { s with rxq := [0x0A] }.rxq = 0x0A :: [] ∧ (0x0A : Byte) ≠ 0xFF := by decide

theorem witness_FcRecvHeaderPhase :
    let s := { place .receivingHeader .idle 0 with rxq := [0x00, 0x00] }
    s.ctl = .receivingHeader ∧ s.rxq = 0x00 :: [0x00] ∧ (s.hdrI = 0 ∧ 0x00 = s.index ∧ 0x00 ≠ { s with index := 1 }.index) ∧
    { s with hdrI := 1 }.hdrI = 1 ∧ { s with hdrI := 2 }.hdrI = 2 := by decide

/-- A host transfer that stores at 0xFFFF, one that drops, the reset transfer's first byte and a later one. -/
theorem witness_FcRecvPayloadPhase :
    let s := { place .receivingPayload .idle 0 with rxq := [0x62], rxLen := 3, rxCnt := 1, rxBase := 0xFFFE, rxCap := 2 }
    let r := { s with hs := .reset, rxCnt := 0 }
    (s.ctl = .receivingPayload ∧ { s with rxCnt := 3 }.rxCnt = s.rxLen) ∧
    (s.rxCnt ≠ s.rxLen ∧ s.rxq = 0x62 :: []) ∧ (s.hs ≠ .reset ∧ s.rxCnt < s.rxCap ∧ s.rxBase.toNat + s.rxCnt.toNat < 65536) ∧
    ¬ { s with rxCnt := 2 }.rxCnt < s.rxCap ∧ (r.hs = .reset ∧ r.rxCnt = 0 ∧ { r with rxCnt := 1 }.rxCnt ≠ 0) := by decide

theorem witness_FcRecvTrailerPhaseAndAccept :
    let s := { place .validating .idle 0 with rxq := [0xC8], acc := 0x45C8, candHi := 0x45, rxLen := 3, rxCap := 3 }
    s.ctl = .validating ∧ s.rxq = 0xC8 :: [] ∧ s.pos = 0 ∧ { s with pos := 1 }.pos = 1 ∧
    { s with acc := 0xC845 }.acc ≠ joinBytes s.candHi 0xC8 ∧ s.acc = joinBytes s.candHi 0xC8 ∧ s.hs = .idle ∧
    (3 : Word).toNat = min s.rxLen.toNat s.rxCap.toNat ∧ { s with hs := .reset }.hs = .reset := by decide

theorem witness_FcRecvTimeoutsAbandonTheAttempt :
    let s := { place .awaitingAck .idle 0 with waiting := true, rxLen := 1 }
    s.rxq = [] ∧ (s.ctl = .awaitingAck ∧ 100 ≤ { s with nowMs := 100 }.waitedMs ∧ { s with nowMs := 99 }.waitedMs < 100) ∧
    5 ≤ { s with ctl := .receivingHeader, nowMs := 5 }.waitedMs ∧ { s with ctl := .receivingHeader, nowMs := 4 }.waitedMs < 5 ∧
    (s.rxCnt ≠ s.rxLen ∧ 5 ≤ { s with ctl := .receivingPayload, nowMs := 5 }.waitedMs ∧
      { s with ctl := .receivingPayload, nowMs := 4 }.waitedMs < 5) ∧
    5 ≤ { s with ctl := .validating, nowMs := 5 }.waitedMs ∧ { s with ctl := .validating, nowMs := 4 }.waitedMs < 5 := by decide

theorem witness_PayloadCommandsAreTransmitted :
    State.reset.txReady = true ∧ { State.reset with txReady := false }.txReady = false ∧
    [4, 5, 6, 7, 8].map (fun p => (place .sending .reset p).pos) = [4, 5, 6, 7, 8] ∧
    (let s := { place .sending .idle 4 with txReady := false, txLen := 1, seg1Base := 0xFFFF, seg1Len := 1 }
     s.txReady = false ∧ s.pos = 4 + 0 ∧ 0 < s.txLen.toNat ∧ s.hs ≠ .reset ∧ s.payloadAddr 0 < 65536) ∧
    (let r := { place .sending .reset 8 with txReady := false, txLen := 5 }
     r.txReady = false ∧ r.pos = 4 + 4 ∧ 4 < r.txLen.toNat ∧ r.hs = .reset ∧ 4 < Config.hsResetCmd.length) := by decide

/-- The reset state, and an idle block with another agent's move to come after its own. -/
theorem witness_IdleBlockExecutesNothing :
    let s := { State.reset with sched := [.block, .tick 1] }
    (s.nextMove = .block ∧ s.busy = false ∧ s.rsp = none ∧ s.cmds = []) ∧
    State.reset.nextMove = .block ∧ after (step s) (fun t => decide (t.sched = [.tick 1])) = true := by decide

theorem witness_PseudoOperationsStartTheirTransfer :
    let p : Placement := ⟨0x100, 0xFFFE, 0x200, 0xFFFF, 1⟩
    Instr.wf (.get p [1, 2]) = true ∧ Instr.wf (.put p [1, 2] [3]) = true ∧ Instr.wf (.msgSend p [1, 2]) = true ∧
    Instr.wf (.msgRecv p) = true ∧ Instr.wf (.msgCount { p with ar := 0xFFFE, cap := 2 }) = true ∧
    Instr.wf (.jsonSend p [1, 2]) = true := by decide

/-- Placements that touch but do not overlap, and a next state for each operation. -/
theorem witness_PseudoOperationsRequestPayloads :
    let p : Placement := ⟨0x100, 0x101, 0x103, 0x200, 2⟩
    let q : Placement := ⟨0x100, 0x102, 0x103, 0x200, 2⟩
    State.reset.hs = .idle ∧ Memory.wf State.reset.mem = true ∧
    0x100 + 1 ≤ p.a2.toNat ∧ 0x100 + 2 ≤ q.a2.toNat ∧ q.a2.toNat + 1 ≤ q.a3.toNat ∧
    after (exec (.get p [1, 2]) State.reset) (fun _ => true) = true ∧
    after (exec (.put q [1] [2]) State.reset) (fun _ => true) = true ∧
    after (exec (.msgSend p [1, 2]) State.reset) (fun _ => true) = true ∧
    after (exec (.msgRecv p) State.reset) (fun _ => true) = true ∧
    after (exec (.msgCount p) State.reset) (fun _ => true) = true ∧
    after (exec (.jsonSend p [1, 2]) State.reset) (fun _ => true) = true := by decide

/-- One byte too many, at each place where the model stops. -/
theorem witness_StopsOutsideTheMemory :
    let s := { place .sending .idle 5 with txLen := 2, seg1Base := 0xFFFF, seg1Len := 2 }
    let r := { place .receivingPayload .idle 0 with rxq := [1], rxLen := 2, rxCnt := 1, rxBase := 0xFFFF, rxCap := 2 }
    placementOk ⟨0, 0xFFFF, 0, 0, 0⟩ 1 2 0 = false ∧ placementOk ⟨0, 0, 0xFFFF, 0, 0⟩ (1 + 1) 1 2 = false ∧
    placementOk ⟨0, 0, 0, 0xFFFF, 2⟩ 1 0 0 = false ∧
    (s.hs ≠ .reset ∧ s.pos = 4 + 1 ∧ 1 < s.txLen.toNat ∧ 65536 ≤ s.payloadAddr 1) ∧
    (r.hs ≠ .reset ∧ r.ctl = .receivingPayload ∧ r.rxCnt ≠ r.rxLen ∧ r.rxq ≠ [] ∧ r.rxCnt < r.rxCap ∧
      65536 ≤ r.rxBase.toNat + r.rxCnt.toNat) ∧
    9 ≤ (place .sending .reset 9).pos := by decide

theorem witness_GetIsItsExpansion :
    Instr.wf (.get ⟨0x100, 0x200, 0, 0x300, 16⟩ [0x66]) = true ∧ State.reset.busy = false ∧ State.reset.rsp = none ∧
    State.reset.quiet ∧ State.reset.cmds = [] := by unfold State.quiet; decide

theorem witness_MessageCountIsBigEndian : { State.reset with resultLen := 2 }.resultLen = 2 := by decide

theorem witness_StepRunsTheDecodedCommand :
    let s := { State.reset with cmds := [0x57FFFF] }
    s.nextMove = .block ∧ s.busy = false ∧ s.rsp = none ∧ s.cmds = 0x57FFFF :: [] ∧
    decode (.host 0x57FFFF) = .ok (.wrreg .rxCap 0xFFFF) ∧ Instr.wf (.wrreg .rxCap 0xFFFF) = true := by decide

theorem witness_StepRunsTheControllersOperation :
    let s := { place .sending .idle 0 with txLen := 1 }
    let r := { place .sending .reset 4 with txLen := 5 }
    s.nextMove = .block ∧ s.rsp = none ∧ s.hs = .idle ∧ (s.ctl = .sending ∧ { s with pos := 3 }.pos < 4) ∧
    4 + s.txLen.toNat ≤ { s with pos := 5 }.pos ∧ 4 < { s with pos := 5 }.pos ∧
    ({ s with pos := 4 }.pos = 4 ∧ 0 < s.txLen.toNat ∧ s.payloadAddr 0 < 65536) ∧
    (r.hs = .reset ∧ 4 ≤ r.pos ∧ { r with pos := 8 }.pos < 4 + r.txLen.toNat) ∧
    (place .awaitingAck .idle 0).ctl = .awaitingAck := by decide

theorem witness_CommandsWaitForReadiness :
    let s := { State.reset with rsp := some 3, cmds := [0] }
    s.nextMove = .block ∧ s.cmdReady = false ∧ s.rsp = some 3 ∧ after (step s) (fun _ => true) = true := by decide

theorem witness_HardwareResetFromAnyState :
    let s := { place .idle .halted 0 with sched := [.rst], acc := 1, rxq := [9] }
    s.nextMove = .rst ∧ after (step s) (fun t => decide (t.acc = 0xAAAA ∧ t.hs = .idle ∧ t.rxq = [9])) = true := by decide

theorem witness_RetryDelaysThenDrainsThenResends :
    let s := { place .retrying .idle 0 with waiting := true }
    s.nextMove = .block ∧ s.rsp = none ∧ s.hs = .idle ∧ s.ctl = .retrying ∧ s.pos = 0 ∧
    { s with nowMs := 98 }.taken.waitedMs < 100 ∧ 100 ≤ { s with nowMs := 99 }.taken.waitedMs ∧
    { s with pos := 1, rxq := [9] }.rxq ≠ [] ∧ { s with pos := 1 }.pos ≠ 0 ∧ { s with pos := 1 }.rxq = [] := by decide

theorem witness_SettleLoopAndFinalDrain :
    let s := { place .idle .settle 0 with rxq := [0x0A] }
    let w := { place .idle .settle 1 with waiting := true }
    s.nextMove = .block ∧ s.rsp = none ∧ (s.hs = .settle ∧ s.pos = 0 ∧ s.rxq ≠ []) ∧ { s with rxq := [] }.rxq = [] ∧
    (w.pos ≠ 0 ∧ { w with nowMs := 1098 }.taken.waitedMs < 1100 ∧ 1100 ≤ { w with nowMs := 1099 }.taken.waitedMs) ∧ w.rxq = [] ∧
    { w with rxq := [1] }.rxq ≠ [] ∧ ({ s with hs := .drain }.hs = .drain ∧ { s with hs := .drain }.rxq ≠ []) := by decide

theorem witness_HandshakeStringsAndDelays :
    let s := place .idle .interrupt 0
    let w := { place .idle .interrupt 1 with waiting := true }
    s.nextMove = .block ∧ s.rsp = none ∧ s.hs = .interrupt ∧ s.params.hsInterrupt[s.pos]? = some 0x03 ∧ s.txReady = true ∧
    { s with txReady := false }.txReady = false ∧ s.params.hsInterrupt.length ≤ w.pos ∧
    { w with nowMs := 248 }.taken.waitedMs < 250 ∧ 250 ≤ { w with nowMs := 249 }.taken.waitedMs ∧
    (place .idle .blank1 0).hs = .blank1 ∧ (place .idle .blank2 0).hs = .blank2 ∧ (place .idle .activate 0).hs = .activate := by decide

theorem witness_HandshakeVerdict :
    let s := { place .idle .check 0 with rxLen := 1 }
    s.nextMove = .block ∧ s.rsp = none ∧ s.hs = .check ∧ (s.rxLen ≠ 0 ∧ s.hsReply = 0) ∧ { s with hsReply := 1 }.hsReply ≠ 0 ∧
    { s with rxLen := 0 }.rxLen = 0 := by decide

theorem witness_HaltedForGood :
    let s := place .idle .halted 0
    s.hs = .halted ∧ s.rsp = none ∧ s.nextMove = .block ∧ after (step s) (fun _ => true) = true := by decide

/-- A step that accepts: the hypothesis of every rule about a next state. -/
theorem witness_IndexAdvancesOnlyOnAccept :
    let s := { place .validating .idle 1 with acc := 0x45C8, candHi := 0x45, rxq := [0xC8] }
    s.nextMove = .block ∧ s.pos ≠ 0 ∧ after (step s) (fun t => decide (t.index = 1)) = true := by decide

theorem witness_FlagsChangeOnlyAsStated :
    let s := { State.reset with cmds := [0x40AAAA], started := true }
    s.nextMove ≠ .rst ∧ s.started = true ∧ after (step s) (fun t => decide (t.matchFlag = true ∧ t.cmds = [])) = true := by decide

theorem witness_BusyBlockKeepsDescriptors :
    let s := { place .validating .idle 1 with acc := 0x45C8, candHi := 0x45, rxq := [0xC8], rxLen := 3, rxCap := 4 }
    s.busy = true ∧ s.nextMove ≠ .rst ∧ after (step s) (fun t => decide (t.resultLen = 3)) = true := by decide

theorem witness_MemoryWrittenOnlyInReceiveBuffer :
    let s := { place .receivingPayload .idle 0 with rxq := [0x62], rxLen := 3, rxCap := 4, rxBase := 0x300 }
    s.nextMove = .block ∧
    after (step s) (fun t => decide (Memory.get t.mem 0x300 ≠ Memory.get s.mem 0x300)) = true := by decide

theorem witness_TransportIsHalfDuplex :
    (place .sending .idle 0).nextMove = .block ∧ State.reset.busy = false ∧
    after (step (place .sending .idle 0)) (fun t => decide (t.txlog = [0xFF])) = true ∧
    after (step { place .awaitingAck .idle 0 with rxq := [0xFF, 0] }) (fun t => decide (t.rxq = [0])) = true ∧
    after (step (place .idle .interrupt 0)) (fun t => decide (t.txlog = [0x03])) = true ∧
    ([place .retrying .idle 1, place .idle .settle 0, place .idle .drain 0].all (fun s =>
      after (step { s with rxq := [9, 9] }) (fun t => decide (t.rxq = [])))) = true := by decide

/-- A state on the way that meets the invariant, and its step. -/
theorem witness_TransitionsFollowTheTables :
    let s := { place .awaitingAck .idle 0 with rxq := [0xFF] }
    Inv s ∧ s.nextMove ≠ .rst ∧ after (step s) (fun t => decide (t.ctl = .receivingHeader)) = true := by decide

theorem witness_StepKeepsInvariant :
    let s := { place .receivingPayload .idle 0 with rxq := [0x62], rxLen := 1, rxCap := 1, rxBase := 0xFFFF }
    Inv s ∧ after (step s) (fun t => decide (t.ctl = .validating ∧ t.mem = [(0xFFFF, 0x62)])) = true := by decide

theorem witness_NoFaultUnderInvariant :
    Inv { place .sending .idle 4 with txLen := 1, seg1Base := 0xFFFF, seg1Len := 1 } := by decide

theorem witness_SendingWritesExactlyTheFrame :
    let s := { place .sending .idle 0 with seg1Base := 0xFFFE, seg1Len := 2 }
    let r := place .sending .reset 0
    s.quiet ∧ s.rsp = none ∧ s.ctl = .sending ∧ s.pos = 0 ∧ s.txReady = true ∧ (s.hs = .idle ∧ transferPre s) ∧
    r.quiet ∧ r.ctl = .sending ∧ r.hs = .reset := by unfold State.quiet transferPre; decide

/-- F4 at the head of the queue, with a byte behind it. -/
theorem witness_ValidReplyIsAccepted :
    let s := { place .awaitingAck .idle 0 with rxBase := 0xFFFE, rxCap := 2, rxq := [0xFF, 0, 0, 3, 0x62, 0x61, 0x72, 0x45, 0xC8, 9] }
    s.quiet ∧ s.rsp = none ∧ s.hs = .idle ∧ s.ctl = .awaitingAck ∧ transferPre s ∧ ([0x62, 0x61, 0x72] : List Byte).length ≤ 65535 ∧
    s.rxq = frame s.index [0x62, 0x61, 0x72] ++ [9] := by unfold State.quiet transferPre; decide

/-- F8. -/
theorem witness_ValidResetReplyReachesCheck :
    let s := { place .awaitingAck .reset 0 with rxq := [0xFF, 0, 0, 1, 0, 0x55, 0xAB] }
    s.quiet ∧ s.rsp = none ∧ s.hs = .reset ∧ s.ctl = .awaitingAck ∧ ([0] : List Byte).length ≤ 65535 ∧
    s.rxq = frame s.index [0] ++ [] := by unfold State.quiet; decide

/-- X1: the empty request and the empty reply F1. -/
theorem witness_TransferCompletesOnAValidReply :
    let s := { State.reset with cmds := [0x700000], rxq := [0xFF, 0, 0, 0, 0xAA, 0x55] }
    s.quiet ∧ s.busy = false ∧ s.rsp = none ∧ s.txReady = true ∧ transferPre s ∧ s.cmds = 0x700000 :: [] ∧
    ([] : List Byte).length ≤ 65535 ∧ s.rxq = frame s.index [] ++ [] := by unfold State.quiet transferPre; decide

theorem witness_SilentAttemptIsRetried :
    let s := place .awaitingAck .idle 0
    s.quiet ∧ s.rsp = none ∧ s.hs = .idle ∧ s.ctl = .awaitingAck ∧ s.waiting = false ∧ s.rxq = [] := by unfold State.quiet; decide

theorem witness_SilentPeerBlocksForEver :
    let s := place .awaitingAck .idle 0
    Inv s ∧ s.quiet ∧ s.ctl ≠ .idle ∧ s.rxq = [] := by unfold State.quiet; decide

theorem witness_DrainMayNeverEnd :
    let s := { place .retrying .idle 1 with loop := [.arrive [0x0A], .block] }
    s.rsp = none ∧ s.hs = .idle ∧ s.ctl = .retrying ∧ s.pos = 1 ∧ s.sched = [] ∧ s.loop = [.arrive [0x0A], .block] := by decide

end Sys2Proof.Tests
end

