-- ==== Sys2Proof/Proofs/HardwareReset.lean ====
section
/-! Hardware reset (spec/10_state.md R43, spec/70_reset_and_hazards.md R280, R282): what a step that takes a reset off the schedule
leaves behind. -/

namespace Sys2Proof.Machine

/-- The quiet tick passes only where nothing is scheduled; a move of the environment finds the clock as it stands (logs 1, 3). -/
theorem taken_nowMs_of_env {s : State} (h : s.nextMove ≠ .block) : s.taken.nowMs = s.nowMs := by
  unfold State.taken
  split
  · rfl
  · next hsched =>
    split
    · rfl
    · next hloop => exact absurd (taken_quiet hsched hloop).1 h

/-- A step that takes a reset off the schedule is exactly the hardware reset, whatever the block was doing (R280). -/
theorem step_of_rst {s : State} (h : s.nextMove = .rst) : step s = .next s.taken.hwReset := by
  rw [step_of_env (by simp [h]), h]
  rfl

/-- STATUS reads 0 while both of its flags are clear (R37). -/
theorem statusWord_of_flags_clear {s : State} (hs : s.started = false) (hm : s.matchFlag = false) : s.statusWord = 0 := by
  simp [State.statusWord, hs, hm]

/-- After reset every host register but the accumulator reads 0 (R43). -/
theorem hwReset_readReg (s : State) {r : HostReg} (h : r ≠ .acc) : s.hwReset.readReg r = 0 := by
  cases r with
  | acc => exact absurd rfl h
  | status => exact statusWord_of_flags_clear (hwReset_started s) (hwReset_matchFlag s)
  | seg1Base | seg1Len | seg2Base | seg2Len | seg3Base | seg3Len | rxBase | rxCap | resultLen | index =>
    simp [State.readReg]

@[simp] theorem hwReset_busy (s : State) : s.hwReset.busy = false := by
  simp [State.busy]

@[simp] theorem hwReset_cmdReady (s : State) : s.hwReset.cmdReady = true := by
  simp [State.cmdReady]

end Sys2Proof.Machine

open Sys2Proof Sys2Proof.Machine

/-- Settles O37: the step is `hwReset` of the state the mover finds, and the clock has not ticked on the way there. -/
theorem hardwareResetFromAnyState : Obligations.HardwareResetFromAnyState := by
  intro s t hrst hstep
  obtain rfl : s.taken.hwReset = t := by
    rw [step_of_rst hrst] at hstep
    cases hstep
    rfl
  have hclock : s.taken.nowMs = s.nowMs := taken_nowMs_of_env (by simp [hrst])
  have hregs : ∀ r, r ≠ .acc → s.taken.hwReset.readReg r = 0 := fun _ => hwReset_readReg s.taken
  simpa [Config.seed, hclock] using hregs

end

