-- ==== Sys2Proof/Proofs/LegalWords.lean ====
section
/-! Legal and reserved command words (spec/30_encoding.md R96, R97, R100): the masks of the opcode table, the fields of R96 and the
decoder draw the same line. -/

namespace Sys2Proof

open Sys2Proof.Machine

/-! ### The table's masks, field by field -/

/-- A mask and a pattern given by their fields test the three fields of a word apart (R89, R100). -/
theorem and_cmdWord_eq_iff (w : Cmd) (mop mr op r : BitVec 4) (marg arg : Word) :
    w &&& cmdWord mop mr marg = cmdWord op r arg ↔ opField w &&& mop = op ∧ rField w &&& mr = r ∧ argField w &&& marg = arg := by
  simp [cmd_ext_iff]

/-- Patterns and masks of the nine host rows, split into fields (R100). -/
theorem hostRows_fields :
    hostRows.map (fun row => (row.pattern, row.mask)) =
      [ (cmdWord 0 0 0, cmdWord 0xF 0xF 0xFFFF), (cmdWord 1 0 0, cmdWord 0xF 0xF 0xFFFF), (cmdWord 2 0 0, cmdWord 0xF 0xF 0xFF00),
        (cmdWord 3 0 0, cmdWord 0xF 0xF 0xFFFF), (cmdWord 4 0 0, cmdWord 0xF 0xF 0), (cmdWord 5 0 0, cmdWord 0xF 0x8 0),
        (cmdWord 6 0 0, cmdWord 0xF 0 0xFFFF), (cmdWord 7 0 0, cmdWord 0xF 0xF 0xFFFF), (cmdWord 8 0 0, cmdWord 0xF 0xF 0xFFFF) ] := by
  decide

/-- A word is legal when a pair of pattern and mask selects it and RDREG's range does not shut it out. -/
theorem legalWord_eq_any (w : Cmd) :
    legalWord w =
      ((hostRows.map (fun row => (row.pattern, row.mask))).any (fun p => w &&& p.2 == p.1) && !rdregReserved w) := by
  rw [legalWord, List.any_map]
  rfl

/-- The full mask of a four-bit field keeps it. -/
theorem and_fullField (v : BitVec 4) : v &&& 0xF = v :=
  BitVec.and_allOnes

/-- The full mask of `arg` keeps it. -/
theorem and_fullArg (v : Word) : v &&& 0xFFFF = v :=
  BitVec.and_allOnes

/-- The range mask of RDREG tests `op` = 6, `arg` = 0 and the two upper bits of `r` (R97, R100). -/
theorem rdregReserved_iff (w : Cmd) :
    rdregReserved w = true ↔ opField w = 6 ∧ rField w &&& 0xC = 0xC ∧ argField w = 0 := by
  have hmask : (0xFCFFFF : Cmd) = cmdWord 0xF 0xC 0xFFFF := by decide
  have hpattern : (0x6C0000 : Cmd) = cmdWord 6 0xC 0 := by decide
  rw [rdregReserved, beq_iff_eq, hmask, hpattern, and_cmdWord_eq_iff, and_fullField, and_fullArg]

/-- Testing the top bit of `r` finds the register numbers WRREG may name. -/
theorem and_topBit_eq_zero_iff (r : BitVec 4) : r &&& 0x8 = 0 ↔ r.toNat ≤ 7 := by
  revert r
  decide

/-- Testing the two upper bits of `r` finds the numbers that name no register. -/
theorem and_upperBits_eq_iff (r : BitVec 4) : r &&& 0xC = 0xC ↔ 12 ≤ r.toNat := by
  revert r
  decide

/-- The upper byte of `arg` is 0 exactly when `arg` is a byte. -/
theorem hiByte_eq_zero_iff (a : Word) : hiByte a = 0 ↔ a.toNat < 256 := by
  have hlt := a.isLt
  rw [← BitVec.toNat_inj, hiByte, BitVec.extractLsb'_toNat, Nat.shiftRight_eq_div_pow]
  simp only [BitVec.ofNat_eq_ofNat, BitVec.toNat_ofNat]
  omega

theorem hiByte_and (v w : Word) : hiByte (v &&& w) = hiByte v &&& hiByte w := by
  unfold hiByte
  ext i hi
  simp

theorem loByte_and (v w : Word) : loByte (v &&& w) = loByte v &&& loByte w := by
  unfold loByte
  ext i hi
  simp

/-- CK_UPDATE's mask on `arg` tests the upper byte, so it finds the bytes. -/
theorem and_upperByte_eq_zero_iff (a : Word) : a &&& 0xFF00 = 0 ↔ a.toNat < 256 := by
  have hhi : hiByte (a &&& 0xFF00) = hiByte a := by
    rw [hiByte_and, show hiByte 0xFF00 = BitVec.allOnes 8 from rfl, BitVec.and_allOnes]
  have hlo : loByte (a &&& 0xFF00) = 0 := by
    rw [loByte_and, show loByte 0xFF00 = 0#8 from rfl, BitVec.and_zero]
    rfl
  rw [← hiByte_eq_zero_iff]
  constructor
  · intro h
    rw [← hhi, h]
    rfl
  · intro h
    exact word_ext (hhi.trans h) hlo

/-- The words the table's masks select, by the numbers in their fields: a disjunct per row, and RDREG's range (R90, R100). -/
theorem legalWord_iff_rows (w : Cmd) :
    legalWord w = true ↔
      ((opField w = 0 ∧ rField w = 0 ∧ argField w = 0) ∨ (opField w = 1 ∧ rField w = 0 ∧ argField w = 0) ∨
        (opField w = 2 ∧ rField w = 0 ∧ (argField w).toNat < 256) ∨ (opField w = 3 ∧ rField w = 0 ∧ argField w = 0) ∨
        (opField w = 4 ∧ rField w = 0) ∨ (opField w = 5 ∧ (rField w).toNat ≤ 7) ∨ (opField w = 6 ∧ argField w = 0) ∨
        (opField w = 7 ∧ rField w = 0 ∧ argField w = 0) ∨ (opField w = 8 ∧ rField w = 0 ∧ argField w = 0)) ∧
      ¬ (opField w = 6 ∧ 12 ≤ (rField w).toNat ∧ argField w = 0) := by
  have hfree4 : ∀ v : BitVec 4, v &&& 0 = 0 := fun _ => BitVec.and_zero
  have hfree16 : ∀ v : Word, v &&& 0 = 0 := fun _ => BitVec.and_zero
  rw [legalWord_eq_any, hostRows_fields, Bool.and_eq_true, Bool.not_eq_true', ← Bool.not_eq_true, rdregReserved_iff,
    and_upperBits_eq_iff]
  simp only [List.any_cons, List.any_nil, Bool.or_false, Bool.or_eq_true, beq_iff_eq, and_cmdWord_eq_iff, and_fullField,
    and_fullArg, and_topBit_eq_zero_iff, and_upperByte_eq_zero_iff, hfree4, hfree16, and_true, true_and]

/-! ### R96 for each operation -/

theorem op_le_of_legalFields {w : Cmd} (h : legalFields w) : (opField w).toNat ≤ 8 :=
  h.1

/-- NOP, CK_RESET, CK_FINALIZE, TRANSFER and BEGIN have no operand. -/
theorem legalFields_bare_iff {w : Cmd} {n : Nat} (hop : (opField w).toNat = n) (hn : n ∈ [0, 1, 3, 7, 8]) :
    legalFields w ↔ rField w = 0 ∧ argField w = 0 := by
  subst hop
  simp only [List.mem_cons, List.not_mem_nil, or_false] at hn
  simp only [legalFields, ← BitVec.toNat_inj, BitVec.ofNat_eq_ofNat, BitVec.toNat_ofNat]
  omega

theorem legalFields_update_iff {w : Cmd} (hop : (opField w).toNat = 2) :
    legalFields w ↔ rField w = 0 ∧ (argField w).toNat < 256 := by
  simp [legalFields, hop, ← BitVec.toNat_inj]

theorem legalFields_matches_iff {w : Cmd} (hop : (opField w).toNat = 4) : legalFields w ↔ rField w = 0 := by
  simp [legalFields, hop, ← BitVec.toNat_inj]

theorem legalFields_wrreg_iff {w : Cmd} (hop : (opField w).toNat = 5) : legalFields w ↔ (rField w).toNat ≤ 7 := by
  simp [legalFields, hop]

theorem legalFields_rdreg_iff {w : Cmd} (hop : (opField w).toNat = 6) :
    legalFields w ↔ (rField w).toNat ≤ 11 ∧ argField w = 0 := by
  simp [legalFields, hop]

/-- The table's masks select exactly the words that R96 calls legal (R96, R100). -/
theorem legalWord_iff_legalFields (w : Cmd) : legalWord w = true ↔ legalFields w := by
  rw [legalWord_iff_rows]
  simp only [← BitVec.toNat_inj (x := opField w), BitVec.ofNat_eq_ofNat, BitVec.toNat_ofNat]
  by_cases hle : (opField w).toNat ≤ 8
  · generalize hop : (opField w).toNat = n at hle
    interval_cases n
    · simp [legalFields_bare_iff hop]
    · simp [legalFields_bare_iff hop]
    · simp [legalFields_update_iff hop]
    · simp [legalFields_bare_iff hop]
    · simp [legalFields_matches_iff hop]
    · simp [legalFields_wrreg_iff hop]
    · rw [legalFields_rdreg_iff hop]
      grind
    · simp [legalFields_bare_iff hop]
    · simp [legalFields_bare_iff hop]
  · have hbare := mt op_le_of_legalFields hle
    simp only [hbare, iff_false]
    omega

/-! ### Where each operation's decoder answers `reserved` -/

/-- The numbers that name no register are 12 to 15 (R36). -/
theorem ofNum_eq_none_iff (n : BitVec 4) : HostReg.ofNum n = none ↔ 12 ≤ n.toNat := by
  revert n
  decide

/-- The writable registers have the numbers 0 to 7 (R36). -/
theorem writable_iff_num (r : HostReg) : r.writable = true ↔ r.num.toNat ≤ 7 := by
  cases r <;> decide

theorem decodeBare_eq_reserved_iff {i : Instr} {w : Cmd} (hi : i ≠ .reserved w) :
    decodeBare i w = .reserved w ↔ ¬ (rField w = 0 ∧ argField w = 0) := by
  unfold decodeBare
  split
  · next h => exact iff_of_false hi (not_not.mpr h)
  · next h => exact iff_of_true rfl h

theorem decodeUpdate_eq_reserved_iff (w : Cmd) :
    decodeUpdate w = .reserved w ↔ ¬ (rField w = 0 ∧ (argField w).toNat < 256) := by
  rw [← hiByte_eq_zero_iff, hiByte]
  unfold decodeUpdate
  split
  · next h => exact iff_of_false Instr.noConfusion (not_not.mpr h)
  · next h => exact iff_of_true rfl h

theorem decodeMatches_eq_reserved_iff (w : Cmd) : decodeMatches w = .reserved w ↔ ¬ rField w = 0 := by
  unfold decodeMatches
  split
  · next h => exact iff_of_false Instr.noConfusion (not_not.mpr h)
  · next h => exact iff_of_true rfl h

theorem decodeWrreg_eq_reserved_iff (w : Cmd) : decodeWrreg w = .reserved w ↔ ¬ (rField w).toNat ≤ 7 := by
  unfold decodeWrreg
  split
  · next r hr =>
    rw [← num_of_ofNum hr, ← writable_iff_num]
    split
    · next hw => exact iff_of_false Instr.noConfusion (not_not.mpr hw)
    · next hw => exact iff_of_true rfl hw
  · next hr =>
    have hbig := (ofNum_eq_none_iff _).mp hr
    exact iff_of_true rfl (by omega)

theorem decodeRdreg_eq_reserved_iff (w : Cmd) :
    decodeRdreg w = .reserved w ↔ ¬ ((rField w).toNat ≤ 11 ∧ argField w = 0) := by
  unfold decodeRdreg
  split
  · next r hr =>
    have hnamed : ¬ 12 ≤ (rField w).toNat := by
      rw [← ofNum_eq_none_iff, hr]
      exact Option.some_ne_none r
    split
    · next ha => exact iff_of_false Instr.noConfusion (not_not.mpr ⟨by omega, ha⟩)
    · next ha => exact iff_of_true rfl (fun h => ha h.2)
  · next hr =>
    have hbig := (ofNum_eq_none_iff _).mp hr
    exact iff_of_true rfl (fun h => by omega)

/-- The decoder answers `reserved` exactly on the words that R96 does not call legal (R97). -/
theorem decodeHost_eq_reserved_iff (w : Cmd) : decodeHost w = .reserved w ↔ ¬ legalFields w := by
  unfold decodeHost
  split
  · next hop => rw [decodeBare_eq_reserved_iff Instr.noConfusion, legalFields_bare_iff hop (by decide)]
  · next hop => rw [decodeBare_eq_reserved_iff Instr.noConfusion, legalFields_bare_iff hop (by decide)]
  · next hop => rw [decodeUpdate_eq_reserved_iff, legalFields_update_iff hop]
  · next hop => rw [decodeBare_eq_reserved_iff Instr.noConfusion, legalFields_bare_iff hop (by decide)]
  · next hop => rw [decodeMatches_eq_reserved_iff, legalFields_matches_iff hop]
  · next hop => rw [decodeWrreg_eq_reserved_iff, legalFields_wrreg_iff hop]
  · next hop => rw [decodeRdreg_eq_reserved_iff, legalFields_rdreg_iff hop]
  · next hop => rw [decodeBare_eq_reserved_iff Instr.noConfusion, legalFields_bare_iff hop (by decide)]
  · next hop => rw [decodeBare_eq_reserved_iff Instr.noConfusion, legalFields_bare_iff hop (by decide)]
  · refine iff_of_true rfl (fun hlegal => ?_)
    have hle := op_le_of_legalFields hlegal
    interval_cases (opField w).toNat <;> contradiction

end Sys2Proof

open Sys2Proof Sys2Proof.Machine

/-- Settles O3: the masks and the decoder are each compared with the fields of R96. -/
theorem reservedWordsAreTheIllegalOnes : Obligations.ReservedWordsAreTheIllegalOnes := by
  intro w
  refine ⟨legalWord_iff_legalFields w, ?_, (decodeHost_eq_reserved_iff w).mpr, fun _ => rfl⟩
  intro hlegal hreserved
  exact (decodeHost_eq_reserved_iff w).mp hreserved hlegal

end

