-- ==== Sys2Proof/Proofs/ChecksumEngine.lean ====
section
/-! The Checksum Engine (spec/40_checksum_engine.md R110, R112, R114, R115): CkUpdate on the two halves, the checksum of a byte
string, and CK_UPDATE and CK_MATCHES from their command words to their next states. -/

namespace Sys2Proof.Machine

/-! ### CkUpdate on the halves (R110) -/

/-- The old low byte, with the new byte XORed in, moves to the high half. -/
@[simp] theorem hiByte_ckUpdate (a : Word) (b : Byte) : hiByte (ckUpdate a b) = loByte a ^^^ b := by
  unfold hiByte loByte ckUpdate
  ext i hi
  have hshifted : a.getLsbD (8 + (8 + i)) = false := BitVec.getLsbD_of_ge a _ (by omega)
  simp [hi, hshifted, show i < 16 by omega, show 8 + i < 16 by omega, BitVec.getLsbD_eq_getElem]

/-- The old high byte moves to the low half unchanged. -/
@[simp] theorem loByte_ckUpdate (a : Word) (b : Byte) : loByte (ckUpdate a b) = hiByte a := by
  unfold hiByte loByte ckUpdate
  ext i hi
  simp [hi]

/-- R110 in byte terms: `{H, L}` becomes `{L ^ b, H}`. -/
theorem ckUpdate_joinBytes (h l b : Byte) : ckUpdate (joinBytes h l) b = joinBytes (l ^^^ b) h := by
  apply word_ext
  · rw [hiByte_ckUpdate, loByte_joinBytes, hiByte_joinBytes]
  · rw [loByte_ckUpdate, hiByte_joinBytes, loByte_joinBytes]

/-! ### The checksum of a byte string, byte by byte from its end (R115) -/

theorem ck_concat (bytes : List Byte) (b : Byte) : ck (bytes ++ [b]) = ckUpdate (ck bytes) b := by
  simp [ck, ckFold]

theorem xorAlternate_cons (b : Byte) (rest : List Byte) : xorAlternate (b :: rest) = b ^^^ xorAlternate rest.tail := by
  cases rest with
  | nil => simp [xorAlternate]
  | cons _ _ => rfl

/-- A byte put at the end has distance 0 from it, and those that were at odd distance come to even distance. -/
@[simp] theorem xorEven_concat (bytes : List Byte) (b : Byte) : xorEven (bytes ++ [b]) = b ^^^ xorOdd bytes := by
  simp [xorEven, xorOdd, xorAlternate_cons]

@[simp] theorem xorOdd_concat (bytes : List Byte) (b : Byte) : xorOdd (bytes ++ [b]) = xorEven bytes := by
  simp [xorEven, xorOdd]

/-- The closed form, by induction from the end of the string: a byte put there swaps the halves as it swaps even and odd. -/
theorem ck_eq_joinBytes (bytes : List Byte) : ck bytes = joinBytes (0xAA ^^^ xorEven bytes) (0xAA ^^^ xorOdd bytes) := by
  induction bytes using List.reverseRecOn with
  | nil => rfl
  | append_singleton bytes b ih =>
    rw [ck_concat, ih, ckUpdate_joinBytes, xorEven_concat, xorOdd_concat, BitVec.xor_assoc, BitVec.xor_comm (xorOdd bytes)]

/-! ### What CK_UPDATE and CK_MATCHES answer (R112, R114) -/

theorem exec_ckUpdate (b : Byte) (s : State) :
    exec (.ckUpdate b) s = .next { s with acc := ckUpdate s.acc b, rsp := some 0 } := rfl

theorem exec_ckMatches (cand : Word) (s : State) :
    exec (.ckMatches cand) s =
      .next { s with matchFlag := accMatches s.acc cand, rsp := some (flagWord (accMatches s.acc cand)) } := rfl

@[simp] theorem accMatches_self (acc : Word) : accMatches acc acc = true :=
  beq_self_eq_true acc

theorem accMatches_of_ne {acc cand : Word} (h : acc ≠ cand) : accMatches acc cand = false :=
  beq_false_of_ne h

@[simp] theorem flagWord_true : flagWord true = 1 := rfl

@[simp] theorem flagWord_false : flagWord false = 0 := rfl

end Sys2Proof.Machine

namespace Sys2Proof

open Sys2Proof.Machine

/-! ### The command words of CK_UPDATE and CK_MATCHES (R90, R91) -/

/-- A zero-extended byte is the word whose high byte is 0. -/
theorem setWidth_eq_joinBytes (b : Byte) : b.setWidth 16 = joinBytes 0 b := by
  simp [joinBytes]

theorem decodeUpdate_of_byte {w : Cmd} (hr : rField w = 0) (hhi : hiByte (argField w) = 0) :
    decodeUpdate w = .ckUpdate (loByte (argField w)) :=
  if_pos ⟨hr, hhi⟩

theorem decodeMatches_of_rField_zero {w : Cmd} (hr : rField w = 0) : decodeMatches w = .ckMatches (argField w) :=
  if_pos hr

theorem decodeHost_of_op_two {w : Cmd} (hop : opField w = 2) : decodeHost w = decodeUpdate w := by
  rw [decodeHost, hop]
  rfl

theorem decodeHost_of_op_four {w : Cmd} (hop : opField w = 4) : decodeHost w = decodeMatches w := by
  rw [decodeHost, hop]
  rfl

/-- `0x2000bb` is CK_UPDATE of `bb`: the byte, zero-extended, fills `arg`. -/
theorem decodeHost_cmdWord_update (b : Byte) : decodeHost (cmdWord 2 0 (b.setWidth 16)) = .ckUpdate b := by
  have hhi : hiByte (argField (cmdWord 2 0 (joinBytes 0 b))) = 0 := by rw [argField_cmdWord, hiByte_joinBytes]
  rw [setWidth_eq_joinBytes, decodeHost_of_op_two (opField_cmdWord ..), decodeUpdate_of_byte (rField_cmdWord ..) hhi,
    argField_cmdWord, loByte_joinBytes]

/-- `0x40cccc` is CK_MATCHES of `cccc`. -/
theorem decodeHost_cmdWord_matches (cand : Word) : decodeHost (cmdWord 4 0 cand) = .ckMatches cand := by
  rw [decodeHost_of_op_four (opField_cmdWord ..), decodeMatches_of_rField_zero (rField_cmdWord ..), argField_cmdWord]

end Sys2Proof

open Sys2Proof Sys2Proof.Machine

/-- Settles O6: the word form is the definition, the byte form its two halves. -/
theorem ckUpdateXorsThenSwaps : Obligations.CkUpdateXorsThenSwaps :=
  ⟨fun _ _ => rfl, ckUpdate_joinBytes⟩

/-- Settles O7, by the induction of `ck_eq_joinBytes`. -/
theorem checksumClosedForm : Obligations.ChecksumClosedForm :=
  ck_eq_joinBytes

/-- Settles O9: the decoder's answer, and the whole next state as one equation. -/
theorem ckUpdateFoldsItsByte : Obligations.CkUpdateFoldsItsByte := by
  intro b s
  exact ⟨decodeHost_cmdWord_update b, exec_ckUpdate b s⟩

/-- Settles O10, by the two outcomes of the comparison. -/
theorem ckMatchesLatchesComparison : Obligations.CkMatchesLatchesComparison := by
  intro cand s
  refine ⟨decodeHost_cmdWord_matches cand, ?_, ?_⟩
  · rintro rfl
    rw [exec_ckMatches, accMatches_self, flagWord_true]
  · intro hne
    rw [exec_ckMatches, accMatches_of_ne hne, flagWord_false]

end

