-- ==== Sys2Proof/Proofs/FrameSend.lean ====
section
/-! FC_SEND (spec/41_frame_codec.md R134 to R137, R146): one step of it at a time, and the whole frame as a run on a quiet
schedule. -/

namespace Sys2Proof.Machine

/-! ### One step of a running controller on a quiet schedule -/

/-- The controller has the block's next step, and no move of the environment comes before it (R160, R181; logs 1, 3). -/
structure State.Running (s : State) : Prop where
  quiet : s.quiet
  noRsp : s.rsp = none
  active : s.hs = .idle ∨ s.hs = .reset

/-- On a quiet schedule only the clock may move before the block does (log 3). -/
theorem State.Running.taken_eq {s : State} (h : s.Running) : ∃ now : Millis, s.taken = { s with nowMs := now } := by
  rw [(taken_quiet h.quiet.1 h.quiet.2).2]
  exact quietTick_eq s

/-- Outside a wait the clock stands too. -/
theorem State.Running.taken_of_still {s : State} (h : s.Running) (hw : s.waiting = false) : s.taken = s := by
  rw [(taken_quiet h.quiet.1 h.quiet.2).2]
  simp [State.quietTick, hw]

theorem State.Running.step_eq_controllerStep {s : State} (h : s.Running) (hc : s.ctl ≠ .idle) :
    step s = controllerStep s.taken := by
  rw [step_of_block (taken_quiet h.quiet.1 h.quiet.2).1]
  exact blockStep_controller (by simp [h.noRsp]) (by simp [hc]) (by simpa using h.active)

/-- Whichever payload command the present byte decodes to, `Sending` goes on with FC_SEND (R93, R136). -/
theorem controllerStep_sending {s : State} (hc : s.ctl = .sending) : controllerStep s = execFcSend s := by
  rw [controllerStep, hc]
  exact exec_sendingOp s

/-! ### One step of EMIT and of FC_SEND (R134 to R137) -/

theorem exec_emit (b : Byte) (s : State) : exec (.emit b) s = .next (s.whenTxReady (fun t => t.emitByte b)) := rfl

theorem exec_fcSend (s : State) : exec .fcSend s = execFcSend s := rfl

theorem execFcSend_header {s : State} (h : s.pos < 4) : execFcSend s = .next (s.whenTxReady State.sendHeaderByte) :=
  if_pos h

theorem execFcSend_payload {s : State} {k : Nat} (hp : s.pos = 4 + k) (hk : k < s.txLen.toNat) :
    execFcSend s = s.withPayloadByte (fun b => .next (s.sendPayloadByte b)) := by
  rw [execFcSend, if_neg (by omega), if_pos (by omega)]

/-- The first step of a frame: the length and the seed, then the marker (R135). -/
theorem execFcSend_marker {s : State} (hr : s.txReady = true) (hp : s.pos = 0) :
    execFcSend s = .next (s.beginFrame.sent Config.startMarker) := by
  rw [execFcSend_header (by omega), whenTxReady_ready _ hr, State.sendHeaderByte, hp]
  rfl

/-- Behind the marker the header goes on with the index and the two length bytes (R135). -/
theorem execFcSend_headerByte {s : State} {b : Byte} (hr : s.txReady = true) (h0 : s.pos ≠ 0) (h4 : s.pos < 4)
    (hb : (frameHeader s.index s.txLen)[s.pos]? = some b) : execFcSend s = .next (s.sent b) := by
  rw [execFcSend_header h4, whenTxReady_ready _ hr, State.sendHeaderByte]
  have hplace : s.pos = 1 ∨ s.pos = 2 ∨ s.pos = 3 := by omega
  rcases hplace with hp | hp | hp
  all_goals
    rw [hp] at hb ⊢
    cases hb
    rfl

/-- A payload byte of the host's request is read from memory as it is sent (R136). -/
theorem execFcSend_hostByte {s : State} {k : Nat} (hr : s.txReady = true) (hh : s.hs ≠ .reset) (hp : s.pos = 4 + k)
    (hk : k < s.txLen.toNat) (ha : s.payloadAddr k < Config.memSize) :
    execFcSend s = .next (s.sent (Memory.get s.mem (s.payloadAddr k))) := by
  have hpos : s.pos - 4 = k := by omega
  rw [execFcSend_payload hp hk, State.withPayloadByte, if_neg hh, hpos, withMemByte_of_lt _ ha, State.sendPayloadByte,
    whenTxReady_ready _ hr]
  rfl

/-- During `HsReset` the payload bytes are those of the reset command (R30, R136). -/
theorem execFcSend_resetByte {s : State} {k : Nat} {b : Byte} (hr : s.txReady = true) (hh : s.hs = .reset) (hp : s.pos = 4 + k)
    (hk : k < s.txLen.toNat) (hb : Config.hsResetCmd[k]? = some b) : execFcSend s = .next (s.sent b) := by
  have hpos : s.pos - 4 = k := by omega
  rw [execFcSend_payload hp hk, State.withPayloadByte, if_pos hh, hpos, withResetByte, hb]
  simp only [State.sendPayloadByte, whenTxReady_ready _ hr]
  rfl

theorem execFcSend_trailerHi {s : State} (hr : s.txReady = true) (hp : s.pos = 4 + s.txLen.toNat) :
    execFcSend s = .next { s with txlog := s.txlog ++ [hiByte s.acc], pos := s.pos + 1, waiting := false } := by
  rw [execFcSend, if_neg (by omega), if_neg (by omega), if_pos hp, whenTxReady_ready _ hr]
  rfl

theorem execFcSend_trailerLo {s : State} (hr : s.txReady = true) (hp : s.pos = 5 + s.txLen.toNat) :
    execFcSend s =
      .next { s with txlog := s.txlog ++ [loByte s.acc], ctl := .awaitingAck, pos := 0, waiting := false } := by
  rw [execFcSend, if_neg (by omega), if_neg (by omega), if_neg (by omega), whenTxReady_ready _ hr]
  rfl

/-! ### The request payload (R30, R86, R136) -/

theorem payloadAddr_seg1 {s : State} {i : Nat} (h : i < s.seg1Len.toNat) : s.payloadAddr i = s.seg1Base.toNat + i :=
  if_pos h

theorem payloadAddr_seg2 {s : State} {i : Nat} (h : i < s.seg2Len.toNat) :
    s.payloadAddr (s.seg1Len.toNat + i) = s.seg2Base.toNat + i := by
  rw [State.payloadAddr, if_neg (by omega), if_pos (by omega)]
  omega

theorem payloadAddr_seg3 (s : State) (i : Nat) :
    s.payloadAddr (s.seg1Len.toNat + s.seg2Len.toNat + i) = s.seg3Base.toNat + i := by
  rw [State.payloadAddr, if_neg (by omega), if_neg (by omega)]
  omega

/-- A position in the host's payload lies in one of the three segments. -/
theorem hostLen_cases {s : State} {k : Nat} (hk : k < s.hostLen) :
    k < s.seg1Len.toNat ∨ (∃ i, k = s.seg1Len.toNat + i ∧ i < s.seg2Len.toNat) ∨
      ∃ i, k = s.seg1Len.toNat + s.seg2Len.toNat + i ∧ i < s.seg3Len.toNat := by
  unfold State.hostLen at hk
  by_cases h1 : k < s.seg1Len.toNat
  · exact .inl h1
  · by_cases h2 : k < s.seg1Len.toNat + s.seg2Len.toNat
    · exact .inr (.inl ⟨k - s.seg1Len.toNat, by omega, by omega⟩)
    · exact .inr (.inr ⟨k - s.seg1Len.toNat - s.seg2Len.toNat, by omega, by omega⟩)

/-- A byte inside a non-empty buffer that does not pass 0xFFFF is inside the memory (R53, R162). -/
theorem addr_lt_memSize {base len : Word} {i : Nat} (hfit : len ≠ 0 → base.toNat + len.toNat - 1 ≤ 0xFFFF)
    (hi : i < len.toNat) : base.toNat + i < Config.memSize := by
  have hne : len ≠ 0 := by rintro rfl; simp at hi
  have hend := hfit hne
  simp only [Config.memSize]
  omega

/-- R162's preconditions keep every payload byte inside the memory. -/
theorem payloadAddr_lt {s : State} {k : Nat} (hpre : transferPre s) (hk : k < s.hostLen) : s.payloadAddr k < Config.memSize := by
  obtain ⟨-, hfit1, hfit2, hfit3, -⟩ := hpre
  rcases hostLen_cases hk with h | ⟨i, rfl, h⟩ | ⟨i, rfl, h⟩
  · rw [payloadAddr_seg1 h]
    exact addr_lt_memSize hfit1 h
  · rw [payloadAddr_seg2 h]
    exact addr_lt_memSize hfit2 h
  · rw [payloadAddr_seg3]
    exact addr_lt_memSize hfit3 h

theorem activePayload_reset {s : State} (h : s.hs = .reset) : s.activePayload = Config.hsResetCmd :=
  if_pos h

theorem length_activePayload (s : State) : s.activePayload.length = s.activeLen := by
  unfold State.activePayload State.activeLen
  split
  · rfl
  · simp [Memory.length_getRange, State.hostLen, Nat.add_assoc]

/-- The payload's bytes are those at the addresses FC_SEND reads. -/
theorem getElem?_activePayload_host {s : State} {k : Nat} (hh : s.hs ≠ .reset) (hk : k < s.hostLen) :
    s.activePayload[k]? = some (Memory.get s.mem (s.payloadAddr k)) := by
  rw [State.activePayload, if_neg hh]
  rcases hostLen_cases hk with h | ⟨i, rfl, h⟩ | ⟨i, rfl, h⟩
  · rw [List.append_assoc, List.getElem?_append_left (by simpa [Memory.length_getRange]), payloadAddr_seg1 h,
      Memory.getElem?_getRange _ _ h]
  · rw [List.getElem?_append_left (by simpa [Memory.length_getRange]),
      List.getElem?_append_right (by simp [Memory.length_getRange]), payloadAddr_seg2 h, Memory.length_getRange,
      Nat.add_sub_cancel_left, Memory.getElem?_getRange _ _ h]
  · rw [List.getElem?_append_right (by simp [Memory.length_getRange]), payloadAddr_seg3, List.length_append,
      Memory.length_getRange, Memory.length_getRange, Nat.add_sub_cancel_left, Memory.getElem?_getRange _ _ h]

/-! ### A frame under way -/

theorem getElem?_frameBody_header (i : Byte) (p : List Byte) {k : Nat} (h : k < 4) :
    (frameBody i p)[k]? = (frameHeader i (BitVec.ofNat 16 p.length))[k]? :=
  List.getElem?_append_left h

/-- Behind the four header bytes stands the payload (R81). -/
theorem getElem?_frameBody_payload (i : Byte) (p : List Byte) (k : Nat) : (frameBody i p)[4 + k]? = p[k]? := by
  rw [Nat.add_comm]
  rfl

theorem length_frameBody (s : State) : (frameBody s.index s.activePayload).length = 4 + s.activeLen := by
  rw [frameBody, List.length_append, length_activePayload]
  rfl

/-- What the transfer in progress needs for its frame: the reset command, or a host request within R162. -/
def State.Sendable (s : State) : Prop :=
  s.hs = .reset ∨ s.hs = .idle ∧ transferPre s

theorem State.Sendable.activeLen_le {s : State} (h : s.Sendable) : s.activeLen ≤ 65535 := by
  unfold State.activeLen
  rcases h with hreset | ⟨hidle, hpre⟩
  · simp [hreset, Config.hsResetCmd]
  · simpa [hidle, State.hostLen] using hpre.1

/-- `Sending` behind the marker of a frame, with a transport that takes every byte. -/
structure State.MidFrame (s : State) : Prop extends s.Running where
  sending : s.ctl = .sending
  ready : s.txReady = true
  sendable : s.Sendable
  begun : s.pos ≠ 0
  length_eq : s.txLen = BitVec.ofNat 16 s.activeLen
  still : s.waiting = false

theorem State.MidFrame.txLen_toNat {s : State} (h : s.MidFrame) : s.txLen.toNat = s.activeLen := by
  have hle := h.sendable.activeLen_le
  rw [h.length_eq, BitVec.toNat_ofNat]
  omega

theorem State.MidFrame.step_eq_execFcSend {s : State} (h : s.MidFrame) : step s = execFcSend s := by
  rw [h.step_eq_controllerStep (by simp [h.sending]), h.taken_of_still h.still, controllerStep_sending h.sending]

/-- A byte that goes out leaves the frame under way, one position further. -/
theorem State.MidFrame.sent {s : State} (h : s.MidFrame) (b : Byte) : (s.sent b).MidFrame where
  quiet := h.quiet
  noRsp := h.noRsp
  active := h.active
  sending := h.sending
  ready := h.ready
  sendable := h.sendable
  begun := Nat.succ_ne_zero s.pos
  length_eq := h.length_eq
  still := rfl

/-- At every position of the header and payload the byte sent is that of `Frame(index, payload)` (R135, R136, R146). -/
theorem State.MidFrame.sends_frameBody {s : State} {b : Byte} (h : s.MidFrame)
    (hb : (frameBody s.index s.activePayload)[s.pos]? = some b) : step s = .next (s.sent b) := by
  rw [h.step_eq_execFcSend]
  by_cases h4 : s.pos < 4
  · rw [getElem?_frameBody_header _ _ h4, length_activePayload, ← h.length_eq] at hb
    exact execFcSend_headerByte h.ready h.begun h4 hb
  · obtain ⟨k, hk⟩ : ∃ k, s.pos = 4 + k := ⟨s.pos - 4, by omega⟩
    rw [hk, getElem?_frameBody_payload] at hb
    have hlt : k < s.activeLen := by
      rw [← length_activePayload]
      exact (List.getElem?_eq_some_iff.mp hb).1
    have hlt' : k < s.txLen.toNat := by rwa [h.txLen_toNat]
    rcases h.sendable with hreset | ⟨hidle, hpre⟩
    · rw [activePayload_reset hreset] at hb
      exact execFcSend_resetByte h.ready hreset hk hlt' hb
    · have hhs : s.hs ≠ .reset := by simp [hidle]
      have hhost : k < s.hostLen := by simpa [State.activeLen, hhs] using hlt
      rw [getElem?_activePayload_host hhs hhost] at hb
      cases hb
      exact execFcSend_hostByte h.ready hhs hk hlt' (payloadAddr_lt hpre hhost)

/-- The two trailer bytes, high byte first, unfolded; the second ends `Sending` (R137, R163). -/
theorem State.MidFrame.runs_trailer {s : State} (h : s.MidFrame) (hp : s.pos = 4 + s.activeLen) :
    runs 2 s = .next { s with txlog := s.txlog ++ [hiByte s.acc, loByte s.acc], ctl := .awaitingAck, pos := 0 } := by
  have hlen := h.txLen_toNat
  let u : State := { s with txlog := s.txlog ++ [hiByte s.acc], pos := s.pos + 1, waiting := false }
  have hu : u.MidFrame :=
    ⟨⟨h.quiet, h.noRsp, h.active⟩, h.sending, h.ready, h.sendable, Nat.succ_ne_zero _, h.length_eq, rfl⟩
  have hhi : step s = .next u := h.step_eq_execFcSend.trans (execFcSend_trailerHi h.ready (by omega))
  have hlo := hu.step_eq_execFcSend.trans (execFcSend_trailerLo hu.ready (by simp only [u]; omega))
  rw [runs_succ_of_next hhi, runs_succ_of_next hlo, runs_zero]
  simp [u, h.still]

/-- What is left of the header and payload goes out a byte a step, each folded, and then the trailer that the folding gives. -/
theorem State.MidFrame.runs_rest {s : State} (h : s.MidFrame) (gone bytes : List Byte) (hp : s.pos = gone.length)
    (hb : frameBody s.index s.activePayload = gone ++ bytes) :
    runs (bytes.length + 2) s =
      .next { s with txlog := s.txlog ++ bytes ++ [hiByte (ckFold s.acc bytes), loByte (ckFold s.acc bytes)],
                     acc := ckFold s.acc bytes, ctl := .awaitingAck, pos := 0 } := by
  induction bytes generalizing s gone with
  | nil =>
    have hend : s.pos = 4 + s.activeLen := by
      rw [hp, ← length_frameBody, hb, List.append_nil]
    rw [List.length_nil, Nat.zero_add, h.runs_trailer hend]
    simp [ckFold]
  | cons b bytes ih =>
    have hbyte : (frameBody s.index s.activePayload)[s.pos]? = some b := by
      simp [hb, hp]
    have hgone : (s.sent b).pos = (gone ++ [b]).length := by simp [State.sent, hp]
    have hrest : frameBody (s.sent b).index (s.sent b).activePayload = gone ++ [b] ++ bytes := by
      rw [List.append_assoc]
      exact hb
    rw [List.length_cons, Nat.add_right_comm, runs_succ_of_next (h.sends_frameBody hbyte), ih (h.sent b) _ hgone hrest]
    simp [State.sent, ckFold, h.still]

/-- The first step of `Sending`: the marker is on the line, and the frame is under way. -/
theorem step_begins_frame {s : State} (h : s.Running) (hc : s.ctl = .sending) (hp : s.pos = 0) (hr : s.txReady = true)
    (hs : s.Sendable) : ∃ n : Millis, let u := { s with nowMs := n }.beginFrame.sent Config.startMarker
      step s = .next u ∧ u.MidFrame := by
  obtain ⟨n, hn⟩ := h.taken_eq
  refine ⟨n, ?_, ?_⟩
  · rw [h.step_eq_controllerStep (by simp [hc]), controllerStep_sending (by simp [hc]),
      execFcSend_marker (by simp [hr]) (by simp [hp]), hn]
  · exact ⟨⟨h.quiet, h.noRsp, h.active⟩, hc, hr, hs, Nat.succ_ne_zero _, rfl, rfl⟩

/-- The whole frame in `6 + len` steps; nothing else of the state changes but the clock, `tx_len` and the place in the procedure. -/
theorem runs_sends_frame {s : State} (h : s.Running) (hc : s.ctl = .sending) (hp : s.pos = 0) (hr : s.txReady = true)
    (hs : s.Sendable) : ∃ n : Millis, runs (6 + s.activeLen) s =
      .next { s with nowMs := n, txLen := BitVec.ofNat 16 s.activeLen, acc := ck (frameBody s.index s.activePayload),
                     txlog := s.txlog ++ frame s.index s.activePayload, ctl := .awaitingAck, pos := 0, waiting := false } := by
  obtain ⟨n, hfirst, hmid⟩ := step_begins_frame h hc hp hr hs
  refine ⟨n, ?_⟩
  have hrest := hmid.runs_rest [Config.startMarker] (frameBody s.index s.activePayload).tail (by simp [State.sent, hp]) rfl
  have hsteps : 6 + s.activeLen = (frameBody s.index s.activePayload).tail.length + 2 + 1 := by
    rw [List.length_tail, length_frameBody]
    omega
  have hck : ckFold (ckUpdate Config.seed Config.startMarker) (frameBody s.index s.activePayload).tail =
      ck (frameBody s.index s.activePayload) := rfl
  have hframe : [Config.startMarker] ++ (frameBody s.index s.activePayload).tail = frameBody s.index s.activePayload := rfl
  rw [hsteps, runs_succ_of_next hfirst, hrest]
  simp only [State.sent, beginFrame_acc, hck, beginFrame_txlog, List.append_assoc, frame]
  rw [← List.append_assoc [Config.startMarker], hframe]
  rfl

end Sys2Proof.Machine

open Sys2Proof Sys2Proof.Machine

/-- Settles O19, by whether the transport takes the byte. -/
theorem emitWritesAndFolds : Obligations.EmitWritesAndFolds := by
  intro b s
  refine ⟨fun hready => ?_, fun hwait => ?_⟩
  · rw [exec_emit, whenTxReady_ready _ hready]
    rfl
  · rw [exec_emit, whenTxReady_not_ready _ hwait]

/-- Settles O20: the first byte with the start of the frame, the next three by position, and the wait. -/
theorem fcSendEmitsTheHeader : Obligations.FcSendEmitsTheHeader := by
  intro s
  refine ⟨execFcSend_marker, ?_, ?_, ?_, fun hwait hp => ?_⟩
  · exact fun hready hp => execFcSend_headerByte hready (by omega) (by omega) (by rw [hp]; rfl)
  · exact fun hready hp => execFcSend_headerByte hready (by omega) (by omega) (by rw [hp]; rfl)
  · exact fun hready hp => execFcSend_headerByte hready (by omega) (by omega) (by rw [hp]; rfl)
  · rw [exec_fcSend, execFcSend_header hp, whenTxReady_not_ready _ hwait]

/-- Settles O21: each position of the payload, by its segment or as a byte of the reset command. -/
theorem fcSendEmitsEachPayloadByte : Obligations.FcSendEmitsEachPayloadByte := by
  intro s i hready
  refine ⟨fun hh hi hp hk ha => ?_, fun hh hi hp hk ha => ?_, fun hh hi hp hk ha => ?_, fun hh hp hk b hb => ?_⟩
  · rw [← payloadAddr_seg1 hi] at ha ⊢
    exact execFcSend_hostByte hready hh hp hk ha
  · rw [← payloadAddr_seg2 hi] at ha ⊢
    exact execFcSend_hostByte hready hh (by omega) hk ha
  · rw [← payloadAddr_seg3] at ha ⊢
    exact execFcSend_hostByte hready hh (by omega) hk ha
  · exact execFcSend_resetByte hready hh hp hk hb

/-- Settles O54: the run of `runs_sends_frame`, read field by field. -/
theorem sendingWritesExactlyTheFrame : Obligations.SendingWritesExactlyTheFrame := by
  intro s hquiet hrsp hctl hpos hready hsend
  have hactive : s.hs = .idle ∨ s.hs = .reset := hsend.symm.imp_left And.left
  obtain ⟨n, hrun⟩ := runs_sends_frame ⟨hquiet, hrsp, hactive⟩ hctl hpos hready hsend
  refine ⟨_, hrun, rfl, rfl, rfl, rfl, rfl, rfl, rfl, rfl, hrsp, hquiet, fun r hr => ?_⟩
  cases r with
  | acc => exact absurd rfl hr
  | seg1Base | seg1Len | seg2Base | seg2Len | seg3Base | seg3Len | rxBase | rxCap | resultLen | index | status => rfl

end

