-- ==== Sys2Proof/Proofs/FrameReceive.lean ====
section
/-! FC_RECV (spec/41_frame_codec.md R138 to R142, R145, R147): its phases on a byte that is there, each as a run on a quiet schedule,
and the acceptance of a valid reply. -/

namespace Sys2Proof.Machine

/-! ### One step of FC_RECV on a byte that is there -/

/-- In each of its four states the controller's step is FC_RECV's (R175). -/
theorem controllerStep_receiving {s : State}
    (hc : s.ctl ∈ [CtlState.awaitingAck, .receivingHeader, .receivingPayload, .validating]) :
    controllerStep s = execFcRecv s := by
  simp only [List.mem_cons, List.not_mem_nil, or_false] at hc
  rcases hc with hc | hc | hc | hc
  all_goals
    rw [controllerStep, hc]
    rfl

theorem execFcRecv_awaitingAck {s : State} (h : s.ctl = .awaitingAck) : execFcRecv s = s.recvMarker := by
  rw [execFcRecv, h]

theorem execFcRecv_receivingHeader {s : State} (h : s.ctl = .receivingHeader) : execFcRecv s = s.recvHeader := by
  rw [execFcRecv, h]

theorem execFcRecv_receivingPayload {s : State} (h : s.ctl = .receivingPayload) : execFcRecv s = s.recvPayload := by
  rw [execFcRecv, h]

theorem execFcRecv_validating {s : State} (h : s.ctl = .validating) : execFcRecv s = s.recvTrailer := by
  rw [execFcRecv, h]

theorem pollRead_took {s : State} {c : Byte} {rest : List Byte} (t : Nat) (h : s.rxq = c :: rest) :
    s.pollRead t = s.took c rest :=
  pollRead_byte t h

theorem recvMarker_of_marker {s : State} {rest : List Byte} (h : s.rxq = Config.startMarker :: rest) :
    s.recvMarker = .next (s.took Config.startMarker rest).markerSeen := by
  rw [State.recvMarker, pollRead_took _ h]
  rfl

theorem recvHeader_of_byte {s : State} {c : Byte} {rest : List Byte} (h : s.rxq = c :: rest) :
    s.recvHeader = .next ((s.took c rest).headerByte c) := by
  rw [State.recvHeader, pollRead_took _ h]
  rfl

theorem recvPayload_of_done {s : State} (h : s.rxCnt = s.rxLen) : s.recvPayload = .next (s.enterCtl .validating) :=
  if_pos h

theorem recvPayload_of_byte {s : State} {c : Byte} {rest : List Byte} (hn : s.rxCnt ≠ s.rxLen) (h : s.rxq = c :: rest) :
    s.recvPayload = andThen (((s.took c rest).fold c).storeReplyByte c) (fun t => .next t.countReplyByte) := by
  rw [State.recvPayload, if_neg hn, pollRead_took _ h]
  rfl

theorem recvTrailer_of_byte {s : State} {c : Byte} {rest : List Byte} (h : s.rxq = c :: rest) :
    s.recvTrailer = .next ((s.took c rest).trailerByte c) := by
  rw [State.recvTrailer, pollRead_took _ h]
  rfl

theorem headerByte_index {s : State} (h : s.hdrI = 0) : s.headerByte s.index = { s.fold s.index with hdrI := 1 } := by
  simp [State.headerByte, h]

theorem headerByte_lengthHi {s : State} (c : Byte) (h : s.hdrI = 1) :
    s.headerByte c = { s.fold c with rxLen := joinBytes c (loByte s.rxLen), hdrI := 2 } := by
  simp [State.headerByte, h]

theorem headerByte_lengthLo {s : State} (c : Byte) (h : s.hdrI = 2) :
    s.headerByte c = { s.fold c with rxLen := joinBytes (hiByte s.rxLen) c, rxCnt := 0 }.enterCtl .receivingPayload := by
  simp [State.headerByte, h]

/-- The memory after the next reply byte of a host TRANSFER: stored below the capacity, dropped beyond it (R140, R145). -/
def State.memAfterReplyByte (s : State) (c : Byte) : List Host.Cell :=
  if s.rxCnt < s.rxCap then Memory.set s.mem s.sinkAddr c else s.mem

/-- A reply byte of a host TRANSFER taken off the queue, folded, and stored if there is room; it is still to be counted (R140). -/
def State.withReplyByte (s : State) (c : Byte) (rest : List Byte) : State :=
  { s.took c rest with acc := ckUpdate s.acc c, mem := s.memAfterReplyByte c }

/-- R162's precondition on the receive buffer. -/
def State.RxBufferFits (s : State) : Prop :=
  s.rxCap ≠ 0 → s.rxBase.toNat + s.rxCap.toNat - 1 ≤ 0xFFFF

theorem rxBufferFits_of_transferPre {s : State} (h : transferPre s) : s.RxBufferFits := by
  obtain ⟨-, -, -, -, hfit⟩ := h
  exact hfit

/-- With a receive buffer that fits, every store is inside the memory. -/
theorem storeReplyByte_host {s : State} (c : Byte) (hh : s.hs = .idle) (hfit : s.RxBufferFits) :
    s.storeReplyByte c = .next { s with mem := s.memAfterReplyByte c } := by
  have hcap : s.activeCap = s.rxCap := by simp [State.activeCap, hh]
  rw [State.storeReplyByte, State.memAfterReplyByte, hcap]
  split
  · next hlt => rw [if_neg (by simp [hh]), memWrite_of_lt (a := s.sinkAddr) c (addr_lt_memSize hfit hlt)]
  · rfl

theorem trailerByte_first {s : State} (c : Byte) (h : s.pos = 0) :
    s.trailerByte c = { s with candHi := c, pos := 1, waiting := false } := by
  simp [State.trailerByte, State.advance, h]

theorem trailerByte_match {s : State} (c : Byte) (h0 : s.pos ≠ 0) (h : s.acc = joinBytes s.candHi c) :
    s.trailerByte c = s.accept := by
  simp [State.trailerByte, accMatches, h0, h]

/-! ### The phases as runs on a quiet schedule -/

/-- `s` after polls that have taken what stood before `rest` in the queue: only what a poll writes, and the clock, has changed. -/
def State.polled (s : State) (now t : Millis) (r : TimedResult) (rest : List Byte) : State :=
  { s with nowMs := now, t0 := t, timedResult := r, waiting := false, rxq := rest }

theorem State.Running.step_receiving {s : State} (h : s.Running)
    (hc : s.ctl ∈ [CtlState.awaitingAck, .receivingHeader, .receivingPayload, .validating]) :
    step s = execFcRecv s.taken := by
  have hne : s.ctl ≠ .idle := by
    intro hidle
    simp [hidle] at hc
  rw [h.step_eq_controllerStep hne, controllerStep_receiving (by rwa [taken_ctl])]

/-- The marker that begins a reply (R138). -/
theorem State.Running.step_marker {s : State} {rest : List Byte} (h : s.Running) (hc : s.ctl = .awaitingAck)
    (hq : s.rxq = Config.startMarker :: rest) :
    ∃ now : Millis, step s = .next ({ s with nowMs := now }.took Config.startMarker rest).markerSeen := by
  obtain ⟨now, hnow⟩ := h.taken_eq
  refine ⟨now, ?_⟩
  rw [h.step_receiving (by simp [hc]), execFcRecv_awaitingAck (by simp [hc]), recvMarker_of_marker (by rwa [taken_rxq]), hnow]

theorem State.Running.step_headerByte {s : State} {c : Byte} {rest : List Byte} (h : s.Running) (hc : s.ctl = .receivingHeader)
    (hw : s.waiting = false) (hq : s.rxq = c :: rest) : step s = .next ((s.took c rest).headerByte c) := by
  rw [h.step_receiving (by simp [hc]), h.taken_of_still hw, execFcRecv_receivingHeader hc, recvHeader_of_byte hq]

/-- The expected index, then the length, high byte first (R139). -/
theorem State.Running.runs_headerBytes {s : State} {len : Word} {rest : List Byte} (h : s.Running)
    (hc : s.ctl = .receivingHeader) (hw : s.waiting = false) (hI : s.hdrI = 0)
    (hq : s.rxq = s.index :: hiByte len :: loByte len :: rest) :
    ∃ t r, runs 3 s =
      .next { s.polled s.nowMs t r rest with acc := ckFold s.acc [s.index, hiByte len, loByte len], hdrI := 2, rxLen := len,
                                             rxCnt := 0, ctl := .receivingPayload, pos := 0 } := by
  let u : State := { (s.took s.index (hiByte len :: loByte len :: rest)).fold s.index with hdrI := 1 }
  let v : State := { (u.took (hiByte len) (loByte len :: rest)).fold (hiByte len) with
    rxLen := joinBytes (hiByte len) (loByte u.rxLen), hdrI := 2 }
  have hu : u.Running := ⟨h.quiet, h.noRsp, h.active⟩
  have hv : v.Running := ⟨h.quiet, h.noRsp, h.active⟩
  have hindex : step s = .next u :=
    (h.step_headerByte hc hw hq).trans (congrArg _ (headerByte_index (s := s.took s.index _) hI))
  have hhi : step u = .next v := (hu.step_headerByte hc rfl rfl).trans (congrArg _ (headerByte_lengthHi _ rfl))
  have hlo := (hv.step_headerByte hc rfl rfl).trans (congrArg _ (headerByte_lengthLo _ rfl))
  have hlen : joinBytes (hiByte v.rxLen) (loByte len) = len := by simp [v]
  rw [runs_succ_of_next hindex, runs_succ_of_next hhi, runs_succ_of_next hlo, runs_zero]
  simp only [State.took, hlen]
  exact ⟨_, _, rfl⟩

/-- The marker and the three header bytes of a frame with the expected index (R138, R139). -/
theorem State.Running.runs_header {s : State} {len : Word} {rest : List Byte} (h : s.Running) (hc : s.ctl = .awaitingAck)
    (hq : s.rxq = frameHeader s.index len ++ rest) :
    ∃ now t r, runs 4 s =
      .next { s.polled now t r rest with acc := ckFold Config.seed (frameHeader s.index len), hdrI := 2, rxLen := len, rxCnt := 0,
                                         ctl := .receivingPayload, pos := 0 } := by
  obtain ⟨now, hmarker⟩ := h.step_marker hc hq
  have hu : (({ s with nowMs := now }.took Config.startMarker (s.index :: hiByte len :: loByte len :: rest)).markerSeen).Running :=
    ⟨h.quiet, h.noRsp, h.active⟩
  obtain ⟨t, r, hbytes⟩ := hu.runs_headerBytes rfl rfl rfl rfl
  exact ⟨now, t, r, (runs_succ_of_next hmarker).trans hbytes⟩

/-- The payload phase of a host TRANSFER, with no wait under way. -/
structure State.HostPayload (s : State) : Prop extends s.Running where
  receiving : s.ctl = .receivingPayload
  host : s.hs = .idle
  fits : s.RxBufferFits
  still : s.waiting = false

theorem State.HostPayload.step_eq_recvPayload {s : State} (h : s.HostPayload) : step s = s.recvPayload := by
  rw [h.step_receiving (by simp [h.receiving]), h.taken_of_still h.still, execFcRecv_receivingPayload h.receiving]

theorem State.HostPayload.step_byte {s : State} {c : Byte} {rest : List Byte} (h : s.HostPayload) (hn : s.rxCnt ≠ s.rxLen)
    (hq : s.rxq = c :: rest) : step s = .next (s.withReplyByte c rest).countReplyByte := by
  rw [h.step_eq_recvPayload, recvPayload_of_byte hn hq]
  exact congrArg (andThen · _) (storeReplyByte_host (s := (s.took c rest).fold c) c h.host h.fits)

theorem countReplyByte_last {s : State} (h : s.rxCnt + 1 = s.rxLen) :
    s.countReplyByte = { s with rxCnt := s.rxLen, ctl := .validating, pos := 0, waiting := false } := by
  rw [State.countReplyByte, h]
  exact if_pos rfl

theorem countReplyByte_more {s : State} (h : s.rxCnt + 1 ≠ s.rxLen) : s.countReplyByte = { s with rxCnt := s.rxCnt + 1 } :=
  if_neg h

/-- Storing the next byte and then a run behind it, each up to the capacity, is storing one run. -/
theorem setRange_memAfterReplyByte (s : State) (c : Byte) (p : List Byte) :
    Memory.setRange (s.memAfterReplyByte c) (s.sinkAddr + 1) (p.take (s.rxCap.toNat - (s.rxCnt.toNat + 1))) =
      Memory.setRange s.mem s.sinkAddr ((c :: p).take (s.rxCap.toNat - s.rxCnt.toNat)) := by
  unfold State.memAfterReplyByte
  split
  · next hlt =>
    have hroom : s.rxCap.toNat - s.rxCnt.toNat = s.rxCap.toNat - (s.rxCnt.toNat + 1) + 1 := by bv_omega
    rw [hroom, List.take_succ_cons, Memory.setRange]
  · next hge =>
    have hfull : s.rxCap.toNat - s.rxCnt.toNat = 0 := by bv_omega
    have hfull' : s.rxCap.toNat - (s.rxCnt.toNat + 1) = 0 := by omega
    simp [hfull, hfull', Memory.setRange]

/-- The payload bytes that are left: each is folded, those below the capacity are stored (R140, R145). -/
theorem State.HostPayload.runs_bytes {s : State} {c : Byte} {p rest : List Byte} (h : s.HostPayload)
    (hlen : s.rxCnt.toNat + (p.length + 1) = s.rxLen.toNat) (hq : s.rxq = c :: (p ++ rest)) :
    ∃ now t r, runs (p.length + 1) s =
      .next { s.polled now t r rest with acc := ckFold s.acc (c :: p), rxCnt := s.rxLen,
                                         mem := Memory.setRange s.mem s.sinkAddr ((c :: p).take (s.rxCap.toNat - s.rxCnt.toNat)),
                                         ctl := .validating, pos := 0 } := by
  induction p generalizing s c with
  | nil =>
    have hlast : s.rxCnt + 1 = s.rxLen := by
      simp only [List.length_nil] at hlen
      bv_omega
    have hbyte := (h.step_byte (by bv_omega) hq).trans
      (congrArg _ (countReplyByte_last (s := s.withReplyByte c _) hlast))
    have hmem := setRange_memAfterReplyByte s c []
    rw [List.take_nil, Memory.setRange] at hmem
    rw [List.length_nil, runs_succ_of_next hbyte, ← hmem]
    exact ⟨_, _, _, rfl⟩
  | cons d p ih =>
    rw [List.length_cons] at hlen
    have hmore : s.rxCnt + 1 ≠ s.rxLen := by bv_omega
    have hcnt : (s.rxCnt + 1).toNat = s.rxCnt.toNat + 1 := by bv_omega
    let u : State := { s.withReplyByte c (d :: (p ++ rest)) with rxCnt := s.rxCnt + 1 }
    have hbyte : step s = .next u := (h.step_byte (by bv_omega) hq).trans
      (congrArg _ (countReplyByte_more (s := s.withReplyByte c _) hmore))
    have hu : u.HostPayload := ⟨⟨h.quiet, h.noRsp, h.active⟩, h.receiving, h.host, h.fits, rfl⟩
    have hsink : u.sinkAddr = s.sinkAddr + 1 := by
      simp only [u, State.withReplyByte, State.took, State.sinkAddr, hcnt, Nat.add_assoc]
    have hleft : u.rxCnt.toNat + (p.length + 1) = u.rxLen.toNat := by
      simp only [u, State.withReplyByte, State.took, hcnt]
      omega
    obtain ⟨now, t, r, hrest⟩ := ih hu hleft rfl
    have hmem := setRange_memAfterReplyByte s c (d :: p)
    rw [← hcnt, ← hsink] at hmem
    refine ⟨now, t, r, ?_⟩
    rw [List.length_cons, runs_succ_of_next hbyte, hrest, ← hmem]
    rfl

/-- The phase with the whole payload in the queue; an empty payload takes one step without a read (R140, R170). -/
theorem State.HostPayload.runs_payload {s : State} {p rest : List Byte} (h : s.HostPayload) (hcnt : s.rxCnt = 0)
    (hlen : s.rxLen.toNat = p.length) (hq : s.rxq = p ++ rest) :
    ∃ now t r, runs (max p.length 1) s =
      .next { s.polled now t r rest with acc := ckFold s.acc p, rxCnt := s.rxLen,
                                         mem := Memory.setRange s.mem s.rxBase.toNat (p.take s.rxCap.toNat),
                                         ctl := .validating, pos := 0 } := by
  cases p with
  | nil =>
    have hdone : s.rxCnt = s.rxLen := by
      simp only [List.length_nil] at hlen
      bv_omega
    have hstep : step s = .next (s.enterCtl .validating) := by
      rw [h.step_eq_recvPayload, recvPayload_of_done hdone]
    refine ⟨s.nowMs, s.t0, s.timedResult, (runs_succ_of_next hstep).trans ?_⟩
    have hrest : s.rxq = rest := hq
    simp [State.polled, State.enterCtl, ckFold, Memory.setRange, hdone, hrest]
  | cons c p =>
    obtain ⟨now, t, r, hrun⟩ := h.runs_bytes (by simp [hlen, hcnt]) hq
    refine ⟨now, t, r, ?_⟩
    rw [List.length_cons, Nat.max_eq_left (by omega), hrun]
    simp [State.sinkAddr, hcnt]

/-- The trailer that matches the accumulator ends in the accept step; neither byte is folded (R141, R142, R172). -/
theorem State.Running.runs_trailer {s : State} {rest : List Byte} (h : s.Running) (hc : s.ctl = .validating)
    (hw : s.waiting = false) (hp : s.pos = 0) (hq : s.rxq = hiByte s.acc :: loByte s.acc :: rest) :
    ∃ t r, runs 2 s =
      .next ({ s.polled s.nowMs t r rest with candHi := hiByte s.acc, pos := 1 } : State).accept := by
  let u : State := { s.took (hiByte s.acc) (loByte s.acc :: rest) with candHi := hiByte s.acc, pos := 1 }
  have hu : u.Running := ⟨h.quiet, h.noRsp, h.active⟩
  have hhi : step s = .next u := by
    rw [h.step_receiving (by simp [hc]), h.taken_of_still hw, execFcRecv_validating hc, recvTrailer_of_byte hq,
      trailerByte_first (s := s.took _ _) _ hp]
    rfl
  have hlo : step u = .next (u.took (loByte s.acc) rest).accept := by
    rw [hu.step_receiving (by simp [u, State.took, hc]), hu.taken_of_still rfl, execFcRecv_validating (s := u) hc,
      recvTrailer_of_byte rfl, trailerByte_match (s := u.took _ _) _ (by simp [u, State.took]) (by simp [u, State.took])]
  exact ⟨_, _, (runs_succ_of_next hhi).trans (runs_succ_of_next hlo)⟩

/-! ### The accepted reply -/

/-- The accept step of a host TRANSFER (R172, R173). -/
theorem accept_host {s : State} (h : s.hs = .idle) :
    s.accept = { s with index := s.index + 1, resultLen := minWord s.rxLen s.rxCap, rsp := some (minWord s.rxLen s.rxCap),
                        ctl := .idle, pos := 0, waiting := false } :=
  (accept_eq s).elim And.right (fun hreset => absurd h hreset.1)

theorem minWord_eq_ofNat (a b : Word) : minWord a b = BitVec.ofNat 16 (min a.toNat b.toNat) := by
  unfold minWord
  split
  · next hle => rw [Nat.min_eq_left hle, BitVec.ofNat_toNat, BitVec.setWidth_eq]
  · next hgt => rw [Nat.min_eq_right (by bv_omega), BitVec.ofNat_toNat, BitVec.setWidth_eq]

/-- The whole reply of a host TRANSFER in the queue: header, payload, trailer and the accept step (R147). -/
theorem State.Running.runs_accepts_reply {s : State} {p rest : List Byte} (h : s.Running) (hc : s.ctl = .awaitingAck)
    (hh : s.hs = .idle) (hfit : s.RxBufferFits) (hp : p.length ≤ 65535) (hq : s.rxq = frame s.index p ++ rest) :
    ∃ now t r, let len := BitVec.ofNat 16 p.length
      runs (6 + max p.length 1) s =
        .next { s.polled now t r rest with
          acc := ck (frameBody s.index p), hdrI := 2, rxLen := len, rxCnt := len, candHi := hiByte (ck (frameBody s.index p)),
          mem := Memory.setRange s.mem s.rxBase.toNat (p.take s.rxCap.toNat), index := s.index + 1,
          resultLen := minWord len s.rxCap, rsp := some (minWord len s.rxCap), ctl := .idle, pos := 0 } := by
  let len := BitVec.ofNat 16 p.length
  let trailer := hiByte (ck (frameBody s.index p)) :: loByte (ck (frameBody s.index p)) :: rest
  have hlen : len.toNat = p.length := by
    rw [BitVec.toNat_ofNat]
    omega
  have hq' : s.rxq = frameHeader s.index len ++ (p ++ trailer) := by
    simp [hq, frame, frameBody, len, trailer]
  obtain ⟨now₁, t₁, r₁, hheader⟩ := h.runs_header hc hq'
  let u : State := { s.polled now₁ t₁ r₁ (p ++ trailer) with
    acc := ckFold Config.seed (frameHeader s.index len), hdrI := 2, rxLen := len, rxCnt := 0, ctl := .receivingPayload, pos := 0 }
  have hu : u.HostPayload := ⟨⟨h.quiet, h.noRsp, h.active⟩, rfl, hh, hfit, rfl⟩
  obtain ⟨now₂, t₂, r₂, hpayload⟩ := hu.runs_payload (p := p) (rest := trailer) rfl hlen rfl
  let v : State := { u.polled now₂ t₂ r₂ trailer with
    acc := ck (frameBody s.index p), rxCnt := len, mem := Memory.setRange s.mem s.rxBase.toNat (p.take s.rxCap.toNat),
    ctl := .validating, pos := 0 }
  have hv : v.Running := ⟨h.quiet, h.noRsp, h.active⟩
  obtain ⟨t₃, r₃, htrailer⟩ := hv.runs_trailer (rest := rest) rfl rfl rfl rfl
  let w : State := { v.polled now₂ t₃ r₃ rest with candHi := hiByte v.acc, pos := 1 }
  have haccept := accept_host (s := w) hh
  refine ⟨now₂, t₃, r₃, ?_⟩
  have hsteps : 6 + max p.length 1 = 4 + (max p.length 1 + 2) := by omega
  rw [hsteps, runs_add hheader, runs_add hpayload]
  exact htrailer.trans (congrArg _ haccept)

end Sys2Proof.Machine

open Sys2Proof Sys2Proof.Machine

/-- Settles O55: the run of `runs_accepts_reply`, read field by field. -/
theorem validReplyIsAccepted : Obligations.ValidReplyIsAccepted := by
  intro s p rest hquiet hrsp hhs hctl hpre hp hq
  have hfit := rxBufferFits_of_transferPre hpre
  obtain ⟨now, t, r, hrun⟩ := State.Running.runs_accepts_reply ⟨hquiet, hrsp, .inl hhs⟩ hctl hhs hfit hp hq
  have hcount : minWord (BitVec.ofNat 16 p.length) s.rxCap = BitVec.ofNat 16 (min p.length s.rxCap.toNat) := by
    rw [minWord_eq_ofNat, BitVec.toNat_ofNat, Nat.mod_eq_of_lt (by omega)]
  refine ⟨_, hrun, rfl, hhs, rfl, rfl, hcount, rfl, rfl, rfl, rfl, rfl, fun q hq => ?_⟩
  cases q with
  | resultLen | index | acc | status => cases hq
  | seg1Base | seg1Len | seg2Base | seg2Len | seg3Base | seg3Len | rxBase | rxCap => rfl

end

