-- ==== Sys2Proof/Proofs/CodecSteps.lean ====
section
/-! One step of FC_SEND in the trailer and of FC_RECV in each of its phases, as an equation for every state it may start from
(spec/41_frame_codec.md R137 to R142, spec/42_retry_sync_controller.md R163 to R173). -/

namespace Sys2Proof.Machine

/-! ### The trailer of a request (R137) -/

theorem execFcSend_trailer_waits {s : State} (hr : s.txReady = false) (hp : 4 + s.txLen.toNat ≤ s.pos) :
    execFcSend s = .next s := by
  rw [execFcSend, if_neg (by omega), if_neg (by omega), whenTxReady_not_ready _ hr, whenTxReady_not_ready _ hr, ite_self]

/-! ### A reply byte that is not the expected one (R138, R139, R142) -/

theorem exec_fcRecv (s : State) : exec .fcRecv s = execFcRecv s := rfl

/-- The accumulator behind the marker, seed folded with 0xFF (R138). -/
theorem ckUpdate_seed_startMarker : ckUpdate Config.seed Config.startMarker = 0x55AA := by
  decide

theorem recvMarker_of_other {s : State} {c : Byte} {rest : List Byte} (h : s.rxq = c :: rest) (hc : c ≠ Config.startMarker) :
    s.recvMarker = .next (s.took c rest).retrying := by
  rw [State.recvMarker, pollRead_took _ h]
  exact if_neg hc

theorem headerByte_badIndex {s : State} {c : Byte} (h : s.hdrI = 0) (hc : c ≠ s.index) : s.headerByte c = s.retrying := by
  rw [State.headerByte, if_pos h, if_neg hc]
  rfl

theorem trailerByte_mismatch {s : State} {c : Byte} (h0 : s.pos ≠ 0) (h : s.acc ≠ joinBytes s.candHi c) :
    s.trailerByte c = s.retrying := by
  rw [State.trailerByte, if_neg h0, if_neg (by simpa [accMatches] using h)]
  rfl

/-! ### The sink of a payload byte (R140, R145) -/

theorem activeCap_host {s : State} (h : s.hs ≠ .reset) : s.activeCap = s.rxCap :=
  if_neg h

theorem activeCap_reset {s : State} (h : s.hs = .reset) : s.activeCap = 1 :=
  if_pos h

theorem storeReplyByte_stored {s : State} (c : Byte) (hh : s.hs ≠ .reset) (hcap : s.rxCnt < s.rxCap)
    (ha : s.sinkAddr < Config.memSize) : s.storeReplyByte c = .next { s with mem := Memory.set s.mem s.sinkAddr c } := by
  rw [State.storeReplyByte, activeCap_host hh, if_pos hcap, if_neg hh, memWrite_of_lt c ha]

theorem storeReplyByte_reset {s : State} (c : Byte) (hh : s.hs = .reset) (h0 : s.rxCnt = 0) :
    s.storeReplyByte c = .next { s with hsReply := c } := by
  rw [State.storeReplyByte, activeCap_reset hh, if_pos (by simp [h0]), if_pos hh]

theorem storeReplyByte_dropped {s : State} (c : Byte) (hcap : ¬ s.rxCnt < s.activeCap) : s.storeReplyByte c = .next s :=
  if_neg hcap

/-- The sink's one byte is taken by the first byte of a reset reply (R30). -/
theorem not_lt_activeCap_reset {s : State} (hh : s.hs = .reset) (h0 : s.rxCnt ≠ 0) : ¬ s.rxCnt < s.activeCap := by
  rw [activeCap_reset hh]
  bv_omega

/-- Counting a byte does not depend on where it was stored. -/
theorem countReplyByte_setMem (s : State) (m : List Host.Cell) :
    { s with mem := m }.countReplyByte = { s.countReplyByte with mem := m } := by
  rcases countReplyByte_cases s with ⟨hlast, h⟩ | ⟨hmore, h⟩
  · rw [h]
    exact if_pos hlast
  · rw [h]
    exact if_neg hmore

theorem countReplyByte_setHsReply (s : State) (r : Byte) :
    { s with hsReply := r }.countReplyByte = { s.countReplyByte with hsReply := r } := by
  rcases countReplyByte_cases s with ⟨hlast, h⟩ | ⟨hmore, h⟩
  · rw [h]
    exact if_pos hlast
  · rw [h]
    exact if_neg hmore

/-- A payload byte is folded, stored or dropped, and then counted (R140). -/
theorem execFcRecv_payloadByte {s t : State} {c : Byte} {rest : List Byte} (hc : s.ctl = .receivingPayload)
    (hn : s.rxCnt ≠ s.rxLen) (hq : s.rxq = c :: rest) (hstore : ((s.took c rest).fold c).storeReplyByte c = .next t) :
    execFcRecv s = .next t.countReplyByte := by
  rw [execFcRecv_receivingPayload hc, recvPayload_of_byte hn hq, hstore, andThen_next]

/-! ### The accept step of the reset transfer (R173) -/

theorem accept_reset {s : State} (h : s.hs = .reset) :
    s.accept = { s with index := s.index + 1, ctl := .idle, hs := .check, pos := 0, waiting := false } :=
  (accept_eq s).elim (fun hhost => absurd (h.symm.trans hhost.1) (by decide)) And.right

/-! ### A silent line (R130, R251, R267) -/

/-- The next step of FC_RECV polls the line, for a byte that must come within `ms`: the first byte of a reply, or a later one. -/
def State.ReadsWithin (s : State) (ms : Nat) : Prop :=
  s.ctl = .awaitingAck ∧ ms = Config.tAck ∨
    (s.ctl = .receivingHeader ∨ s.ctl = .receivingPayload ∧ s.rxCnt ≠ s.rxLen ∨ s.ctl = .validating) ∧ ms = Config.tByte

/-- A wait that has run out abandons the attempt, in every phase alike (R164, R166, R169, R171). -/
theorem execFcRecv_timeout {s : State} {ms : Nat} (h : s.ReadsWithin ms) (hq : s.rxq = []) (ht : ms ≤ s.waitedMs) :
    execFcRecv s = .next s.gaveUp.retrying := by
  rcases h with ⟨hc, rfl⟩ | ⟨hc | ⟨hc, hn⟩ | hc, rfl⟩
  · rw [execFcRecv_awaitingAck hc, State.recvMarker, pollRead_timeout hq ht]
    rfl
  · rw [execFcRecv_receivingHeader hc, State.recvHeader, pollRead_timeout hq ht]
    rfl
  · rw [execFcRecv_receivingPayload hc, State.recvPayload, if_neg hn, pollRead_timeout hq ht]
    rfl
  · rw [execFcRecv_validating hc, State.recvTrailer, pollRead_timeout hq ht]
    rfl

/-- Before that the block stays in its phase and polls again. -/
theorem execFcRecv_waits {s : State} {ms : Nat} (h : s.ReadsWithin ms) (hq : s.rxq = []) (ht : s.waitedMs < ms) :
    execFcRecv s = .next s.stillWaits := by
  rcases h with ⟨hc, rfl⟩ | ⟨hc | ⟨hc, hn⟩ | hc, rfl⟩
  · rw [execFcRecv_awaitingAck hc, State.recvMarker, pollRead_pending hq ht]
    rfl
  · rw [execFcRecv_receivingHeader hc, State.recvHeader, pollRead_pending hq ht]
    rfl
  · rw [execFcRecv_receivingPayload hc, State.recvPayload, if_neg hn, pollRead_pending hq ht]
    rfl
  · rw [execFcRecv_validating hc, State.recvTrailer, pollRead_pending hq ht]
    rfl

end Sys2Proof.Machine

open Sys2Proof Sys2Proof.Machine

/-- Settles O22, by the two trailer positions and the wait. -/
theorem fcSendWritesTheTrailer : Obligations.FcSendWritesTheTrailer :=
  fun _ => ⟨execFcSend_trailerHi, execFcSend_trailerLo, execFcSend_trailer_waits⟩

/-- Settles O23, by whether the first byte is the marker. -/
theorem fcRecvMarkerPhase : Obligations.FcRecvMarkerPhase := by
  intro s c rest hctl hq
  rw [exec_fcRecv, execFcRecv_awaitingAck hctl]
  refine ⟨fun hc => ?_, recvMarker_of_other hq⟩
  obtain rfl : c = Config.startMarker := hc
  rw [recvMarker_of_marker hq, State.markerSeen, ckUpdate_seed_startMarker]
  rfl

/-- Settles O24, by which of the three header bytes is awaited. -/
theorem fcRecvHeaderPhase : Obligations.FcRecvHeaderPhase := by
  intro s c rest hctl hq
  rw [exec_fcRecv, execFcRecv_receivingHeader hctl, recvHeader_of_byte hq]
  refine ⟨fun hI hc => ?_, fun hI hc => ?_, fun hI => ?_, fun hI => ?_⟩
  · subst hc
    exact congrArg _ (headerByte_index (s := s.took s.index rest) hI)
  · rw [headerByte_badIndex (s := s.took c rest) hI hc]
  · exact congrArg _ (headerByte_lengthHi (s := s.took c rest) c hI)
  · exact congrArg _ (headerByte_lengthLo (s := s.took c rest) c hI)

/-- Settles O25: the end of the phase, and for a byte each of the four things its sink can do with it. -/
theorem fcRecvPayloadPhase : Obligations.FcRecvPayloadPhase := by
  refine ⟨fun s hctl hdone => ?_, fun s c rest hctl hmore hq => ?_⟩
  · rw [exec_fcRecv, execFcRecv_receivingPayload hctl, recvPayload_of_done hdone]
    rfl
  · let v : State := (s.took c rest).fold c
    refine ⟨fun hh hcap ha => ?_, fun hh hcap => ?_, fun hh h0 => ?_, fun hh h0 => ?_⟩
    · exact (execFcRecv_payloadByte hctl hmore hq (storeReplyByte_stored (s := v) c hh hcap ha)).trans
        (congrArg _ (countReplyByte_setMem v _))
    · have hfull : ¬ v.rxCnt < v.activeCap := by rwa [activeCap_host (s := v) hh]
      exact execFcRecv_payloadByte hctl hmore hq (storeReplyByte_dropped (s := v) c hfull)
    · exact (execFcRecv_payloadByte hctl hmore hq (storeReplyByte_reset (s := v) c hh h0)).trans
        (congrArg _ (countReplyByte_setHsReply v c))
    · exact execFcRecv_payloadByte hctl hmore hq (storeReplyByte_dropped (s := v) c (not_lt_activeCap_reset hh h0))

/-- Settles O26: the first trailer byte, the mismatch, and the accept step of either kind of transfer. -/
theorem fcRecvTrailerPhaseAndAccept : Obligations.FcRecvTrailerPhaseAndAccept := by
  intro s c rest hctl hq
  let v : State := s.took c rest
  rw [exec_fcRecv, execFcRecv_validating hctl, recvTrailer_of_byte hq]
  refine ⟨fun hp => ?_, fun hp hne => ?_, fun hp hm hh n hn => ?_, fun hp hm hh => ?_⟩
  · exact congrArg _ (trailerByte_first (s := v) c hp)
  · rw [trailerByte_mismatch (s := v) (ne_of_eq_of_ne hp Nat.one_ne_zero) hne]
  · have hcount : minWord v.rxLen v.rxCap = n := by
      rw [minWord_eq_ofNat]
      exact BitVec.eq_of_toNat_eq (by simp [v, State.took, ← hn])
    rw [trailerByte_match (s := v) c (ne_of_eq_of_ne hp Nat.one_ne_zero) hm, accept_host (s := v) hh, hcount]
    rfl
  · rw [trailerByte_match (s := v) c (ne_of_eq_of_ne hp Nat.one_ne_zero) hm, accept_reset (s := v) hh]
    rfl

/-- Settles O27, by the wait each phase's poll is given. -/
theorem fcRecvTimeoutsAbandonTheAttempt : Obligations.FcRecvTimeoutsAbandonTheAttempt := by
  intro s hq
  refine ⟨fun hc ht => ?_, fun hc ht => ?_, fun hc hn ht => ?_, fun hc ht => ?_, fun hc ht => ?_, fun hc ht => ?_⟩
  · exact execFcRecv_timeout (.inl ⟨hc, rfl⟩) hq ht
  · exact execFcRecv_timeout (.inr ⟨.inl hc, rfl⟩) hq ht
  · exact execFcRecv_timeout (.inr ⟨.inr (.inl ⟨hc, hn⟩), rfl⟩) hq ht
  · exact execFcRecv_timeout (.inr ⟨.inr (.inr hc), rfl⟩) hq ht
  · exact execFcRecv_waits (.inl ⟨hc, rfl⟩) hq ht
  · exact execFcRecv_waits (.inr ⟨hc, rfl⟩) hq ht

end

