-- ==== Sys2Proof/Proofs/RetrySyncController.lean ====
section
/-! The Retry-and-Sync Controller (spec/42_retry_sync_controller.md): the entry of TRANSFER, the retry path, where the index may
change, and the transition tables of R175 and R213. -/

namespace Sys2Proof.Machine

/-! ### The preconditions of TRANSFER (R162) -/

/-- The model's test of a buffer is R162's condition on its last byte. -/
theorem fitsAt_iff (base len : Word) :
    fitsAt base len.toNat = true ↔ (len ≠ 0 → base.toNat + len.toNat - 1 ≤ 0xFFFF) := by
  have hzero : len = 0 ↔ len.toNat = 0 := by bv_omega
  have hsize : Config.memSize = 65536 := rfl
  simp only [fitsAt, Bool.or_eq_true, beq_iff_eq, decide_eq_true_eq, ne_eq, hzero]
  omega

theorem transferPre_iff (s : State) : transferPre s ↔ s.lengthsOk = true ∧ s.buffersFit = true := by
  simp only [State.lengthsOk, State.buffersFit, Bool.and_eq_true, decide_eq_true_eq, fitsAt_iff, and_assoc]
  rfl

theorem exec_transfer (s : State) : exec .transfer s = execTransfer s := rfl

/-! ### The retry path (R174, R260) -/

theorem controllerStep_retrying {s : State} (h : s.ctl = .retrying) : controllerStep s = .next s.retryStep := by
  rw [controllerStep, h]

theorem step_retrying {s : State} (hblock : s.nextMove = .block) (hr : s.rsp = none) (hh : s.hs = .idle ∨ s.hs = .reset)
    (hc : s.ctl = .retrying) : step s = .next s.taken.retryStep := by
  rw [step_of_block hblock, blockStep_controller (by simp [hr]) (by simp [hc]) (by simpa using hh),
    controllerStep_retrying (by simp [hc])]

theorem retryStep_waits {s : State} (hp : s.pos = 0) (ht : s.waitedMs < Config.tBackoff) :
    s.retryStep = { s with t0 := s.waitStart, waiting := true } := by
  simp [State.retryStep, hp, State.pollDelay, ht]

theorem retryStep_elapsed {s : State} (hp : s.pos = 0) (ht : Config.tBackoff ≤ s.waitedMs) :
    s.retryStep = { s with t0 := s.waitStart, waiting := false, pos := 1 } := by
  simp [State.retryStep, hp, State.pollDelay, Nat.not_lt.mpr ht, State.advance]

theorem retryStep_drains {s : State} (hp : s.pos ≠ 0) (hq : s.rxq ≠ []) : s.retryStep = { s with rxq := [] } := by
  rw [State.retryStep, if_neg hp, if_pos (available_eq_true.mpr hq), drainRound_eq]

theorem retryStep_returns {s : State} (hp : s.pos ≠ 0) (hq : s.rxq = []) :
    s.retryStep = { s with ctl := .sending, pos := 0, waiting := false } := by
  rw [State.retryStep, if_neg hp, if_neg (by simp [available_eq_false.mpr hq])]
  rfl

/-! ### The moves of the environment -/

/-- A move of the environment other than hardware reset leaves the block's own state alone (R13, R282). -/
theorem applyMove_blockPart (s : State) {m : Move} (hm : m ≠ .rst) : (s.applyMove m).blockPart = s.blockPart := by
  cases m with
  | rst => exact absurd rfl hm
  | block | arrive | tick | setTxReady | command | hostStore => rfl

/-- So does taking the move off the schedule. -/
theorem taken_blockPart (s : State) : s.taken.blockPart = s.blockPart := by
  obtain ⟨q, n, h⟩ := taken_eq s
  rw [h]
  rfl

theorem index_of_blockPart {s t : State} (h : t.blockPart = s.blockPart) : t.index = s.index :=
  (congrArg State.index h :)

theorem ctl_of_blockPart {s t : State} (h : t.blockPart = s.blockPart) : t.ctl = s.ctl :=
  (congrArg State.ctl h :)

theorem hs_of_blockPart {s t : State} (h : t.blockPart = s.blockPart) : t.hs = s.hs :=
  (congrArg State.hs h :)

/-- Every step is an effect of the block's, a hardware reset, or a move that leaves the block's own state alone. -/
theorem step_cases {s t : State} (h : step s = .next t) :
    (s.nextMove = .block ∧ Effect s.taken t) ∨ (s.nextMove = .rst ∧ t = s.taken.hwReset) ∨ t.blockPart = s.blockPart := by
  rcases step_eq_next h with ⟨hblock, h⟩ | ⟨-, rfl⟩
  · exact .inl ⟨hblock, blockStep_effect h⟩
  · by_cases hrst : s.nextMove = .rst
    · refine .inr (.inl ⟨hrst, ?_⟩)
      rw [hrst]
      rfl
    · exact .inr (.inr ((applyMove_blockPart _ hrst).trans (taken_blockPart s)))

/-! ### The index (R22, R173, R177) -/

theorem finishAccept_index (s : State) : s.finishAccept.index = s.index := by
  unfold State.finishAccept
  split
  · rfl
  · rfl

/-- An operation that responds at once touches neither the index nor the two state registers. -/
theorem Responds.frame {w : Cmd} {s t : State} (h : Responds w s t) : t.index = s.index ∧ t.ctl = s.ctl ∧ t.hs = s.hs := by
  obtain ⟨-, -, -, -, -, -, -, -, -, -, -, -, rfl⟩ := h
  exact ⟨rfl, rfl, rfl⟩

/-- `t` follows `s` by the accept step: the second trailer byte completes a checksum that matches (R172, R173). -/
def AcceptStep (s t : State) : Prop :=
  s.ctl = .validating ∧ s.pos ≠ 0 ∧ t.ctl = .idle ∧ t.index = s.index + 1 ∧
    ∃ c rest, s.rxq = c :: rest ∧ t.rxq = rest ∧ s.acc = joinBytes s.candHi c

/-- Of everything the block does, only the accept step touches the index. -/
theorem Effect.index_eq_or_acceptStep {s t : State} (h : Effect s t) : t.index = s.index ∨ AcceptStep s t := by
  cases h with
  | accept c rest hr hh hc hp hq hm => exact .inr ⟨hc, hp, rfl, rfl, c, rest, hq, rfl, hm⟩
  | acceptReset c rest hr hh hc hp hq hm => exact .inr ⟨hc, hp, rfl, rfl, c, rest, hq, rfl, hm⟩
  | accepted => exact .inl (finishAccept_index s)
  | respond _ w rest hr hh hc hq h =>
    exact .inl (h.frame.1)
  | _ => exact .inl rfl

/-! ### The transition tables (R175, R213) -/

theorem ctlTable_retrying_of_receiving {s : State} (h : s.receiving) : ctlTable s.ctl .retrying = true := by
  rcases h with h | h | h | h
  all_goals
    rw [h]
    rfl

/-- Outside `Accepted`, and with the controller at rest while a handshake state runs, every effect keeps to R175. -/
theorem Effect.ctl_follows_table {s t : State} (h : Effect s t) (hacc : s.ctl ≠ .accepted) (hrun : s.ctl ≠ .idle → s.mayRun) :
    t.ctl = s.ctl ∨ ctlTable s.ctl t.ctl = true := by
  cases h with
  | respond _ w rest hr hh hc hq h =>
    exact .inl (h.frame.2.1)
  | transfer w rest hr hh hc => exact .inr (by rw [hc]; rfl)
  | sendLow hr hh hc => exact .inr (by rw [hc]; rfl)
  | giveUp hr hh hc => exact .inr (ctlTable_retrying_of_receiving hc)
  | reject c rest hr hh hc => exact .inr (ctlTable_retrying_of_receiving hc)
  | marker rest hr hh hc => exact .inr (by rw [hc]; rfl)
  | headerLow c rest hr hh hc => exact .inr (by rw [hc]; rfl)
  | payloadEnd hr hh hc => exact .inr (by rw [hc]; rfl)
  | payloadByte c rest m r hr hh hc he hq hm ctl pos hn =>
    rcases hn with ⟨-, rfl, -⟩ | ⟨-, rfl, -⟩
    · exact .inr (by rw [hc]; rfl)
    · exact .inl hc.symm
  | accept c rest hr hh hc => exact .inr (by rw [hc]; rfl)
  | acceptReset c rest hr hh hc => exact .inr (by rw [hc]; rfl)
  | accepted hr hh hc => exact absurd hc hacc
  | retryReturn hr hh hc => exact .inr (by rw [hc]; rfl)
  | hsReset hr hh =>
    have hidle : s.ctl = .idle := by
      by_contra hne
      rcases hrun hne with h | h <;> simp [h] at hh
    exact .inr (by rw [hidle]; rfl)
  | _ => exact .inl rfl

/-- Outside `Accepted` every effect keeps to R213. -/
theorem Effect.hs_follows_table {s t : State} (h : Effect s t) (hacc : s.ctl ≠ .accepted) :
    t.hs = s.hs ∨ hsTable s.hs t.hs = true := by
  cases h with
  | respond _ w rest hr hh hc hq h =>
    exact .inl (h.frame.2.2)
  | begin w rest hr hh => exact .inr (by rw [hh]; rfl)
  | acceptReset c rest hr hh => exact .inr (by rw [hh]; rfl)
  | accepted hr hh hc => exact absurd hc hacc
  | hsNext after hr hh =>
    simp only [List.mem_cons, Prod.mk.injEq, List.not_mem_nil, or_false] at hh
    rcases hh with ⟨hh, rfl⟩ | ⟨hh, rfl⟩ | ⟨hh, rfl⟩ | ⟨hh, rfl⟩ | ⟨hh, rfl⟩ | ⟨hh, rfl⟩
    all_goals exact .inr (by rw [hh]; rfl)
  | hsReset hr hh => exact .inr (by rw [hh]; rfl)
  | hsDone n hr hh => exact .inr (by rw [hh]; rfl)
  | hsHalt n hr hh => exact .inr (by rw [hh]; rfl)
  | _ => exact .inl rfl

end Sys2Proof.Machine

open Sys2Proof Sys2Proof.Machine

/-- Settles O14: the two tests of `execTransfer` are R162's preconditions. -/
theorem transferEntersSendingOrIsRefused : Obligations.TransferEntersSendingOrIsRefused := by
  intro s
  rw [transferPre_iff, exec_transfer, execTransfer]
  refine ⟨fun ⟨hlen, hfit⟩ => ?_, fun hviolated => ?_⟩
  · rw [if_pos hlen, if_pos hfit]
    rfl
  · split
    · next hlen => exact .inr (if_neg fun hfit => hviolated ⟨hlen, hfit⟩)
    · exact .inl rfl

/-- Settles O40: the delay by the time waited, then the drain by whether the queue holds a byte. -/
theorem retryDelaysThenDrainsThenResends : Obligations.RetryDelaysThenDrainsThenResends := by
  intro s hblock hrsp hhs hctl
  rw [step_retrying hblock hrsp hhs hctl, ← taken_pos, ← taken_rxq]
  refine ⟨fun hp ht => ?_, fun hp ht => ?_, fun hp hq => ?_, fun hp hq => ?_⟩
  · rw [retryStep_waits hp ht]
  · rw [retryStep_elapsed hp ht]
  · rw [retryStep_drains hp hq]
  · rw [retryStep_returns hp hq]

/-- Settles O45: of the block's effects only the accept step touches the index, and of the other moves only hardware reset. -/
theorem indexAdvancesOnlyOnAccept : Obligations.IndexAdvancesOnlyOnAccept := by
  intro s t hstep
  rcases step_cases hstep with ⟨hblock, heffect⟩ | ⟨hrst, rfl⟩ | hkept
  · rcases heffect.index_eq_or_acceptStep with hsame | haccept
    · exact .inl (by simpa using hsame)
    · exact .inr (.inr ⟨hblock, by simpa [AcceptStep] using haccept⟩)
  · exact .inr (.inl ⟨hrst, rfl⟩)
  · exact .inl (index_of_blockPart hkept)

/-- Settles O50: the invariant rules out `Accepted` and a running controller in a handshake state of its own, and from any other
state each effect keeps to both tables. -/
theorem transitionsFollowTheTables : Obligations.TransitionsFollowTheTables := by
  intro s t hinv hnrst hstep
  obtain ⟨-, hacc, -, hrun, -⟩ := hinv
  rcases step_cases hstep with ⟨-, heffect⟩ | ⟨hrst, -⟩ | hkept
  · have hctl := heffect.ctl_follows_table (by simpa using hacc) (by simpa [State.mayRun] using hrun)
    have hhs := heffect.hs_follows_table (by simpa using hacc)
    rw [taken_ctl] at hctl
    rw [taken_hs] at hhs
    exact ⟨hctl, hhs⟩
  · exact absurd hrst hnrst
  · exact ⟨.inl (ctl_of_blockPart hkept), .inl (hs_of_blockPart hkept)⟩

end

