-- ==== Sys2Proof/Proofs/StartupHandshake.lean ====
section
/-! The Startup Handshake (spec/43_startup_handshake.md): BEGIN, the settle loop, the four strings with their delays, the final
drain, the test of the reset reply, and the halt. -/

namespace Sys2Proof.Machine

/-! ### BEGIN (R201, R202) -/

theorem exec_beginHs (s : State) : exec .beginHs s = execBegin s := rfl

theorem execBegin_first {s : State} (h : s.started = false) :
    execBegin s = .next { s with started := true, hs := .settle, pos := 0, waiting := false } := by
  rw [execBegin, if_neg (by simp [h])]
  rfl

theorem execBegin_again {s : State} (h : s.started = true) : execBegin s = .next { s with rsp := some 0 } := by
  rw [execBegin, if_pos h]
  rfl

/-! ### A poll of a delay (R132) -/

theorem pollDelay_waits {s : State} {t : Nat} (h : s.waitedMs < t) :
    s.pollDelay t = { s with t0 := s.waitStart, waiting := true } := by
  rw [pollDelay_eq, decide_eq_true h]

theorem pollDelay_elapsed {s : State} {t : Nat} (h : t ≤ s.waitedMs) :
    s.pollDelay t = { s with t0 := s.waitStart, waiting := false } := by
  rw [pollDelay_eq, decide_eq_false (Nat.not_lt.mpr h)]

/-! ### The settle loop (R203) -/

theorem not_available_of_empty {s : State} (h : s.rxq = []) : ¬ s.available = true := by
  simp [available_eq, h]

theorem step_settle {s : State} (hblock : s.nextMove = .block) (hr : s.rsp = none) (hh : s.hs = .settle) :
    step s = .next s.taken.settleStep := by
  simp [step_of_block hblock, blockStep, hr, hh]

theorem settleStep_drains {s : State} (hp : s.pos = 0) (hq : s.rxq ≠ []) : s.settleStep = { s with rxq := [] } := by
  rw [State.settleStep, if_pos hp, if_pos (available_eq_true.mpr hq), drainRound_eq]

theorem settleStep_drained {s : State} (hp : s.pos = 0) (hq : s.rxq = []) :
    s.settleStep = { s with pos := 1, waiting := false } := by
  rw [State.settleStep, if_pos hp, if_neg (not_available_of_empty hq), State.advance, hp]

theorem settleStep_waits {s : State} (hp : s.pos ≠ 0) (ht : s.waitedMs < Config.tSettle) :
    s.settleStep = { s with t0 := s.waitStart, waiting := true } := by
  rw [State.settleStep, if_neg hp, pollDelay_waits ht]
  rfl

theorem settleStep_repeats {s : State} (hp : s.pos ≠ 0) (ht : Config.tSettle ≤ s.waitedMs) (hq : s.rxq ≠ []) :
    s.settleStep = { s with t0 := s.waitStart, hs := .settle, pos := 0, waiting := false } := by
  rw [State.settleStep, if_neg hp, pollDelay_elapsed ht]
  exact if_pos (available_eq_true.mpr hq)

theorem settleStep_done {s : State} (hp : s.pos ≠ 0) (ht : Config.tSettle ≤ s.waitedMs) (hq : s.rxq = []) :
    s.settleStep = { s with t0 := s.waitStart, hs := .interrupt, pos := 0, waiting := false } := by
  rw [State.settleStep, if_neg hp, pollDelay_elapsed ht]
  exact if_neg (not_available_of_empty hq)

/-! ### The strings and their delays (R95, R204 to R207) -/

/-- The present handshake state sends `str`, then waits `ms` and goes to `after`. -/
def State.SendsString (s : State) (str : List Byte) (ms : Nat) (after : HsState) : Prop :=
  s.hs = .interrupt ∧ str = s.params.hsInterrupt ∧ ms = Config.tHs1 ∧ after = .blank1 ∨
  s.hs = .blank1 ∧ str = s.params.hsBlank ∧ ms = Config.tHs2 ∧ after = .blank2 ∨
  s.hs = .blank2 ∧ str = s.params.hsBlank ∧ ms = Config.tHs3 ∧ after = .activate ∨
  s.hs = .activate ∧ str = s.params.hsActivate ∧ ms = Config.tHs4 ∧ after = .drain

/-- The four sending states run one procedure. -/
theorem step_sendsString {s : State} {str : List Byte} {ms : Nat} {after : HsState} (hblock : s.nextMove = .block)
    (hr : s.rsp = none) (h : s.SendsString str ms after) : step s = .next (s.taken.sendThenDelay str ms after) := by
  rw [step_of_block hblock]
  rcases h with ⟨hh, rfl, rfl, rfl⟩ | ⟨hh, rfl, rfl, rfl⟩ | ⟨hh, rfl, rfl, rfl⟩ | ⟨hh, rfl, rfl, rfl⟩
  all_goals simp [blockStep, hr, hh]

section
variable {s : State} {str : List Byte} {ms : Nat} {after : HsState}

theorem sendThenDelay_byte {b : Byte} (hb : str[s.pos]? = some b) :
    s.sendThenDelay str ms after = s.whenTxReady fun u => (u.write b).advance := by
  rw [State.sendThenDelay, hb]

theorem sendThenDelay_waits (hl : str.length ≤ s.pos) (ht : s.waitedMs < ms) :
    s.sendThenDelay str ms after = { s with t0 := s.waitStart, waiting := true } := by
  rw [State.sendThenDelay, List.getElem?_eq_none hl, pollDelay_waits ht]
  rfl

theorem sendThenDelay_elapsed (hl : str.length ≤ s.pos) (ht : ms ≤ s.waitedMs) :
    s.sendThenDelay str ms after = { s with t0 := s.waitStart, hs := after, pos := 0, waiting := false } := by
  rw [State.sendThenDelay, List.getElem?_eq_none hl, pollDelay_elapsed ht]
  rfl

end

/-! ### The final drain (R208) -/

theorem step_hsDrain {s : State} (hblock : s.nextMove = .block) (hr : s.rsp = none) (hh : s.hs = .drain) :
    step s = .next s.taken.hsDrainStep := by
  simp [step_of_block hblock, blockStep, hr, hh]

theorem hsDrainStep_drains {s : State} (hq : s.rxq ≠ []) : s.hsDrainStep = { s with rxq := [] } := by
  rw [State.hsDrainStep, if_pos (available_eq_true.mpr hq), drainRound_eq]

theorem hsDrainStep_done {s : State} (hq : s.rxq = []) :
    s.hsDrainStep = { s with hs := .reset, ctl := .sending, pos := 0, waiting := false } := by
  rw [State.hsDrainStep, if_neg (not_available_of_empty hq)]
  rfl

/-! ### The test of the reset reply (R210 to R212) -/

theorem step_hsCheck {s : State} (hblock : s.nextMove = .block) (hr : s.rsp = none) (hh : s.hs = .check) :
    step s = .next s.taken.hsCheckStep := by
  simp [step_of_block hblock, blockStep, hr, hh]

theorem hsVerdict_ok (s : State) {reply : Byte} (h : reply = Config.hsResetOk) :
    s.hsVerdict reply = { s with hs := .idle, pos := 0, waiting := false, rsp := some 0 } :=
  if_pos h

theorem hsVerdict_other (s : State) {reply : Byte} (h : reply ≠ Config.hsResetOk) :
    s.hsVerdict reply = { s with hs := .halted, pos := 0, waiting := false } :=
  if_neg h

theorem hsCheckStep_of_reply {s : State} (h : s.rxLen ≠ 0) : s.hsCheckStep = s.hsVerdict s.hsReply :=
  if_neg h

theorem hsCheckStep_of_empty {s : State} (h : s.rxLen = 0) :
    s.hsCheckStep = { s with freeCount := s.freeCount + 1 }.hsVerdict (Config.freeHsReply s.freeCount) :=
  if_pos h

/-! ### The halt (R211) -/

/-- With the block halted only the environment moves. -/
theorem step_of_halted {s : State} (hh : s.hs = .halted) (hr : s.rsp = none) :
    step s = .next (s.taken.applyMove s.nextMove) := by
  by_cases hblock : s.nextMove = .block
  · rw [step_of_block hblock, hblock]
    simp [blockStep, hr, hh, State.applyMove]
  · exact step_of_env hblock

theorem busy_of_halted {s : State} (h : s.hs = .halted) : s.busy = true := by
  simp [State.busy, h]

theorem cmdReady_of_busy {s : State} (h : s.busy = true) : s.cmdReady = false := by
  simp [State.cmdReady, h]

/-- No move of the environment writes to the line, hardware reset included (R282). -/
@[simp] theorem applyMove_txlog (s : State) (m : Move) : (s.applyMove m).txlog = s.txlog := by
  cases m <;> rfl

/-- Nor does one bring the host a response. -/
@[simp] theorem applyMove_rspLog (s : State) (m : Move) : (s.applyMove m).rspLog = s.rspLog := by
  cases m <;> rfl

end Sys2Proof.Machine

open Sys2Proof Sys2Proof.Machine

/-- Settles O15, by the one-shot guard. -/
theorem beginRunsOnlyOnce : Obligations.BeginRunsOnlyOnce := by
  intro s
  rw [exec_beginHs]
  exact ⟨execBegin_first, execBegin_again⟩

/-- Settles O41: the settle loop by position, time waited and queue, the final drain by the queue alone. -/
theorem settleLoopAndFinalDrain : Obligations.SettleLoopAndFinalDrain := by
  intro s hblock hrsp
  rw [← taken_pos, ← taken_rxq]
  refine ⟨fun hh hp hq => ?_, fun hh hp hq => ?_, fun hh hp ht => ?_, fun hh hp ht hq => ?_, fun hh hp ht hq => ?_,
    fun hh hq => ?_, fun hh hq => ?_⟩
  · rw [step_settle hblock hrsp hh, settleStep_drains hp hq]
  · rw [step_settle hblock hrsp hh, settleStep_drained hp hq]
  · rw [step_settle hblock hrsp hh, settleStep_waits hp ht]
  · rw [step_settle hblock hrsp hh, settleStep_repeats hp ht hq]
  · rw [step_settle hblock hrsp hh, settleStep_done hp ht hq]
  · rw [step_hsDrain hblock hrsp hh, hsDrainStep_drains hq]
  · rw [step_hsDrain hblock hrsp hh, hsDrainStep_done hq]

/-- Settles O42: the four states run `sendThenDelay`, which sends while the position is inside the string and waits after it. -/
theorem handshakeStringsAndDelays : Obligations.HandshakeStringsAndDelays := by
  intro s str ms after hblock hrsp hstate
  rw [step_sendsString hblock hrsp hstate, ← taken_pos, ← taken_txReady, ← taken_txlog]
  refine ⟨fun b hb hready => ?_, fun b hb hwait => ?_, fun hl ht => ?_, fun hl ht => ?_⟩
  · rw [sendThenDelay_byte hb, whenTxReady_ready _ hready]
    rfl
  · rw [sendThenDelay_byte hb, whenTxReady_not_ready _ hwait]
  · rw [sendThenDelay_waits hl ht]
  · rw [sendThenDelay_elapsed hl ht]

/-- Settles O43: the verdict on the reply's first byte, and for an empty reply on whatever value is drawn. -/
theorem handshakeVerdict : Obligations.HandshakeVerdict := by
  intro s hblock hrsp hcheck
  rw [step_hsCheck hblock hrsp hcheck, ← taken_rxLen, ← taken_hsReply, ← taken_freeCount]
  refine ⟨fun hlen hzero => ?_, fun hlen hother => ?_, fun hempty => ?_⟩
  · rw [hsCheckStep_of_reply hlen, hsVerdict_ok _ hzero]
  · rw [hsCheckStep_of_reply hlen, hsVerdict_other _ hother]
  · rw [hsCheckStep_of_empty hempty]
    by_cases hfree : Config.freeHsReply s.taken.freeCount = Config.hsResetOk
    · exact .inl (by rw [hsVerdict_ok _ hfree])
    · exact .inr (by rw [hsVerdict_other _ hfree])

/-- Settles O44: a halted block's step is the environment's move, which leaves the block's own state, the line and the responses
alone. -/
theorem haltedForGood : Obligations.HaltedForGood := by
  intro s t hhalted hrsp hnrst hstep
  obtain rfl : s.taken.applyMove s.nextMove = t := by
    rw [step_of_halted hhalted hrsp] at hstep
    cases hstep
    rfl
  have hblockPart := (applyMove_blockPart s.taken hnrst).trans (taken_blockPart s)
  have hbusy := busy_of_halted ((hs_of_blockPart hblockPart).trans hhalted)
  refine ⟨hblockPart, hbusy, cmdReady_of_busy hbusy, by simp, by simp, fun hblock => ?_⟩
  rw [hblock]
  exact ⟨taken_rxq s, taken_mem s, taken_cmds s⟩

end

