-- ==== Sys2Proof/Proofs/HostRegisterOps.lean ====
section
/-! NOP, CK_RESET, CK_FINALIZE and RDREG (spec/44_host_register_ops.md R230, R232, spec/40_checksum_engine.md R111, R113), from
their command words to their next states, and the STATUS word that RDREG may answer (spec/10_state.md R37). -/

namespace Sys2Proof.Machine

/-! ### STATUS bit by bit (R37) -/

theorem statusWord_started (s : State) : s.statusWord.getLsbD 0 = s.started := by
  rw [State.statusWord, BitVec.getLsbD_setWidth, BitVec.getLsbD_append]
  simp

theorem statusWord_match (s : State) : s.statusWord.getLsbD 1 = s.matchFlag := by
  rw [State.statusWord, BitVec.getLsbD_setWidth, BitVec.getLsbD_append]
  simp

/-- The two flags fill a word of width 2, so the bits from 2 on lie outside it. -/
theorem statusWord_upper (s : State) {i : Nat} (hi : 2 ≤ i) : s.statusWord.getLsbD i = false := by
  rw [State.statusWord, BitVec.getLsbD_setWidth, BitVec.getLsbD_of_ge _ i hi, Bool.and_false]

/-! ### What the operations answer (R111, R113, R230, R232) -/

theorem exec_nop (s : State) : exec .nop s = .next { s with rsp := some 0 } := rfl

theorem exec_ckReset (s : State) : exec .ckReset s = .next { s with acc := Config.seed, rsp := some 0 } := rfl

theorem exec_ckFinalize (s : State) : exec .ckFinalize s = .next { s with rsp := some s.acc } := rfl

theorem exec_rdreg (r : HostReg) (s : State) : exec (.rdreg r) s = .next { s with rsp := some (s.readReg r) } := rfl

end Sys2Proof.Machine

namespace Sys2Proof

/-! ### The command words of RDREG (R90) -/

theorem decodeHost_of_op_six {w : Cmd} (hop : opField w = 6) : decodeHost w = decodeRdreg w := by
  rw [decodeHost, hop]
  rfl

theorem decodeRdreg_of_register {w : Cmd} {r : HostReg} (hr : HostReg.ofNum (rField w) = some r) (ha : argField w = 0) :
    decodeRdreg w = .rdreg r := by
  rw [decodeRdreg, hr]
  exact if_pos ha

/-- `0x6r0000` is RDREG of the register with number `r`. -/
theorem decodeHost_cmdWord_rdreg (r : HostReg) : decodeHost (cmdWord 6 r.num 0) = .rdreg r := by
  have hr : HostReg.ofNum (rField (cmdWord 6 r.num 0)) = some r := by rw [rField_cmdWord, ofNum_num]
  rw [decodeHost_of_op_six (opField_cmdWord ..), decodeRdreg_of_register hr (argField_cmdWord ..)]

end Sys2Proof

open Sys2Proof Sys2Proof.Machine

/-- Settles O11: three fixed words, and each whole next state as one equation. -/
theorem nopCkResetAndCkFinalizeRespond : Obligations.NopCkResetAndCkFinalizeRespond := by
  refine ⟨by decide, by decide, by decide, fun s => ?_⟩
  exact ⟨exec_nop s, exec_ckReset s, exec_ckFinalize s⟩

/-- Settles O13: the response is `readReg`, which is compared with the numbered registers one by one; only INDEX, the one register
narrower than a word, is extended. -/
theorem rdregRespondsWithRegister : Obligations.RdregRespondsWithRegister := by
  intro r s
  refine ⟨decodeHost_cmdWord_rdreg r, s.readReg r, exec_rdreg r s, ?_, ?_⟩
  · rintro rfl
    exact ⟨statusWord_started s, statusWord_match s, fun _ => statusWord_upper s⟩
  · cases r with
    | index => exact (BitVec.ofNat_toNat 16 s.index).symm
    | seg1Base | seg1Len | seg2Base | seg2Len | seg3Base | seg3Len | rxBase | rxCap | resultLen | acc | status => rfl

end

