-- ==== Sys2Proof/Proofs/Exceptions.lean ====
section
/-! The two raises (spec/60_exceptions.md R252, R257, R258). Each is the entry of one state of a state machine, and the whole frame
of the raise is the frame of that entry. -/

namespace Sys2Proof.Machine

/-! ### The frame of entering a state (log 9) -/

theorem enterCtl_eq (s : State) (c : CtlState) : s.enterCtl c = { s with ctl := c, pos := 0, waiting := false } := rfl

theorem enterHs_eq (s : State) (h : HsState) : s.enterHs h = { s with hs := h, pos := 0, waiting := false } := rfl

/-! ### What a raise enters (R252, R258) -/

/-- The right side does not name the cause: it is a label and is recorded nowhere (R257). -/
theorem raiseLinkError_eq_enterCtl (s : State) (cause : LinkCause) : s.raiseLinkError cause = s.enterCtl .retrying := rfl

theorem raiseHalt_eq_enterHs (s : State) : s.raiseHalt = s.enterHs .halted := rfl

end Sys2Proof.Machine

open Sys2Proof Sys2Proof.Machine

/-- Settles O39: a link error is the entry of `Retrying` and a halt the entry of `HsHalted`; each entry writes its state element and
the position. -/
theorem raisingWritesOneStateElement : Obligations.RaisingWritesOneStateElement := by
  intro s cause
  constructor
  · rw [raiseLinkError_eq_enterCtl, enterCtl_eq]
  · rw [raiseHalt_eq_enterHs, enterHs_eq]

end

