-- ==== Sys2Proof/Proofs/Invariant.lean ====
section
/-! The invariant of the machine (`Inv`): it holds at reset, every step keeps it, and from a state that meets it no step of the block
reaches outside buffer memory (spec/10_state.md R28, spec/20_memory.md R53, spec/42_retry_sync_controller.md R162). -/

namespace Sys2Proof.Machine

/-- The clauses of `Inv` by name. -/
structure State.Sound (s : State) : Prop where
  memWf : Memory.wf s.mem = true
  notAccepted : s.ctl ≠ .accepted
  hdr : s.hdrI ≠ 3
  mayRun : s.ctl ≠ .idle → s.mayRun
  resetRuns : s.hs = .reset → s.ctl ≠ .idle
  rspReady : s.rsp ≠ none → s.busy = false
  begun : s.hs ≠ .idle → s.started = true
  preconditions : s.ctl ≠ .idle → s.hs = .idle → s.lengthsOk = true ∧ s.buffersFit = true
  sendPos : s.ctl = .sending → s.pos ≤ 5 + s.txLen.toNat
  sendLen : s.ctl = .sending → s.pos ≠ 0 → s.txLen.toNat = s.activeLen
  received : s.ctl = .receivingPayload → s.rxCnt ≤ s.rxLen
  complete : s.ctl = .validating → s.rxCnt = s.rxLen ∧ s.pos ≤ 1

theorem inv_iff_sound (s : State) : Inv s ↔ s.Sound := by
  constructor
  · rintro ⟨hmem, hacc, hhdr, hrun, hreset, hrsp, hbegun, hpre, hpos, hlen, hrecv, hval⟩
    exact ⟨hmem, hacc, hhdr, hrun, hreset, hrsp, hbegun, hpre, hpos, hlen, hrecv, hval⟩
  · rintro ⟨hmem, hacc, hhdr, hrun, hreset, hrsp, hbegun, hpre, hpos, hlen, hrecv, hval⟩
    exact ⟨hmem, hacc, hhdr, hrun, hreset, hrsp, hbegun, hpre, hpos, hlen, hrecv, hval⟩

/-! ### What a sound state says of the controller -/

theorem not_busy_iff {s : State} : s.busy = false ↔ s.ctl = .idle ∧ s.hs = .idle := by
  simp [State.busy]

theorem busy_of_running {s : State} (h : s.ctl ≠ .idle) : s.busy = true := by
  simp [State.busy, h]

/-- While a handshake state other than `HsReset` runs, the controller is at rest (R161, R181) and the guard is set (R201). -/
theorem State.Sound.handshake {s : State} (h : s.Sound) (hi : s.hs ≠ .idle) (hr : s.hs ≠ .reset) :
    s.ctl = .idle ∧ s.started = true := by
  refine ⟨?_, h.begun hi⟩
  by_contra hne
  exact (h.mayRun hne).elim hi hr

theorem State.Sound.sendable {s : State} (h : s.Sound) (hc : s.ctl ≠ .idle) : s.Sendable :=
  (h.mayRun hc).symm.imp_right fun hh => ⟨hh, (transferPre_iff s).mpr (h.preconditions hc hh)⟩

/-- A running controller has no response outstanding (R40). -/
theorem State.Sound.rsp_none {s : State} (h : s.Sound) (hc : s.ctl ≠ .idle) : s.rsp = none := by
  by_contra hne
  exact absurd (h.rspReady hne) (by simp [busy_of_running hc])

/-! ### Where a sound state leads -/

/-- With the controller at rest only memory, `hdr_i`, the response and the one-shot guard are left to check. -/
theorem sound_of_rest {s : State} (hmem : Memory.wf s.mem = true) (hhdr : s.hdrI ≠ 3) (hc : s.ctl = .idle)
    (hh : s.hs ≠ .reset) (hrsp : s.rsp ≠ none → s.hs = .idle) (hbegun : s.hs ≠ .idle → s.started = true) : s.Sound where
  memWf := hmem
  notAccepted := by simp [hc]
  hdr := hhdr
  mayRun := fun hne => absurd hc hne
  resetRuns := fun hreset => absurd hreset hh
  rspReady := fun hr => not_busy_iff.mpr ⟨hc, hrsp hr⟩
  begun := hbegun
  preconditions := fun hne => absurd hc hne
  sendPos := by simp [hc]
  sendLen := by simp [hc]
  received := by simp [hc]
  complete := by simp [hc]

/-- A running controller may enter the beginning of any state but `Idle` and `Accepted`; what the state says of the reply bytes
consumed is to be checked. -/
theorem State.Sound.entered {s : State} {c : CtlState} (h : s.Sound) (hc : s.ctl ≠ .idle) (hi : c ≠ .idle) (ha : c ≠ .accepted)
    (hrecv : c = .receivingPayload → s.rxCnt ≤ s.rxLen) (hval : c = .validating → s.rxCnt = s.rxLen) : (s.enterCtl c).Sound where
  memWf := h.memWf
  notAccepted := ha
  hdr := h.hdr
  mayRun := fun _ => h.mayRun hc
  resetRuns := fun _ => hi
  rspReady := fun hr => absurd (h.rsp_none hc) hr
  begun := h.begun
  preconditions := fun _ => h.preconditions hc
  sendPos := fun _ => Nat.zero_le _
  sendLen := fun _ hp => absurd rfl hp
  received := hrecv
  complete := fun hv => ⟨hval hv, Nat.zero_le _⟩

theorem State.Sound.retrying {s : State} (h : s.Sound) (hc : s.ctl ≠ .idle) : s.retrying.Sound :=
  h.entered hc nofun nofun nofun nofun

theorem ne_idle_of_receiving {s : State} (h : s.receiving) : s.ctl ≠ .idle := by
  rcases h with h | h | h | h
  all_goals simp [h]

theorem Responds.sound {w : Cmd} {s t : State} (h : Responds w s t) (hs : s.Sound) (hc : s.ctl = .idle) (hh : s.hs = .idle) :
    t.Sound := by
  obtain ⟨-, -, -, -, -, -, -, -, -, -, -, -, rfl⟩ := h
  exact sound_of_rest hs.memWf hs.hdr hc (by simp [hh]) (fun _ => hh) (fun hne => absurd hh hne)

/-- The memory after a payload byte, in each of the three things its sink can do. -/
theorem wf_of_sink {s : State} {c r : Byte} {m : List Host.Cell} (h : Memory.wf s.mem = true)
    (hm : (s.hs = .idle ∧ s.rxCnt < s.rxCap ∧ s.sinkAddr < Config.memSize ∧ m = Memory.set s.mem s.sinkAddr c ∧ r = s.hsReply) ∨
      (s.hs = .reset ∧ m = s.mem ∧ r = c ∧ s.rxCnt < 1) ∨ (¬ s.rxCnt < s.activeCap ∧ m = s.mem ∧ r = s.hsReply)) :
    Memory.wf m = true := by
  rcases hm with ⟨-, -, ha, rfl, -⟩ | ⟨-, rfl, -⟩ | ⟨-, rfl, -⟩
  · exact Memory.wf_set h ha c
  · exact h
  · exact h

/-- Every effect of the block keeps the invariant. -/
theorem Effect.keeps_sound {s t : State} (he : Effect s t) (h : s.Sound) : t.Sound := by
  cases he with
  | rest => exact h
  | deliver v hr => exact { h with rspReady := nofun }
  | respond _ w rest hr hh hc hq hresp => exact hresp.sound { h with } hc hh
  | transfer w rest hr hh hc hq hl hb =>
    exact { h with
      notAccepted := nofun
      mayRun := fun _ => .inl hh
      resetRuns := fun _ => nofun
      rspReady := fun hne => absurd hr hne
      preconditions := fun _ _ => ⟨hl, hb⟩
      sendPos := fun _ => Nat.zero_le _
      sendLen := fun _ hp => absurd rfl hp
      received := nofun
      complete := nofun }
  | begin w rest hr hh hc hq => exact sound_of_rest h.memWf h.hdr hc nofun (fun hne => absurd hr hne) fun _ => rfl
  | sendMarker hr hh hc hp =>
    have hlen : (BitVec.ofNat 16 s.activeLen).toNat = s.activeLen := by
      have hle := (h.sendable (by simp [hc])).activeLen_le
      rw [BitVec.toNat_ofNat]
      omega
    exact { h with
      sendPos := fun _ => by simp only [State.sent, beginFrame_pos, hp]; omega
      sendLen := fun _ _ => hlen
      complete := fun hv => absurd (hc.symm.trans hv) nofun }
  | sendByte b hr hh hc hp hl =>
    exact { h with
      sendPos := fun _ => by simp only [State.sent]; omega
      sendLen := fun _ _ => h.sendLen hc hp
      complete := fun hv => absurd (hc.symm.trans hv) nofun }
  | sendHigh hr hh hc hp hl =>
    exact { h with
      sendPos := fun _ => by simp only; omega
      sendLen := fun _ _ => h.sendLen hc (by omega)
      complete := fun hv => absurd (hc.symm.trans hv) nofun }
  | sendLow hr hh hc hp hl =>
    exact State.Sound.entered (s := { s with txlog := s.txlog ++ [loByte s.acc] }) { h with } (by simp [hc]) nofun nofun nofun nofun
  | wait hr hh hc hq => exact { h with }
  | giveUp hr hh hc hq => exact State.Sound.retrying (s := s.gaveUp) { h with } (ne_idle_of_receiving hc)
  | reject c rest hr hh hc hq => exact State.Sound.retrying (s := s.took c rest) { h with } (ne_idle_of_receiving hc)
  | marker rest hr hh hc hq =>
    have hrun : s.ctl ≠ .idle := by simp [hc]
    exact State.Sound.entered (s := { s.took Config.startMarker rest with
      acc := ckUpdate Config.seed Config.startMarker, hdrI := 0 }) { h with hdr := by simp } hrun nofun nofun nofun nofun
  | headerIndex rest hr hh hc hi hq => exact { h with hdr := by simp }
  | headerHigh c rest hr hh hc hi hq =>
    exact { h with
      hdr := by simp
      received := fun hv => absurd (hc.symm.trans hv) nofun
      complete := fun hv => absurd (hc.symm.trans hv) nofun }
  | headerLow c rest hr hh hc h0 h1 hq =>
    have hrun : s.ctl ≠ .idle := by simp [hc]
    let u : State := { s.took c rest with
      acc := ckUpdate s.acc c, rxLen := joinBytes (hiByte s.rxLen) c, rxCnt := 0 }
    have hu : u.Sound := { h with
      received := fun hv => absurd (hc.symm.trans hv) nofun
      complete := fun hv => absurd (hc.symm.trans hv) nofun }
    exact hu.entered hrun nofun nofun (fun _ => BitVec.le_def.mpr (Nat.zero_le _)) nofun
  | payloadEnd hr hh hc he => exact h.entered (by simp [hc]) nofun nofun nofun fun _ => he
  | payloadByte c rest m r hr hh hc he hq hm ctl pos hn =>
    have hrun : s.ctl ≠ .idle := by simp [hc]
    have hle := h.received hc
    let u : State := { s.took c rest with acc := ckUpdate s.acc c, rxCnt := s.rxCnt + 1, mem := m, hsReply := r }
    have hu : u.Sound := { h with
      memWf := wf_of_sink h.memWf hm
      received := fun _ => by simp only [u, State.took]; bv_omega
      complete := fun hv => absurd (hc.symm.trans hv) nofun }
    rcases hn with ⟨hlast, rfl, rfl⟩ | ⟨-, rfl, rfl⟩
    · exact hu.entered hrun nofun nofun nofun fun _ => hlast
    · rw [← hc]
      exact hu
  | trailerHigh c rest hr hh hc hp hq =>
    exact { h with
      sendPos := fun hv => absurd (hc.symm.trans hv) nofun
      sendLen := fun hv => absurd (hc.symm.trans hv) nofun
      complete := fun _ => ⟨(h.complete hc).1, by simp only [hp]; omega⟩ }
  | accept c rest hr hh hc hp hq hm =>
    exact sound_of_rest h.memWf h.hdr rfl (fun hreset => absurd (hh.symm.trans hreset) nofun) (fun _ => hh)
      (fun hne => absurd hh hne)
  | acceptReset c rest hr hh hc hp hq hm =>
    exact sound_of_rest h.memWf h.hdr rfl nofun (fun hne => absurd hr hne) (fun _ => h.begun (by simp [hh]))
  | accepted hr hh hc => exact absurd hc h.notAccepted
  | retryWait hr hh hc hp => exact { h with }
  | retryElapsed hr hh hc hp =>
    exact { h with
      sendPos := fun hv => absurd (hc.symm.trans hv) nofun
      sendLen := fun hv => absurd (hc.symm.trans hv) nofun
      complete := fun hv => absurd (hc.symm.trans hv) nofun }
  | retryDrain hr hh hc hp hq => exact { h with }
  | retryReturn hr hh hc hq => exact h.entered (by simp [hc]) nofun nofun nofun nofun
  | hsDrain hr hh hq => exact { h with }
  | settleDrained hr hh hq =>
    obtain ⟨hc, hb⟩ := h.handshake (by simp [hh]) (by simp [hh])
    exact sound_of_rest h.memWf h.hdr hc (by simp [hh]) (fun hne => absurd hr hne) fun _ => hb
  | hsWait hr hh => exact { h with }
  | hsString b hr hh =>
    have hne : s.hs ≠ .idle ∧ s.hs ≠ .reset := by
      constructor
      all_goals
        intro he
        simp [he] at hh
    obtain ⟨hc, hb⟩ := h.handshake hne.1 hne.2
    exact sound_of_rest h.memWf h.hdr hc hne.2 (fun hne => absurd hr hne) fun _ => hb
  | hsNext after hr hh =>
    have hne : s.hs ≠ .idle ∧ s.hs ≠ .reset ∧ after ≠ .reset := by
      refine ⟨?_, ?_, ?_⟩
      all_goals
        intro he
        simp [he] at hh
    obtain ⟨hc, hb⟩ := h.handshake hne.1 hne.2.1
    exact sound_of_rest h.memWf h.hdr hc hne.2.2 (fun hne => absurd hr hne) fun _ => hb
  | hsReset hr hh hq =>
    exact { h with
      notAccepted := nofun
      mayRun := fun _ => .inr rfl
      resetRuns := fun _ => nofun
      rspReady := fun hne => absurd hr hne
      begun := fun _ => h.begun (by simp [hh])
      preconditions := nofun
      sendPos := fun _ => Nat.zero_le _
      sendLen := fun _ hp => absurd rfl hp
      received := nofun
      complete := nofun }
  | hsDone n hr hh =>
    obtain ⟨hc, -⟩ := h.handshake (by simp [hh]) (by simp [hh])
    exact sound_of_rest h.memWf h.hdr hc nofun (fun _ => rfl) (fun hne => absurd rfl hne)
  | hsHalt n hr hh =>
    obtain ⟨hc, hb⟩ := h.handshake (by simp [hh]) (by simp [hh])
    exact sound_of_rest h.memWf h.hdr hc nofun (fun hne => absurd hr hne) fun _ => hb

/-- Taking the move off the schedule keeps the invariant. -/
theorem State.Sound.taken {s : State} (h : s.Sound) : s.taken.Sound := by
  obtain ⟨q, n, ht⟩ := taken_eq s
  rw [ht]
  exact { h with }

/-- Every move of the environment keeps the invariant: the host stores inside the memory, and a reset block rests (R51, R280). -/
theorem State.Sound.applyMove {s : State} (h : s.Sound) (m : Move) : (s.applyMove m).Sound := by
  cases m with
  | block => exact h
  | arrive bytes => exact { h with }
  | tick ms => exact { h with }
  | setTxReady ready => exact { h with }
  | command w => exact { h with }
  | hostStore a b => exact { h with memWf := Memory.wf_set h.memWf a.isLt b }
  | rst => exact sound_of_rest h.memWf (by simp [State.applyMove]) rfl nofun (fun _ => rfl) (fun hne => absurd rfl hne)

theorem State.Sound.step {s t : State} (h : s.Sound) (hstep : step s = .next t) : t.Sound := by
  rcases step_eq_next hstep with ⟨-, hblock⟩ | ⟨-, rfl⟩
  · exact (blockStep_effect hblock).keeps_sound h.taken
  · exact h.taken.applyMove _

/-! ### No step of a sound state is a fault -/

/-- The reset command has a byte at every position inside its length (R30). -/
theorem withResetByte_of_lt {k : Nat} (hk : k < Config.hsResetCmd.length) (f : Byte → Answer) :
    withResetByte k f = f Config.hsResetCmd[k] := by
  rw [withResetByte, List.getElem?_eq_getElem hk]

/-- The payload byte at the present position exists (R53, R136). -/
theorem State.Sound.withPayloadByte {s : State} {k : Nat} (h : s.Sound) (hc : s.ctl = .sending) (hp : s.pos = 4 + k)
    (hk : k < s.txLen.toNat) (f : Byte → Answer) : ∃ b, s.withPayloadByte f = f b := by
  have hpos : s.pos - 4 = k := by omega
  have hlen : k < s.activeLen := by rwa [← h.sendLen hc (by omega)]
  rw [State.withPayloadByte, hpos]
  rcases h.sendable (by simp [hc]) with hreset | ⟨hidle, hpre⟩
  · rw [State.activeLen, if_pos hreset] at hlen
    rw [if_pos hreset]
    exact ⟨_, withResetByte_of_lt hlen f⟩
  · have hhs : s.hs ≠ .reset := by simp [hidle]
    rw [State.activeLen, if_neg hhs] at hlen
    rw [if_neg hhs, withMemByte_of_lt _ (payloadAddr_lt hpre hlen)]
    exact ⟨_, rfl⟩

theorem State.Sound.execFcSend_next {s : State} (h : s.Sound) (hc : s.ctl = .sending) : ∃ t, execFcSend s = .next t := by
  unfold execFcSend
  split
  · exact ⟨_, rfl⟩
  · next h4 =>
    split
    · next hl =>
      obtain ⟨b, hb⟩ := h.withPayloadByte hc (k := s.pos - 4) (by omega) (by omega) fun b => .next (s.sendPayloadByte b)
      exact ⟨_, hb⟩
    · split
      · exact ⟨_, rfl⟩
      · exact ⟨_, rfl⟩

/-- A reply byte is stored inside the memory, goes to `hs_reply`, or is dropped (R140, R145, R162). -/
theorem State.Sound.storeReplyByte_next {s : State} (h : s.Sound) (hc : s.ctl ≠ .idle) (c : Byte) :
    ∃ t, s.storeReplyByte c = .next t := by
  rcases h.sendable hc with hreset | ⟨hidle, hpre⟩
  · unfold State.storeReplyByte
    split
    · exact ⟨_, rfl⟩
    · exact ⟨_, rfl⟩
  · exact ⟨_, storeReplyByte_host c hidle (rxBufferFits_of_transferPre hpre)⟩

/-! A receiving phase that stores nothing goes on with whatever the poll answers. -/

theorem recvMarker_next (s : State) : ∃ t, s.recvMarker = .next t := by
  unfold State.recvMarker
  dsimp only
  split
  · exact ⟨_, rfl⟩
  · exact ⟨_, rfl⟩
  · split
    · exact ⟨_, rfl⟩
    · exact ⟨_, rfl⟩

theorem recvHeader_next (s : State) : ∃ t, s.recvHeader = .next t := by
  unfold State.recvHeader
  dsimp only
  split
  all_goals exact ⟨_, rfl⟩

theorem recvTrailer_next (s : State) : ∃ t, s.recvTrailer = .next t := by
  unfold State.recvTrailer
  dsimp only
  split
  all_goals exact ⟨_, rfl⟩

theorem State.Sound.recvPayload_next {s : State} (h : s.Sound) (hc : s.ctl ≠ .idle) : ∃ t, s.recvPayload = .next t := by
  by_cases hdone : s.rxCnt = s.rxLen
  · exact ⟨_, recvPayload_of_done hdone⟩
  · rw [State.recvPayload, if_neg hdone]
    rcases poll_cases s Config.tByte with ⟨c, rest, -, hp⟩ | ⟨-, -, hp⟩ | ⟨-, -, hp⟩ <;> rw [hp]
    · have hu : ((s.took c rest).fold c).Sound := { h with }
      obtain ⟨t, ht⟩ := hu.storeReplyByte_next hc c
      exact ⟨t.countReplyByte, congrArg (andThen · _) ht⟩
    · exact ⟨_, rfl⟩
    · exact ⟨_, rfl⟩

/-- The controller of a sound state always has a next step: it neither faults nor refuses. -/
theorem State.Sound.controllerStep_next {s : State} (h : s.Sound) : ∃ t, controllerStep s = .next t := by
  cases hc : s.ctl with
  | idle => exact ⟨s, by rw [controllerStep, hc]⟩
  | sending =>
    rw [controllerStep_sending hc]
    exact h.execFcSend_next hc
  | awaitingAck =>
    rw [controllerStep_receiving (by simp [hc]), execFcRecv_awaitingAck hc]
    exact recvMarker_next s
  | receivingHeader =>
    rw [controllerStep_receiving (by simp [hc]), execFcRecv_receivingHeader hc]
    exact recvHeader_next s
  | receivingPayload =>
    rw [controllerStep_receiving (by simp [hc]), execFcRecv_receivingPayload hc]
    exact h.recvPayload_next (by simp [hc])
  | validating =>
    rw [controllerStep_receiving (by simp [hc]), execFcRecv_validating hc]
    exact recvTrailer_next s
  | accepted => exact absurd hc h.notAccepted
  | retrying => exact ⟨_, controllerStep_retrying hc⟩

/-- A host command word is answered with a next state or refused, never with a fault (R97, R162). -/
theorem exec_decodeHost_ne_fault (w : Cmd) (s : State) (f : Fault) : exec (decodeHost w) s ≠ .fault f := by
  rcases decodeHost_cases w with hd | hd | ⟨b, hd⟩ | hd | ⟨c, hd⟩ | ⟨r, v, hr, hd⟩ | ⟨r, hd⟩ | hd | hd | hd <;> rw [hd]
  · nofun
  · nofun
  · nofun
  · nofun
  · nofun
  · simp [exec, execWrreg, hr]
  · nofun
  · rw [exec_transfer, execTransfer]
    split
    · split <;> nofun
    · nofun
  · rw [exec_beginHs, execBegin]
    split <;> nofun
  · nofun

theorem issue_ne_fault (s : State) (f : Fault) : issue s ≠ .fault f := by
  unfold issue
  split
  · nofun
  · exact exec_decodeHost_ne_fault _ _ f

/-- Only the controller reaches into buffer memory, and from a sound state it stays inside. -/
theorem State.Sound.blockStep_ne_fault {s : State} (h : s.Sound) (f : Fault) : blockStep s ≠ .fault f := by
  have hctl : controllerStep s ≠ .fault f := by
    obtain ⟨t, ht⟩ := h.controllerStep_next
    simp [ht]
  unfold blockStep
  split
  · nofun
  · split
    case h_1 =>
      split
      · exact issue_ne_fault s f
      · exact hctl
    case h_8 => exact hctl
    all_goals nofun

end Sys2Proof.Machine

open Sys2Proof Sys2Proof.Machine

/-- Settles O51: the block rests and memory lists nothing. -/
theorem invariantAtReset : Obligations.InvariantAtReset :=
  (inv_iff_sound _).mpr (sound_of_rest rfl (by decide) rfl nofun (fun _ => rfl) (fun hne => absurd rfl hne))

/-- Settles O52: each effect of the block and each move of the environment keeps every clause. -/
theorem stepKeepsInvariant : Obligations.StepKeepsInvariant := by
  intro s t hinv hstep
  rw [inv_iff_sound] at hinv ⊢
  exact hinv.step hstep

/-- Settles O53: a move of the environment is a next state, and the block's step stays inside the memory. -/
theorem noFaultUnderInvariant : Obligations.NoFaultUnderInvariant := by
  intro s hinv f
  by_cases hblock : s.nextMove = .block
  · rw [step_of_block hblock]
    exact ((inv_iff_sound s).mp hinv).taken.blockStep_ne_fault f
  · rw [step_of_env hblock]
    nofun

end

