-- ==== Sys2Proof/Proofs/CodeRoundTrip.lean ====
section
/-! Codes of operations (spec/30_encoding.md R89 to R100): every well-formed operation is read back from its code, and every command
word is the code of the operation it decodes to. -/

namespace Sys2Proof

open Sys2Proof.Machine

/-! ### From an operation's code back to it -/

theorem decodeHost_of_op_five {w : Cmd} (hop : opField w = 5) : decodeHost w = decodeWrreg w := by
  rw [decodeHost, hop]
  rfl

theorem decodeWrreg_of_register {w : Cmd} {r : HostReg} (hr : HostReg.ofNum (rField w) = some r) (hw : r.writable = true) :
    decodeWrreg w = .wrreg r (argField w) := by
  rw [decodeWrreg, hr]
  exact if_pos hw

/-- `0x5rvvvv` is WRREG of the descriptor with number `r`. -/
theorem decodeHost_cmdWord_wrreg {r : HostReg} (hw : r.writable = true) (v : Word) :
    decodeHost (cmdWord 5 r.num v) = .wrreg r v := by
  have hr : HostReg.ofNum (rField (cmdWord 5 r.num v)) = some r := by rw [rField_cmdWord, ofNum_num]
  rw [decodeHost_of_op_five (opField_cmdWord ..), decodeWrreg_of_register hr hw, argField_cmdWord]

/-- The well-formed reserved terms are those of the words that R96 does not call legal. -/
theorem wf_reserved_iff (w : Cmd) : (Instr.reserved w).wf = true ↔ ¬ legalFields w := by
  rw [← legalWord_iff_legalFields, Instr.wf, Bool.not_eq_true', Bool.not_eq_true]

/-- A command letter is read from the first payload byte, whatever follows it (R93). -/
theorem decodePayload_letter {b : Byte} {i : Instr} (rest : List Byte) (hb : b ≠ 0x58) (hl : decodeLetter b = some i) :
    decodePayload (b :: rest) = .ok i := by
  have hne : b :: rest ≠ Config.hsResetCmd := fun h => hb (List.cons.inj h).1
  rw [decodePayload, if_neg hne, hl]

/-! ### From a command word to its operation and back -/

/-- `i` is well formed and `w` is its command word. -/
def HasWord (i : Instr) (w : Cmd) : Prop :=
  i.wf = true ∧ encode i = some (.host w)

theorem hasWord_reserved {w : Cmd} (h : decodeHost w = .reserved w) : HasWord (.reserved w) w :=
  ⟨(wf_reserved_iff w).mpr ((decodeHost_eq_reserved_iff w).mp h), rfl⟩

/-- An operation without operands has its word, or the word is reserved. -/
theorem decodeBare_word {i : Instr} {w : Cmd} {op : BitVec 4} (hop : opField w = op) (hi : HasWord i (cmdWord op 0 0)) :
    decodeBare i w = .reserved w ∨ HasWord (decodeBare i w) w := by
  unfold decodeBare
  split
  · next hzero =>
    obtain ⟨hr, ha⟩ := hzero
    refine .inr ?_
    rwa [← hop, ← hr, ← ha, cmdWord_fields] at hi
  · exact .inl rfl

theorem decodeUpdate_word {w : Cmd} (hop : opField w = 2) :
    decodeUpdate w = .reserved w ∨ HasWord (decodeUpdate w) w := by
  by_cases h : rField w = 0 ∧ hiByte (argField w) = 0
  · obtain ⟨hr, hhi⟩ := h
    refine .inr ⟨?_, ?_⟩
    · rw [decodeUpdate_of_byte hr hhi]
      rfl
    · rw [decodeUpdate_of_byte hr hhi, encode, setWidth_eq_joinBytes, ← hhi, joinBytes_halves, ← hop, ← hr, cmdWord_fields]
  · exact .inl (if_neg h)

theorem decodeMatches_word {w : Cmd} (hop : opField w = 4) :
    decodeMatches w = .reserved w ∨ HasWord (decodeMatches w) w := by
  by_cases hr : rField w = 0
  · rw [decodeMatches_of_rField_zero hr]
    refine .inr ⟨rfl, ?_⟩
    rw [encode, ← hop, ← hr, cmdWord_fields]
  · exact .inl (if_neg hr)

theorem decodeWrreg_word {w : Cmd} (hop : opField w = 5) :
    decodeWrreg w = .reserved w ∨ HasWord (decodeWrreg w) w := by
  unfold decodeWrreg
  split
  · next r hr =>
    split
    · next hw =>
      refine .inr ⟨hw, ?_⟩
      rw [encode, num_of_ofNum hr, ← hop, cmdWord_fields]
    · exact .inl rfl
  · exact .inl rfl

theorem decodeRdreg_word {w : Cmd} (hop : opField w = 6) :
    decodeRdreg w = .reserved w ∨ HasWord (decodeRdreg w) w := by
  unfold decodeRdreg
  split
  · next r hr =>
    split
    · next ha =>
      refine .inr ⟨rfl, ?_⟩
      rw [encode, num_of_ofNum hr, ← hop, ← ha, cmdWord_fields]
    · exact .inl rfl
  · exact .inl rfl

/-- Each operation's decoder answers the word's own operation, or `reserved`. -/
theorem decodeHost_reserved_or_word (w : Cmd) : decodeHost w = .reserved w ∨ HasWord (decodeHost w) w := by
  unfold decodeHost
  split
  · next hop => exact decodeBare_word (BitVec.eq_of_toNat_eq (y := 0) hop) ⟨rfl, rfl⟩
  · next hop => exact decodeBare_word (BitVec.eq_of_toNat_eq (y := 1) hop) ⟨rfl, rfl⟩
  · next hop => exact decodeUpdate_word (BitVec.eq_of_toNat_eq hop)
  · next hop => exact decodeBare_word (BitVec.eq_of_toNat_eq (y := 3) hop) ⟨rfl, rfl⟩
  · next hop => exact decodeMatches_word (BitVec.eq_of_toNat_eq hop)
  · next hop => exact decodeWrreg_word (BitVec.eq_of_toNat_eq hop)
  · next hop => exact decodeRdreg_word (BitVec.eq_of_toNat_eq hop)
  · next hop => exact decodeBare_word (BitVec.eq_of_toNat_eq (y := 7) hop) ⟨rfl, rfl⟩
  · next hop => exact decodeBare_word (BitVec.eq_of_toNat_eq (y := 8) hop) ⟨rfl, rfl⟩
  · exact .inl rfl

end Sys2Proof

open Sys2Proof Sys2Proof.Machine

/-- Settles O1: the fixed words and bytes by evaluation, the words with operands from their fields, and a reserved word because the
decoder answers `reserved` on every word that is not legal. -/
theorem decodeOfEncodeIsTheInstruction : Obligations.DecodeOfEncodeIsTheInstruction := by
  intro i c hwf hcode
  cases i with
  | nop | ckReset | ckFinalize | transfer | beginHs =>
    cases hcode
    decide
  | ckUpdate b =>
    cases hcode
    exact congrArg _ (decodeHost_cmdWord_update b)
  | ckMatches cand =>
    cases hcode
    exact congrArg _ (decodeHost_cmdWord_matches cand)
  | wrreg r v =>
    cases hcode
    exact congrArg _ (decodeHost_cmdWord_wrreg hwf v)
  | rdreg r =>
    cases hcode
    exact congrArg _ (decodeHost_cmdWord_rdreg r)
  | payDequeue | payEnqueue | payJson | payCount | payStore | payFetch | payReset =>
    cases hcode
    decide
  | reserved w =>
    cases hcode
    exact congrArg _ ((decodeHost_eq_reserved_iff w).mpr ((wf_reserved_iff w).mp hwf))
  | timedRead | delay | drain | emit | fcSend | fcRecv | get | put | msgSend | msgRecv | msgCount | jsonSend => cases hcode

/-- Settles O2, by whether the word is reserved. -/
theorem encodeOfDecodeIsTheWord : Obligations.EncodeOfDecodeIsTheWord := by
  intro w
  rcases decodeHost_reserved_or_word w with hreserved | hword
  · rw [hreserved]
    exact hasWord_reserved hreserved
  · exact hword

/-- Settles O4: the words by evaluation, the letters for every argument that follows them. -/
theorem writtenOutCodesDecodeAsListed : Obligations.WrittenOutCodesDecodeAsListed := by
  refine ⟨by decide, by decide, by decide, by decide, by decide, by decide, by decide, by decide, by decide, by decide,
    fun rest => ?_, by decide⟩
  exact ⟨decodePayload_letter rest (by decide) rfl, decodePayload_letter rest (by decide) rfl,
    decodePayload_letter rest (by decide) rfl, decodePayload_letter rest (by decide) rfl,
    decodePayload_letter rest (by decide) rfl, decodePayload_letter rest (by decide) rfl⟩

end

