-- ==== Sys2Proof/Proofs/FrameAndDetection.lean ====
section
/-! The wire frame taken apart again (spec/30_encoding.md R81 to R88, R146, R147), and which changes of a byte string its checksum
shows (spec/40_checksum_engine.md R116, spec/90_conflicts.md C5). -/

namespace Sys2Proof.Machine

/-! ### The frame and its parser -/

theorem length_frame (i : Byte) (p : List Byte) : (frame i p).length = 6 + p.length := by
  simp [frame, frameBody, frameHeader]
  omega

/-- A frame with what stands behind it: the header bytes, the payload, the two trailer bytes, the rest (R81). -/
theorem frame_append (i : Byte) (p rest : List Byte) :
    frame i p ++ rest =
      Config.startMarker :: i :: hiByte (BitVec.ofNat 16 p.length) :: loByte (BitVec.ofNat 16 p.length) ::
        (p ++ (hiByte (ck (frameBody i p)) :: loByte (ck (frameBody i p)) :: rest)) := by
  simp [frame, frameBody, frameHeader]

/-- The length bytes say where the payload ends, and the trailer is the checksum of what stands before it (R82, R84, R87). -/
theorem parseFrame_frame (i : Byte) {p : List Byte} (rest : List Byte) (hp : p.length ≤ 65535) :
    parseFrame (frame i p ++ rest) = some ⟨i, p, rest⟩ := by
  have hlen : (BitVec.ofNat 16 p.length).toNat = p.length := by
    rw [BitVec.toNat_ofNat]
    omega
  have hbody : ck (Config.startMarker :: i :: hiByte (BitVec.ofNat 16 p.length) :: loByte (BitVec.ofNat 16 p.length) :: p) =
      ck (frameBody i p) := rfl
  rw [frame_append, parseFrame]
  simp [hlen, hbody]

/-! ### What the checksum shows (R116) -/

/-- Two accumulators that differ by `d` in the high byte only. -/
def DifferHigh (d : Byte) (x y : Word) : Prop :=
  hiByte x = hiByte y ^^^ d ∧ loByte x = loByte y

/-- Two accumulators that differ by `d` in the low byte only. -/
def DifferLow (d : Byte) (x y : Word) : Prop :=
  hiByte x = hiByte y ∧ loByte x = loByte y ^^^ d

/-- A byte folded into both swaps the half in which they differ (R110). -/
theorem DifferHigh.after_byte {d : Byte} {x y : Word} (h : DifferHigh d x y) (b : Byte) :
    DifferLow d (ckUpdate x b) (ckUpdate y b) := by
  simp [DifferLow, h.1, h.2]

theorem DifferLow.after_byte {d : Byte} {x y : Word} (h : DifferLow d x y) (b : Byte) :
    DifferHigh d (ckUpdate x b) (ckUpdate y b) := by
  refine ⟨?_, by simp [h.1]⟩
  rw [hiByte_ckUpdate, hiByte_ckUpdate, h.2, BitVec.xor_assoc, BitVec.xor_comm d, ← BitVec.xor_assoc]

/-- After two different bytes the accumulators differ in the high byte. -/
theorem differHigh_ckUpdate (x : Word) (a b : Byte) : DifferHigh (a ^^^ b) (ckUpdate x a) (ckUpdate x b) := by
  refine ⟨?_, by simp⟩
  rw [hiByte_ckUpdate, hiByte_ckUpdate, BitVec.xor_comm a, BitVec.xor_assoc, ← BitVec.xor_assoc b, BitVec.xor_self,
    BitVec.zero_xor]

theorem ckFold_concat (x : Word) (bytes : List Byte) (b : Byte) : ckFold x (bytes ++ [b]) = ckUpdate (ckFold x bytes) b := by
  simp [ckFold]

/-- The bytes folded after a difference move it to and fro: an even number of them leaves it in the half it was in. -/
theorem DifferHigh.after_bytes {d : Byte} {x y : Word} (h : DifferHigh d x y) (bytes : List Byte) :
    (bytes.length % 2 = 0 → DifferHigh d (ckFold x bytes) (ckFold y bytes)) ∧
    (bytes.length % 2 = 1 → DifferLow d (ckFold x bytes) (ckFold y bytes)) := by
  induction bytes using List.reverseRecOn with
  | nil => exact ⟨fun _ => h, nofun⟩
  | append_singleton bytes b ih =>
    rw [ckFold_concat, ckFold_concat, List.length_append, List.length_singleton]
    exact ⟨fun hpar => (ih.2 (by omega)).after_byte b, fun hpar => (ih.1 (by omega)).after_byte b⟩

theorem DifferHigh.ne {d : Byte} {x y : Word} (h : DifferHigh d x y) (hd : d ≠ 0) : hiByte x ≠ hiByte y := by
  intro he
  rw [h.1] at he
  exact hd (BitVec.xor_right_inj (hiByte y) |>.mp (he.trans BitVec.xor_zero.symm))

theorem xor_ne_zero {a b : Byte} (h : a ≠ b) : a ^^^ b ≠ 0 :=
  fun he => h (BitVec.xor_eq_zero_iff.mp he)

/-- Folding a byte loses nothing of the accumulator. -/
theorem ckUpdate_left_injective {x y : Word} {b : Byte} (h : ckUpdate x b = ckUpdate y b) : x = y := by
  have hlo := congrArg hiByte h
  have hhi := congrArg loByte h
  rw [hiByte_ckUpdate, hiByte_ckUpdate, BitVec.xor_left_inj] at hlo
  rw [loByte_ckUpdate, loByte_ckUpdate] at hhi
  exact word_ext hhi hlo

theorem ckFold_left_inj {x y : Word} (bytes : List Byte) : ckFold x bytes = ckFold y bytes ↔ x = y := by
  refine ⟨fun h => ?_, fun h => by rw [h]⟩
  induction bytes generalizing x y with
  | nil => exact h
  | cons b bytes ih => exact ckUpdate_left_injective (ih h)

theorem ck_append (xs ys : List Byte) : ck (xs ++ ys) = ckFold (ck xs) ys :=
  List.foldl_append

theorem ckFold_cons (x : Word) (b : Byte) (bytes : List Byte) : ckFold x (b :: bytes) = ckFold (ckUpdate x b) bytes := rfl

/-- A changed byte makes a difference that the bytes behind it cannot undo (R116 (a)). -/
theorem ck_change_ne (pre post : List Byte) {a b : Byte} (h : a ≠ b) : ck (pre ++ a :: post) ≠ ck (pre ++ b :: post) := by
  rw [ck_append, ck_append, ckFold_cons, ckFold_cons, ne_eq, ckFold_left_inj]
  exact fun he => (differHigh_ckUpdate (ck pre) a b).ne (xor_ne_zero h) (congrArg hiByte he)

/-- The second of two exchanged bytes cancels the difference the first has made exactly when it meets it in the low byte, to which an
odd number of bytes between them moves it (R116 (b), C5). -/
theorem ck_exchange_eq_iff (pre mid post : List Byte) {a b : Byte} (h : a ≠ b) :
    ck (pre ++ a :: mid ++ b :: post) = ck (pre ++ b :: mid ++ a :: post) ↔ (mid.length + 1) % 2 = 0 := by
  have hdiff := (differHigh_ckUpdate (ck pre) a b).after_bytes mid
  rw [ck_append, ck_append, ck_append, ck_append, ckFold_cons, ckFold_cons, ckFold_cons, ckFold_cons, ckFold_left_inj]
  by_cases hpar : mid.length % 2 = 0
  · refine iff_of_false (fun he => ?_) (by omega)
    have hlo := congrArg loByte he
    rw [loByte_ckUpdate, loByte_ckUpdate] at hlo
    exact (hdiff.1 hpar).ne (xor_ne_zero h) hlo
  · refine iff_of_true (word_ext ?_ ?_) (by omega)
    · rw [hiByte_ckUpdate, hiByte_ckUpdate, (hdiff.2 (by omega)).2, BitVec.xor_assoc, BitVec.xor_assoc, BitVec.xor_self,
        BitVec.xor_zero]
    · rw [loByte_ckUpdate, loByte_ckUpdate, (hdiff.2 (by omega)).1]

end Sys2Proof.Machine

open Sys2Proof Sys2Proof.Machine

/-- Settles O5, by the length of the frame's parts and the parser on them. -/
theorem parsingAFrameRecoversIt : Obligations.ParsingAFrameRecoversIt :=
  fun i p rest hp => ⟨length_frame i p, parseFrame_frame i rest hp⟩

/-- Settles O8: the difference that one byte makes, followed through the bytes behind it. -/
theorem byteChangeDetectedEvenExchangeNot : Obligations.ByteChangeDetectedEvenExchangeNot :=
  fun pre mid post _ _ hne => ⟨ck_change_ne pre post hne, ck_exchange_eq_iff pre mid post hne⟩

end

