-- ==== Sys2Proof/Proofs/StepFrames.lean ====
section
/-! What a step leaves unchanged, read off the list of the block's effects: the flags, the descriptors of a busy block, buffer memory
outside the receive buffer, the transport, and the host's words (spec/10_state.md R23, R24, R29, R40, spec/20_memory.md R52, R62,
R69). -/

namespace Sys2Proof.Machine

/-- `Accepted` as a state of its own finishes the accept step (R173; log 19). -/
theorem finishAccept_eq (s : State) :
    (s.hs = .idle ∧ s.finishAccept =
      { s with resultLen := minWord s.rxLen s.rxCap, rsp := some (minWord s.rxLen s.rxCap), ctl := .idle, pos := 0,
               waiting := false }) ∨
    (s.hs ≠ .idle ∧ s.finishAccept = { s with ctl := .idle, hs := .check, pos := 0, waiting := false }) := by
  unfold State.finishAccept
  split
  · next h => exact .inl ⟨h, rfl⟩
  · next h => exact .inr ⟨h, rfl⟩

/-! ### The flags (R23, R24, R216) -/

/-- No effect of the block clears the one-shot guard. -/
theorem Effect.keeps_started {s t : State} (h : Effect s t) (hs : s.started = true) : t.started = true := by
  cases h with
  | respond _ w rest hr hh hc hq h =>
    obtain ⟨-, -, -, -, -, -, -, -, -, -, -, -, rfl⟩ := h
    exact hs
  | begin => rfl
  | accepted =>
    rcases finishAccept_eq s with ⟨-, he⟩ | ⟨-, he⟩
    all_goals
      rw [he]
      exact hs
  | _ => exact hs

/-- The block takes a CK_MATCHES off the command channel and latches its comparison (R114). -/
def LatchesMatch (s t : State) : Prop :=
  s.busy = false ∧ s.rsp = none ∧ ∃ w rest cand, s.cmds = w :: rest ∧ t.cmds = rest ∧ decodeHost w = .ckMatches cand ∧
    t.matchFlag = decide (s.acc = cand)

theorem Effect.matchFlag_cases {s t : State} (h : Effect s t) : t.matchFlag = s.matchFlag ∨ LatchesMatch s t := by
  cases h with
  | respond _ w rest hr hh hc hq h =>
    obtain ⟨-, m, -, -, -, -, -, -, -, -, -, hm, rfl⟩ := h
    rcases hm with rfl | ⟨cand, hd, rfl⟩
    · exact .inl rfl
    · exact .inr ⟨not_busy_iff.mpr ⟨hc, hh⟩, hr, w, rest, cand, hq, rfl, hd, rfl⟩
  | accepted =>
    rcases finishAccept_eq s with ⟨-, he⟩ | ⟨-, he⟩
    all_goals
      rw [he]
      exact .inl rfl
  | _ => exact .inl rfl

/-! ### A busy block (R29, R40, R44) -/

/-- `t` has the descriptors, `match`, the parameters and the host's words of `s`. -/
structure SameSettings (s t : State) : Prop where
  seg1Base : t.seg1Base = s.seg1Base
  seg1Len : t.seg1Len = s.seg1Len
  seg2Base : t.seg2Base = s.seg2Base
  seg2Len : t.seg2Len = s.seg2Len
  seg3Base : t.seg3Base = s.seg3Base
  seg3Len : t.seg3Len = s.seg3Len
  rxBase : t.rxBase = s.rxBase
  rxCap : t.rxCap = s.rxCap
  matchFlag : t.matchFlag = s.matchFlag
  params : t.params = s.params
  cmds : t.cmds = s.cmds

theorem SameSettings.readReg {s t : State} (h : SameSettings s t) {r : HostReg} (hr : r.writable = true) :
    t.readReg r = s.readReg r := by
  cases r with
  | seg1Base => exact h.seg1Base
  | seg1Len => exact h.seg1Len
  | seg2Base => exact h.seg2Base
  | seg2Len => exact h.seg2Len
  | seg3Base => exact h.seg3Base
  | seg3Len => exact h.seg3Len
  | rxBase => exact h.rxBase
  | rxCap => exact h.rxCap
  | resultLen | index | acc | status => cases hr

/-- An operation on the command channel needs a block that is not busy and has no response outstanding (R40). -/
theorem Effect.sameSettings_or_ready {s t : State} (h : Effect s t) :
    SameSettings s t ∨ s.ctl = .idle ∧ s.hs = .idle ∧ s.rsp = none := by
  cases h with
  | respond _ w rest hr hh hc => exact .inr ⟨hc, hh, hr⟩
  | transfer w rest hr hh hc => exact .inr ⟨hc, hh, hr⟩
  | begin w rest hr hh hc => exact .inr ⟨hc, hh, hr⟩
  | accepted =>
    rcases finishAccept_eq s with ⟨-, he⟩ | ⟨-, he⟩
    all_goals
      rw [he]
      exact .inl ⟨rfl, rfl, rfl, rfl, rfl, rfl, rfl, rfl, rfl, rfl, rfl⟩
  | _ => exact .inl ⟨rfl, rfl, rfl, rfl, rfl, rfl, rfl, rfl, rfl, rfl, rfl⟩

theorem Effect.sameSettings_of_busy {s t : State} (h : Effect s t) (hb : s.busy = true) : SameSettings s t := by
  rcases h.sameSettings_or_ready with hsame | ⟨hc, hh, -⟩
  · exact hsame
  · simp [not_busy_iff.mpr ⟨hc, hh⟩] at hb

/-- A block that is not ready takes no command word. -/
theorem Effect.cmds_of_not_ready {s t : State} (h : Effect s t) (hready : s.cmdReady = false) : t.cmds = s.cmds := by
  rcases h.sameSettings_or_ready with hsame | ⟨hc, hh, hr⟩
  · exact hsame.cmds
  · simp [State.cmdReady, not_busy_iff.mpr ⟨hc, hh⟩, hr] at hready

/-- The host registers are part of the block's own state. -/
theorem readReg_blockPart (s : State) (r : HostReg) : s.blockPart.readReg r = s.readReg r := by
  cases r <;> rfl

/-- `result_len` is written by the end of a host TRANSFER only, which responds with it (R32, R173). -/
theorem Effect.resultLen_cases {s t : State} (h : Effect s t) :
    t.resultLen = s.resultLen ∨ s.hs = .idle ∧ t.ctl = .idle ∧ t.rsp = some t.resultLen := by
  cases h with
  | respond _ w rest hr hh hc hq h =>
    obtain ⟨-, -, -, -, -, -, -, -, -, -, -, -, rfl⟩ := h
    exact .inl rfl
  | accept c rest hr hh => exact .inr ⟨hh, rfl, rfl⟩
  | accepted =>
    rcases finishAccept_eq s with ⟨hh, he⟩ | ⟨-, he⟩ <;> rw [he]
    · exact .inr ⟨hh, rfl, rfl⟩
    · exact .inl rfl
  | _ => exact .inl rfl

/-! ### Buffer memory (R52, R53, R145) -/

/-- The block stores only a payload byte of a host transfer, below the capacity. -/
theorem Effect.mem_cases {s t : State} (h : Effect s t) :
    t.mem = s.mem ∨ s.hs = .idle ∧ s.ctl = .receivingPayload ∧ s.rxCnt < s.rxCap ∧ ∃ c, t.mem = Memory.set s.mem s.sinkAddr c := by
  cases h with
  | respond _ w rest hr hh hc hq h =>
    obtain ⟨-, -, -, -, -, -, -, -, -, -, -, -, rfl⟩ := h
    exact .inl rfl
  | payloadByte c rest m r hr hh hc he hq hm =>
    rcases hm with ⟨hidle, hcap, -, rfl, -⟩ | ⟨-, rfl, -⟩ | ⟨-, rfl, -⟩
    · exact .inr ⟨hidle, hc, hcap, c, rfl⟩
    · exact .inl rfl
    · exact .inl rfl
  | accepted =>
    rcases finishAccept_eq s with ⟨-, he⟩ | ⟨-, he⟩
    all_goals
      rw [he]
      exact .inl rfl
  | _ => exact .inl rfl

/-! ### The transport (R62, R69, R293) -/

/-- The procedures that write to the line: `Sending`, and the four strings of the handshake. -/
def State.writes (s : State) : Prop :=
  s.mayRun ∧ s.ctl = .sending ∨ s.hs = .interrupt ∨ s.hs = .blank1 ∨ s.hs = .blank2 ∨ s.hs = .activate

/-- The procedures that drain the queue: `Retrying` after its delay, the settle loop at its head, `HsDrain`. -/
def State.drains (s : State) : Prop :=
  s.mayRun ∧ s.ctl = .retrying ∧ s.pos ≠ 0 ∨ s.hs = .settle ∧ s.pos = 0 ∨ s.hs = .drain

/-- What a step of the block can do to the transport: nothing, write a byte, take the queue's head, or empty the queue. -/
inductive TransportUse (s t : State) : Prop where
  | none (hw : t.txlog = s.txlog) (hq : t.rxq = s.rxq)
  | write (b : Byte) (hw : t.txlog = s.txlog ++ [b]) (hq : t.rxq = s.rxq) (hs : s.writes)
  | read (c : Byte) (hw : t.txlog = s.txlog) (hq : s.rxq = c :: t.rxq) (hs : s.mayRun ∧ s.receiving)
  | drain (hw : t.txlog = s.txlog) (hq : t.rxq = []) (hs : s.drains)

theorem Effect.transportUse {s t : State} (h : Effect s t) : TransportUse s t := by
  cases h with
  | respond _ w rest hr hh hc hq h =>
    obtain ⟨-, -, -, -, -, -, -, -, -, -, -, -, rfl⟩ := h
    exact .none rfl rfl
  | sendMarker hr hh hc => exact .write _ rfl rfl (.inl ⟨hh, hc⟩)
  | sendByte b hr hh hc => exact .write b rfl rfl (.inl ⟨hh, hc⟩)
  | sendHigh hr hh hc => exact .write _ rfl rfl (.inl ⟨hh, hc⟩)
  | sendLow hr hh hc => exact .write _ rfl rfl (.inl ⟨hh, hc⟩)
  | reject c rest hr hh hc hq => exact .read c rfl hq ⟨hh, hc⟩
  | marker rest hr hh hc hq => exact .read _ rfl hq ⟨hh, .inl hc⟩
  | headerIndex rest hr hh hc hi hq => exact .read _ rfl hq ⟨hh, .inr (.inl hc)⟩
  | headerHigh c rest hr hh hc hi hq => exact .read c rfl hq ⟨hh, .inr (.inl hc)⟩
  | headerLow c rest hr hh hc h0 h1 hq => exact .read c rfl hq ⟨hh, .inr (.inl hc)⟩
  | payloadByte c rest m r hr hh hc he hq => exact .read c rfl hq ⟨hh, .inr (.inr (.inl hc))⟩
  | trailerHigh c rest hr hh hc hp hq => exact .read c rfl hq ⟨hh, .inr (.inr (.inr hc))⟩
  | accept c rest hr hh hc hp hq => exact .read c rfl hq ⟨.inl hh, .inr (.inr (.inr hc))⟩
  | acceptReset c rest hr hh hc hp hq => exact .read c rfl hq ⟨.inr hh, .inr (.inr (.inr hc))⟩
  | accepted =>
    rcases finishAccept_eq s with ⟨-, he⟩ | ⟨-, he⟩
    all_goals
      rw [he]
      exact .none rfl rfl
  | retryDrain hr hh hc hp hq => exact .drain rfl rfl (.inl ⟨hh, hc, hp⟩)
  | hsDrain hr hh hq => exact .drain rfl rfl (.inr hh)
  | hsString b hr hh =>
    simp only [List.mem_cons, List.not_mem_nil, or_false] at hh
    exact .write b rfl rfl (.inr hh)
  | _ => exact .none rfl rfl

/-! A step makes one use of the transport at most, and a block that is not busy makes none. -/

theorem State.writes.not_receiving {s : State} (h : s.writes) (hrun : s.mayRun) : ¬ s.receiving := by
  intro hrecv
  rcases h with ⟨-, hc⟩ | hh | hh | hh | hh
  · simp [State.receiving, hc] at hrecv
  all_goals simp [State.mayRun, hh] at hrun

theorem State.drains.not_sending {s : State} (h : s.drains) (hrun : s.mayRun) : s.ctl ≠ .sending := by
  rcases h with ⟨-, hc, -⟩ | ⟨hh, -⟩ | hh
  · simp [hc]
  all_goals simp [State.mayRun, hh] at hrun

theorem State.writes.busy {s : State} (h : s.writes) : s.busy = true := by
  rcases h with ⟨-, hc⟩ | hh | hh | hh | hh
  · exact busy_of_running (by simp [hc])
  all_goals simp [State.busy, hh]

theorem State.drains.busy {s : State} (h : s.drains) : s.busy = true := by
  rcases h with ⟨-, hc, -⟩ | ⟨hh, -⟩ | hh
  · exact busy_of_running (by simp [hc])
  all_goals simp [State.busy, hh]

theorem State.writes_taken (s : State) : s.taken.writes ↔ s.writes := by
  simp [State.writes, State.mayRun]

theorem State.drains_taken (s : State) : s.taken.drains ↔ s.drains := by
  simp [State.drains, State.mayRun]

theorem TransportUse.of_taken {s t : State} (h : TransportUse s.taken t) : TransportUse s t := by
  cases h with
  | none hw hq => exact .none (by simpa using hw) (by simpa using hq)
  | write b hw hq hs => exact .write b (by simpa using hw) (by simpa using hq) ((State.writes_taken s).mp hs)
  | read c hw hq hs => exact .read c (by simpa using hw) (by simpa using hq) (by simpa [State.mayRun, State.receiving] using hs)
  | drain hw hq hs => exact .drain (by simpa using hw) hq ((State.drains_taken s).mp hs)

/-- A step that moves the block is one of its effects on the state it finds. -/
theorem effect_of_step {s t : State} (hblock : s.nextMove = .block) (h : step s = .next t) : Effect s.taken t := by
  rw [step_of_block hblock] at h
  exact blockStep_effect h

end Sys2Proof.Machine

open Sys2Proof Sys2Proof.Machine

/-- Settles O36: a response is delivered before anything else, and only a ready block takes a word. -/
theorem commandsWaitForReadiness : Obligations.CommandsWaitForReadiness := by
  intro s t hblock hstep
  refine ⟨fun hready => ?_, fun v hv => ?_⟩
  · simpa using (effect_of_step hblock hstep).cmds_of_not_ready (by simpa using hready)
  · have hv' : s.taken.rsp = some v := by rwa [taken_rsp]
    rw [step_of_block hblock, blockStep_of_rsp (by simp [hv]), deliver_some hv'] at hstep
    cases hstep
    exact ⟨rfl, by simp, taken_busy s⟩

/-- Settles O46, effect by effect; the moves of the environment leave both flags alone. -/
theorem flagsChangeOnlyAsStated : Obligations.FlagsChangeOnlyAsStated := by
  intro s t hstep hnrst
  rcases step_cases hstep with ⟨hblock, heffect⟩ | ⟨hrst, -⟩ | hkept
  · refine ⟨fun hs => heffect.keeps_started (by simpa using hs), ?_⟩
    rcases heffect.matchFlag_cases with hsame | hlatch
    · exact .inl (by simpa using hsame)
    · exact .inr ⟨hblock, by simpa [LatchesMatch] using hlatch⟩
  · exact absurd hrst hnrst
  · have hstarted : t.started = s.started := (congrArg State.started hkept :)
    exact ⟨fun hs => hstarted.trans hs, .inl (congrArg State.matchFlag hkept :)⟩

/-- Settles O47: no effect of a busy block is an operation of the command channel, and the environment moves none of its
registers. -/
theorem busyBlockKeepsDescriptors : Obligations.BusyBlockKeepsDescriptors := by
  intro s t hbusy hnrst hstep
  rcases step_eq_next hstep with ⟨-, hblock⟩ | ⟨henv, rfl⟩
  · have heffect := blockStep_effect hblock
    have hsame := heffect.sameSettings_of_busy (by simpa using hbusy)
    refine ⟨fun r hr => ?_, by simpa using hsame.matchFlag, by simpa using hsame.params, ?_, fun _ => by simpa using hsame.cmds⟩
    · simpa using hsame.readReg hr
    · simpa using heffect.resultLen_cases
  · have hkept := (applyMove_blockPart s.taken hnrst).trans (taken_blockPart s)
    refine ⟨fun r _ => ?_, (congrArg State.matchFlag hkept :), (congrArg State.params hkept :),
      .inl (congrArg State.resultLen hkept :), fun hblock => absurd hblock henv⟩
    rw [← readReg_blockPart, hkept, readReg_blockPart]

/-- Settles O48: a step stores at most one byte, at `rx_base + rx_cnt`. -/
theorem memoryWrittenOnlyInReceiveBuffer : Obligations.MemoryWrittenOnlyInReceiveBuffer := by
  intro s t a hblock hstep hne
  rcases (effect_of_step hblock hstep).mem_cases with hsame | ⟨hh, hc, hcap, c, hmem⟩
  · exact absurd (by rw [hsame, taken_mem]) hne
  · refine ⟨by simpa using hh, by simpa using hc, by simpa using hcap, ?_⟩
    by_contra ha
    rw [hmem, taken_mem, Memory.get_set_other _ _ (by simpa [State.sinkAddr] using ha)] at hne
    exact hne rfl

/-- Settles O49, by the four uses a step can make of the transport. -/
theorem transportIsHalfDuplex : Obligations.TransportIsHalfDuplex := by
  intro s t hblock hstep
  cases (effect_of_step hblock hstep).transportUse.of_taken with
  | none hw hq => exact ⟨.inl hw, .inl hq, fun _ _ => hq, fun _ _ => hw, fun _ => ⟨hw, hq⟩⟩
  | write b hw hq hs =>
    refine ⟨.inr ⟨⟨b, hw⟩, hq, hs⟩, .inl hq, fun _ _ => hq, fun hrun hrecv => absurd hrecv (hs.not_receiving hrun), fun hb => ?_⟩
    simp [hs.busy] at hb
  | read c hw hq hs =>
    obtain ⟨hrun, hrecv⟩ := hs
    refine ⟨.inl hw, .inr (.inl ⟨hrun, hrecv, c, hq⟩), fun _ hc => ?_, fun _ _ => hw, fun hb => ?_⟩
    · simp [State.receiving, hc] at hrecv
    · exact absurd (not_busy_iff.mp hb).1 (ne_idle_of_receiving hrecv)
  | drain hw hq hs =>
    refine ⟨.inl hw, .inr (.inr ⟨hq, hs⟩), fun hrun hc => absurd hc (hs.not_sending hrun), fun _ _ => hw, fun hb => ?_⟩
    simp [hs.busy] at hb

end

