-- ==== Sys2Proof/Proofs/HostChannel.lean ====
section
/-! The command channel (spec/10_state.md R39, R40): WRREG of a descriptor, the issue of an offered word, and a block that is offered
none. -/

namespace Sys2Proof.Machine

/-! ### WRREG (R231) -/

theorem exec_wrreg_writable {r : HostReg} (hr : r.writable = true) (v : Word) (s : State) :
    exec (.wrreg r v) s = .next { s.writeReg r v with rsp := some 0 } :=
  if_pos hr

theorem exec_wrreg_readOnly {r : HostReg} (hr : r.writable = false) (v : Word) (s : State) :
    exec (.wrreg r v) s = .refused (.readOnlyRegister r) :=
  if_neg (by simp [hr])

theorem readReg_writeReg_same {r : HostReg} (hr : r.writable = true) (v : Word) (s : State) : (s.writeReg r v).readReg r = v := by
  cases r with
  | seg1Base | seg1Len | seg2Base | seg2Len | seg3Base | seg3Len | rxBase | rxCap => rfl
  | resultLen | index | acc | status => cases hr

theorem readReg_writeReg_other {q r : HostReg} (hne : q ≠ r) (v : Word) (s : State) : (s.writeReg r v).readReg q = s.readReg q := by
  cases r with
  | resultLen | index | acc | status => rfl
  | seg1Base =>
    cases q with
    | seg1Base => exact absurd rfl hne
    | _ => rfl
  | seg1Len =>
    cases q with
    | seg1Len => exact absurd rfl hne
    | _ => rfl
  | seg2Base =>
    cases q with
    | seg2Base => exact absurd rfl hne
    | _ => rfl
  | seg2Len =>
    cases q with
    | seg2Len => exact absurd rfl hne
    | _ => rfl
  | seg3Base =>
    cases q with
    | seg3Base => exact absurd rfl hne
    | _ => rfl
  | seg3Len =>
    cases q with
    | seg3Len => exact absurd rfl hne
    | _ => rfl
  | rxBase =>
    cases q with
    | rxBase => exact absurd rfl hne
    | _ => rfl
  | rxCap =>
    cases q with
    | rxCap => exact absurd rfl hne
    | _ => rfl

/-- No host register is the response. -/
theorem readReg_setRsp (s : State) (v : Option Word) (r : HostReg) : { s with rsp := v }.readReg r = s.readReg r := by
  cases r <;> rfl

/-! ### The issue of a command word (R39, R40) -/

/-- A block that is ready and has the next move issues what the host offers. -/
theorem step_ready {s : State} (hblock : s.nextMove = .block) (hb : s.busy = false) (hr : s.rsp = none) :
    step s = issue s.taken := by
  obtain ⟨hc, hh⟩ := not_busy_iff.mp hb
  rw [step_of_block hblock, blockStep_ready (by simpa using hr) (by simpa using hc) (by simpa using hh)]

theorem issue_word {s : State} {w : Cmd} {rest : List Cmd} (h : s.cmds = w :: rest) :
    issue s = exec (decodeHost w) { s with cmds := rest } := by
  rw [issue, h]

theorem issue_none {s : State} (h : s.cmds = []) : issue s = .next s := by
  rw [issue, h]

/-- The clock does not tick for a block that waits for nothing, so that taking its move changes the schedule alone (logs 1, 3). -/
theorem taken_of_not_busy {s : State} (h : s.busy = false) : s.taken = { s with sched := s.taken.sched } := by
  unfold State.taken
  split
  · rfl
  · split
    · rfl
    · simp [State.quietTick, h]

end Sys2Proof.Machine

open Sys2Proof Sys2Proof.Machine

/-- Settles O12: the written register reads back, the others keep their values, and a write touches descriptors only. -/
theorem wrregWritesOneDescriptor : Obligations.WrregWritesOneDescriptor := by
  intro r v s
  refine ⟨fun hr => ⟨decodeHost_cmdWord_wrreg hr v, _, exec_wrreg_writable hr v s, ?_, fun q hq => ?_, rfl, ?_⟩,
    fun hr => exec_wrreg_readOnly hr v s⟩
  · rw [readReg_setRsp, readReg_writeReg_same hr]
  · rw [readReg_setRsp, readReg_writeReg_other hq]
  · obtain ⟨_, _, _, _, _, _, _, _, hframe⟩ := writeReg_frame s r v
    rw [hframe]

/-- Settles O34: the step issues the offered word. -/
theorem stepRunsTheDecodedCommand : Obligations.StepRunsTheDecodedCommand := by
  intro s w rest i hblock hb hr hq hd _
  obtain rfl : decodeHost w = i := Except.ok.inj hd
  rw [step_ready hblock hb hr, issue_word (by rwa [taken_cmds])]

/-- Settles O38: with nothing to issue the step only takes the move. -/
theorem idleBlockExecutesNothing : Obligations.IdleBlockExecutesNothing := by
  refine ⟨⟨rfl, rfl, rfl⟩, fun s hblock hb hr hq => ⟨?_, taken_of_not_busy hb⟩⟩
  rw [step_ready hblock hb hr, issue_none (by rwa [taken_cmds])]

end

