-- ==== Sys2Proof/Proofs/ControllerOperations.lean ====
section
/-! The operation a running controller takes its step in (spec/42_retry_sync_controller.md R175), the payload commands
(spec/30_encoding.md R93, R94), and one poll of TIMEDREAD, DELAY and DRAIN (spec/41_frame_codec.md R130 to R133). -/

namespace Sys2Proof.Machine

/-! ### Payload bytes (R58, R93, R136) -/

theorem sendPayloadByte_ready {s : State} (h : s.txReady = true) (b : Byte) : s.sendPayloadByte b = s.sent b :=
  whenTxReady_ready _ h

theorem sendPayloadByte_waits {s : State} (h : s.txReady = false) (b : Byte) : s.sendPayloadByte b = s :=
  whenTxReady_not_ready _ h

theorem exec_payReset (s : State) :
    exec .payReset s = withResetByte (s.pos - 4) (fun b => .next (s.sendPayloadByte b)) := rfl

theorem exec_payReset_ready {s : State} {b : Byte} (h : s.txReady = true) (hb : Config.hsResetCmd[s.pos - 4]? = some b) :
    exec .payReset s = .next (s.sent b) := by
  rw [exec_payReset, withResetByte, hb]
  exact congrArg _ (sendPayloadByte_ready h b)

theorem exec_payReset_waits {s : State} (h : s.txReady = false) (hk : s.pos - 4 < Config.hsResetCmd.length) :
    exec .payReset s = .next s := by
  rw [exec_payReset, withResetByte_of_lt hk, sendPayloadByte_waits h]

/-- FC_SEND waits at a payload byte of either kind of transfer. -/
theorem execFcSend_payload_waits {s : State} {k : Nat} (h : s.txReady = false) (hp : s.pos = 4 + k) (hk : k < s.txLen.toNat)
    (hbyte : s.hs ≠ .reset ∧ s.payloadAddr k < Config.memSize ∨ s.hs = .reset ∧ k < Config.hsResetCmd.length) :
    execFcSend s = .next s := by
  have hpos : s.pos - 4 = k := by omega
  rw [execFcSend_payload hp hk, State.withPayloadByte, hpos]
  rcases hbyte with ⟨hh, ha⟩ | ⟨hh, hlen⟩
  · rw [if_neg hh, withMemByte_of_lt _ ha, sendPayloadByte_waits h]
  · rw [if_pos hh, withResetByte_of_lt hlen, sendPayloadByte_waits h]

/-! ### The operation named by `ctl_state` (R26, R72, R175) -/

theorem step_controller {s : State} (hblock : s.nextMove = .block) (hr : s.rsp = none) (hh : s.hs = .idle ∨ s.hs = .reset)
    (hc : s.ctl ≠ .idle) : step s = controllerStep s.taken := by
  rw [step_of_block hblock, blockStep_controller (by simpa using hr) (by simpa using hc) (by simpa using hh)]

theorem step_sending {s : State} (hblock : s.nextMove = .block) (hr : s.rsp = none) (hh : s.hs = .idle ∨ s.hs = .reset)
    (hc : s.ctl = .sending) : step s = exec .fcSend s.taken := by
  rw [step_controller hblock hr hh (by simp [hc]), controllerStep_sending (by simpa using hc), exec_fcSend]

/-- A payload of one byte decodes as its letter does (R93). -/
theorem decodePayload_singleton (b : Byte) :
    decodePayload [b] = (decodeLetter b).elim (.error (.notAPayloadCommand b)) .ok := by
  have hne : [b] ≠ Config.hsResetCmd := fun h => by cases h
  rw [decodePayload, if_neg hne]
  cases decodeLetter b with
  | none => rfl
  | some i => rfl

/-- The first payload byte of a host request names the operation (log 15). -/
theorem sendingOp_first {s : State} (hh : s.hs = .idle) (hp : s.pos = 4) (hl : 0 < s.txLen.toNat)
    (ha : s.payloadAddr 0 < Config.memSize) :
    s.sendingOp = (decodeLetter (Memory.get s.mem (s.payloadAddr 0))).getD .fcSend := by
  rw [State.sendingOp, if_pos ⟨by omega, by omega⟩, if_neg (by simp [hh]), if_pos ⟨hp, ha⟩]

theorem sendingOp_reset {s : State} (hh : s.hs = .reset) (hp : 4 ≤ s.pos) (hl : s.pos < 4 + s.txLen.toNat) :
    s.sendingOp = .payReset := by
  rw [State.sendingOp, if_pos ⟨hp, hl⟩, if_pos hh]

theorem step_sendingOp {s : State} (hblock : s.nextMove = .block) (hr : s.rsp = none) (hh : s.hs = .idle ∨ s.hs = .reset)
    (hc : s.ctl = .sending) : step s = exec s.taken.sendingOp s.taken := by
  rw [step_controller hblock hr hh (by simp [hc]), controllerStep, taken_ctl, hc]

end Sys2Proof.Machine

open Sys2Proof Sys2Proof.Machine

/-- Settles O16, by whether the queue holds a byte and the time waited. -/
theorem timedReadTakesOrWaitsOrGivesUp : Obligations.TimedReadTakesOrWaitsOrGivesUp :=
  fun t _ => ⟨fun _ _ hq => congrArg _ (pollRead_took t hq), fun hq ht => congrArg _ (pollRead_timeout hq ht),
    fun hq ht => congrArg _ (pollRead_pending hq ht)⟩

/-- Settles O17, by the time waited. -/
theorem delayEndsWhenElapsed : Obligations.DelayEndsWhenElapsed :=
  fun _ _ => ⟨fun ht => congrArg _ (pollDelay_elapsed ht), fun ht => congrArg _ (pollDelay_waits ht)⟩

/-- Settles O18: a round of the drain, and no fold. -/
theorem drainEmptiesTheQueue : Obligations.DrainEmptiesTheQueue :=
  fun s => congrArg _ (drainRound_eq s)

/-- Settles O28: each command sends its letter as a payload byte, and every payload byte waits for the transport. -/
theorem payloadCommandsAreTransmitted : Obligations.PayloadCommandsAreTransmitted := by
  intro s
  refine ⟨fun hready => ?_, fun hwait => ⟨fun i hi => ?_, fun _ hp => ?_, fun n hp hn => ⟨fun hh ha => ?_, fun hh hl => ?_⟩⟩⟩
  · have hletter : ∀ b : Byte, Host.Outcome.next (s.sendPayloadByte b) = (.next (s.sent b) : Answer) :=
      fun b => congrArg _ (sendPayloadByte_ready hready b)
    refine ⟨hletter _, hletter _, hletter _, hletter _, hletter _, hletter _, fun hp => ?_, fun hp => ?_, fun hp => ?_⟩
    · rcases hp with hp | hp
      all_goals exact exec_payReset_ready hready (by rw [hp]; rfl)
    · exact exec_payReset_ready hready (by rw [hp]; rfl)
    · rcases hp with hp | hp
      all_goals exact exec_payReset_ready hready (by rw [hp]; rfl)
  · simp only [List.mem_cons, List.not_mem_nil, or_false] at hi
    rcases hi with rfl | rfl | rfl | rfl | rfl | rfl
    all_goals exact congrArg _ (sendPayloadByte_waits hwait _)
  · exact exec_payReset_waits hwait (by simp only [Config.hsResetCmd, List.length_cons, List.length_nil]; omega)
  · exact execFcSend_payload_waits hwait hp hn (.inl ⟨hh, ha⟩)
  · exact execFcSend_payload_waits hwait hp hn (.inr ⟨hh, hl⟩)

/-- Settles O35: `Sending` runs FC_SEND or the command its first payload byte decodes to, which does the same, and the receiving
states run FC_RECV. -/
theorem stepRunsTheControllersOperation : Obligations.StepRunsTheControllersOperation := by
  intro s hblock hr hh
  refine ⟨fun hc _ => step_sending hblock hr hh hc, fun hc _ _ => step_sending hblock hr hh hc, fun hc hi hp hl ha => ?_,
    fun hc hreset hp hl => ?_, fun hc => ?_⟩
  · have hop := step_sendingOp hblock hr hh hc
    have hin : s.taken.payloadAddr 0 < Config.memSize := by
      rw [taken_payloadAddr]
      exact ha
    rw [sendingOp_first (by simpa using hi) (by simpa using hp) (by simpa using hl) hin, taken_mem,
      taken_payloadAddr] at hop
    rw [decodePayload_singleton]
    generalize decodeLetter (Memory.get s.mem (s.payloadAddr 0)) = letter at hop
    cases letter with
    | none => exact hop
    | some i => exact hop
  · rw [step_sendingOp hblock hr hh hc, sendingOp_reset (by simpa using hreset) (by simpa using hp) (by simpa using hl)]
  · have hrecv : s.taken.ctl ∈ [CtlState.awaitingAck, .receivingHeader, .receivingPayload, .validating] := by simpa using hc
    rw [step_controller hblock hr hh (ne_idle_of_receiving hc), controllerStep_receiving hrecv, exec_fcRecv]

end

