-- ==== Sys2Proof/Proofs/PseudoOperations.lean ====
section
/-! The pseudo-operations (spec/44_host_register_ops.md R235 to R242): the descriptor writes and the placing of the payload, said once
for every split; GET as the command words it stands for; and where the model stops outside the memory (logs 16, 18). -/

namespace Sys2Proof.Machine

/-! ### A list of descriptor writes (R231, R235) -/

/-- The registers after a list of WRREGs. -/
def State.writeRegs (s : State) (ws : List (HostReg × Word)) : State :=
  ws.foldl (fun t w => t.writeReg w.1 w.2) s

theorem writeRegs_cons (s : State) (r : HostReg) (v : Word) (ws : List (HostReg × Word)) :
    s.writeRegs ((r, v) :: ws) = (s.writeReg r v).writeRegs ws := rfl

@[simp] theorem writeReg_rspLog (s : State) (r : HostReg) (v : Word) : (s.writeReg r v).rspLog = s.rspLog := by
  cases r <;> rfl

/-- A register write and what stands on the command channel do not touch each other. -/
theorem writeReg_channel (s : State) (rsp : Option Word) (log : List Word) (cmds : List Cmd) (r : HostReg) (v : Word) :
    { s with rsp := rsp, rspLog := log, cmds := cmds }.writeReg r v =
      { s.writeReg r v with rsp := rsp, rspLog := log, cmds := cmds } := by
  cases r <;> rfl

theorem writeRegs_channel (s : State) (rsp : Option Word) (log : List Word) (cmds : List Cmd) (ws : List (HostReg × Word)) :
    { s with rsp := rsp, rspLog := log, cmds := cmds }.writeRegs ws =
      { s.writeRegs ws with rsp := rsp, rspLog := log, cmds := cmds } := by
  induction ws generalizing s with
  | nil => rfl
  | cons w ws ih => rw [writeRegs_cons, writeRegs_cons, writeReg_channel, ih]

/-- `s` after the WRREGs `ws`, each answered with 0 and its response delivered, with the words `cmds` still to issue. -/
def State.written (s : State) (ws : List (HostReg × Word)) (cmds : List Cmd) : State :=
  { s.writeRegs ws with rsp := none, rspLog := s.rspLog ++ List.replicate ws.length 0, cmds := cmds }

/-- The first of the writes, and the rest from the state it leaves. -/
theorem written_cons (s : State) (r : HostReg) (v : Word) (ws : List (HostReg × Word)) (next cmds : List Cmd) :
    State.written { s.writeReg r v with rsp := none, rspLog := s.rspLog ++ [0], cmds := next } ws cmds =
      s.written ((r, v) :: ws) cmds := by
  simp only [State.written, writeRegs_channel, writeRegs_cons, List.length_cons, List.replicate_succ, List.append_assoc,
    List.singleton_append]

/-- One WRREG of an expansion, with its response delivered. -/
theorem runWrites_first (s : State) {r : HostReg} (v : Word) (ws : List (HostReg × Word)) (hr : r.writable = true) :
    runWrites ((r, v) :: ws) s =
      runWrites ws { s.writeReg r v with rsp := none, rspLog := s.rspLog ++ [0], cmds := s.cmds } := by
  have hcmds : (s.writeReg r v).cmds = s.cmds := by cases r <;> rfl
  rw [runWrites, execWrreg, if_pos hr, andThen_next, deliver_some rfl]
  simp [State.respond, ← hcmds]

/-- The writes of an expansion answer the state with the registers written and the responses delivered. -/
theorem runWrites_cons (s : State) {r : HostReg} {v : Word} {ws : List (HostReg × Word)}
    (h : ∀ w ∈ (r, v) :: ws, w.1.writable = true) : runWrites ((r, v) :: ws) s = .next (s.written ((r, v) :: ws) s.cmds) := by
  induction ws generalizing s r v with
  | nil =>
    rw [runWrites_first s v _ (h _ List.mem_cons_self)]
    rfl
  | cons w ws ih =>
    rw [runWrites_first s v _ (h _ List.mem_cons_self), ih _ fun w hw => h w (List.mem_cons_of_mem _ hw),
      written_cons s r v (w :: ws)]

/-! ### The expansion of a pseudo-operation (R235, R236) -/

/-- The descriptors that a split gives: an unused segment keeps its base and has length 0 (R236). -/
def State.describe (s : State) (p : Placement) (b1 : List Byte) (b2 b3 : Option (List Byte)) : State :=
  { s with seg1Base := p.a1, seg1Len := lenWord b1,
           seg2Base := b2.elim s.seg2Base fun _ => p.a2, seg2Len := lenWord (b2.getD []),
           seg3Base := b3.elim s.seg3Base fun _ => p.a3, seg3Len := lenWord (b3.getD []),
           rxBase := p.ar, rxCap := p.cap }

/-- The memory after the host has placed the segments, in order (R235; log 30). -/
def placedMem (m : List Host.Cell) (p : Placement) (b1 : List Byte) (b2 b3 : Option (List Byte)) : List Host.Cell :=
  Memory.setRange (Memory.setRange (Memory.setRange m p.a1.toNat b1) p.a2.toNat (b2.getD [])) p.a3.toNat (b3.getD [])

section
variable (p : Placement) (b1 : List Byte) (b2 b3 : Option (List Byte))

theorem writeRegs_pseudoWrites (s : State) : s.writeRegs (pseudoWrites p b1 b2 b3) = s.describe p b1 b2 b3 := by
  cases b2 with
  | none | some _ =>
    cases b3 with
    | none | some _ => simp [pseudoWrites, segWrites, State.writeRegs, State.writeReg, State.describe, lenWord]

theorem segWrites_writable {baseReg lenReg : HostReg} (a : Word) (b : Option (List Byte)) (hb : baseReg.writable = true)
    (hl : lenReg.writable = true) : ∀ w ∈ segWrites baseReg lenReg a b, w.1.writable = true := by
  cases b with
  | none => simpa [segWrites] using hl
  | some bytes => simpa [segWrites] using ⟨hb, hl⟩

theorem pseudoWrites_writable : ∀ w ∈ pseudoWrites p b1 b2 b3, w.1.writable = true := by
  intro w hw
  simp only [pseudoWrites, List.mem_append] at hw
  rcases hw with ((hw | hw) | hw) | hw
  · exact segWrites_writable p.a1 (some b1) rfl rfl w hw
  · exact segWrites_writable p.a2 b2 rfl rfl w hw
  · exact segWrites_writable p.a3 b3 rfl rfl w hw
  · simp only [List.mem_cons, List.not_mem_nil, or_false] at hw
    rcases hw with rfl | rfl
    · rfl
    · rfl

variable {p b1 b2 b3}

theorem lenWord_toNat {bytes : List Byte} (h : bytes.length ≤ 65535) : (lenWord bytes).toNat = bytes.length := by
  rw [lenWord, BitVec.toNat_ofNat]
  omega

/-- An unused segment fits wherever its base stands. -/
theorem fitsAt_segment {base a : Word} {b : Option (List Byte)} (h : fitsAt a (b.getD []).length = true) :
    fitsAt (b.elim base fun _ => a) (b.getD []).length = true := by
  cases b with
  | none => rfl
  | some bytes => exact h

theorem placementOk_iff {l1 l2 l3 : Nat} : placementOk p l1 l2 l3 = true ↔
    l1 + l2 + l3 ≤ 65535 ∧ fitsAt p.a1 l1 = true ∧ fitsAt p.a2 l2 = true ∧ fitsAt p.a3 l3 = true ∧
      fitsAt p.ar p.cap.toNat = true := by
  simp only [placementOk, Bool.and_eq_true, decide_eq_true_eq, and_assoc]

/-- A placement that is in order gives TRANSFER's preconditions (R162). -/
theorem describe_preconditions (s : State) (h : placementOk p b1.length (b2.getD []).length (b3.getD []).length = true) :
    (s.describe p b1 b2 b3).lengthsOk = true ∧ (s.describe p b1 b2 b3).buffersFit = true := by
  obtain ⟨hlen, hfit1, hfit2, hfit3, hfitr⟩ := placementOk_iff.mp h
  have h1 := lenWord_toNat (bytes := b1) (by omega)
  have h2 := lenWord_toNat (bytes := b2.getD []) (by omega)
  have h3 := lenWord_toNat (bytes := b3.getD []) (by omega)
  constructor
  · simpa [State.lengthsOk, State.hostLen, State.describe, h1, h2, h3] using hlen
  · simp only [State.buffersFit, State.describe, h1, h2, h3, Bool.and_eq_true]
    exact ⟨⟨⟨hfit1, fitsAt_segment hfit2⟩, fitsAt_segment hfit3⟩, hfitr⟩

theorem written_preconditions (s : State) (cmds : List Cmd)
    (h : placementOk p b1.length (b2.getD []).length (b3.getD []).length = true) :
    (s.written (pseudoWrites p b1 b2 b3) cmds).lengthsOk = true ∧ (s.written (pseudoWrites p b1 b2 b3) cmds).buffersFit = true := by
  rw [State.written, writeRegs_pseudoWrites]
  exact describe_preconditions s h

/-- The state in which TRANSFER of a pseudo-operation leaves the block: payload placed, descriptors written, `Sending` entered. -/
def State.afterPseudo (s : State) (p : Placement) (b1 : List Byte) (b2 b3 : Option (List Byte)) : State :=
  { s.describe p b1 b2 b3 with
    mem := placedMem s.mem p b1 b2 b3, ctl := .sending, pos := 0, waiting := false, rsp := none,
    rspLog := s.rspLog ++ List.replicate (pseudoWrites p b1 b2 b3).length 0 }

/-- TRANSFER behind the writes of an expansion, with the payload placed (R161). -/
theorem execTransfer_written (s : State) (cmds : List Cmd)
    (h : placementOk p b1.length (b2.getD []).length (b3.getD []).length = true) :
    execTransfer (State.written { s with mem := placedMem s.mem p b1 b2 b3 } (pseudoWrites p b1 b2 b3) cmds) =
      .next { s.afterPseudo p b1 b2 b3 with cmds := cmds } := by
  obtain ⟨hlen, hfit⟩ := written_preconditions { s with mem := placedMem s.mem p b1 b2 b3 } cmds h
  rw [execTransfer, if_pos hlen, if_pos hfit, State.written, writeRegs_pseudoWrites]
  rfl

/-- A pseudo-operation whose placement is in order runs its expansion (R235). -/
theorem pseudoTransfer_of_ok (s : State) (h : placementOk p b1.length (b2.getD []).length (b3.getD []).length = true) :
    pseudoTransfer p b1 b2 b3 s = .next (s.afterPseudo p b1 b2 b3) := by
  obtain ⟨hlen, -⟩ := placementOk_iff.mp h
  let u : State := { s with mem := placedMem s.mem p b1 b2 b3 }
  have hwrites : runWrites (pseudoWrites p b1 b2 b3) u = .next (u.written (pseudoWrites p b1 b2 b3) s.cmds) :=
    runWrites_cons u (pseudoWrites_writable p b1 b2 b3)
  rw [pseudoTransfer, if_pos hlen, if_pos h]
  exact (congrArg (andThen · execTransfer) hwrites).trans (execTransfer_written s s.cmds h)

/-- Any other is refused, as TRANSFER would be (R162; log 16). -/
theorem pseudoTransfer_of_not_ok (s : State)
    (h : placementOk p b1.length (b2.getD []).length (b3.getD []).length = false) :
    pseudoTransfer p b1 b2 b3 s =
      if b1.length + (b2.getD []).length + (b3.getD []).length ≤ 65535 then .refused .bufferPastMemory
      else .refused .payloadTooLong := by
  rw [pseudoTransfer, h, if_neg Bool.false_ne_true]

theorem pseudoTransfer_refused (s : State)
    (h : placementOk p b1.length (b2.getD []).length (b3.getD []).length = false) :
    pseudoTransfer p b1 b2 b3 s = .refused .payloadTooLong ∨ pseudoTransfer p b1 b2 b3 s = .refused .bufferPastMemory := by
  rw [pseudoTransfer_of_not_ok s h]
  split
  · exact .inr rfl
  · exact .inl rfl

theorem pseudoTransfer_eq_next {s t : State} (h : pseudoTransfer p b1 b2 b3 s = .next t) :
    placementOk p b1.length (b2.getD []).length (b3.getD []).length = true ∧ t = s.afterPseudo p b1 b2 b3 := by
  cases hok : placementOk p b1.length (b2.getD []).length (b3.getD []).length with
  | false =>
    rcases pseudoTransfer_refused s hok with hrefused | hrefused
    all_goals
      rw [hrefused] at h
      cases h
  | true =>
    rw [pseudoTransfer_of_ok s hok] at h
    cases h
    exact ⟨rfl, rfl⟩

end

/-! ### The payload sent (R236 to R241) -/

/-- A run stored apart from another leaves it alone. -/
theorem getRange_setRange_apart (m : List Host.Cell) (bytes : List Byte) {a n b : Nat}
    (h : bytes = [] ∨ apart a n b bytes.length) : Memory.getRange (Memory.setRange m b bytes) a n = Memory.getRange m a n := by
  refine Memory.getRange_congr fun k hlow hhigh => ?_
  rcases h with rfl | h
  · rfl
  · unfold apart at h
    exact Memory.get_setRange_other m bytes (by omega)

theorem run_fits {base : Word} {bytes : List Byte} (h : fitsAt base bytes.length = true) :
    bytes = [] ∨ base.toNat + bytes.length ≤ Config.memSize := by
  simpa [fitsAt] using h

/-- What memory holds at the three placements when no later one overlaps an earlier one. -/
theorem getRange_placedMem {m : List Host.Cell} {p : Placement} {b1 c2 c3 : List Byte} {b2 b3 : Option (List Byte)}
    (h2 : b2.getD [] = c2) (h3 : b3.getD [] = c3) (hm : Memory.wf m = true)
    (hok : placementOk p b1.length c2.length c3.length = true) (h12 : c2 = [] ∨ apart p.a1.toNat b1.length p.a2.toNat c2.length)
    (h13 : c3 = [] ∨ apart p.a1.toNat b1.length p.a3.toNat c3.length)
    (h23 : c3 = [] ∨ apart p.a2.toNat c2.length p.a3.toNat c3.length) :
    Memory.getRange (placedMem m p b1 b2 b3) p.a1.toNat b1.length = b1 ∧
    Memory.getRange (placedMem m p b1 b2 b3) p.a2.toNat c2.length = c2 ∧
    Memory.getRange (placedMem m p b1 b2 b3) p.a3.toNat c3.length = c3 := by
  subst h2 h3
  obtain ⟨-, hfit1, hfit2, hfit3, -⟩ := placementOk_iff.mp hok
  have hm1 := Memory.wf_setRange hm b1 (run_fits hfit1)
  have hm2 := Memory.wf_setRange hm1 _ (run_fits hfit2)
  unfold placedMem
  refine ⟨?_, ?_, ?_⟩
  · rw [getRange_setRange_apart _ _ h13, getRange_setRange_apart _ _ h12, Memory.getRange_setRange hm _ (run_fits hfit1)]
  · rw [getRange_setRange_apart _ _ h23, Memory.getRange_setRange hm1 _ (run_fits hfit2)]
  · rw [Memory.getRange_setRange hm2 _ (run_fits hfit3)]

/-- An unused segment sends nothing, wherever its base stands. -/
theorem getRange_segment {m : List Host.Cell} {base a : Word} {b : Option (List Byte)} {c : List Byte} (h : b.getD [] = c)
    (hread : Memory.getRange m a.toNat c.length = c) :
    Memory.getRange m (b.elim base fun _ => a).toNat c.length = c := by
  cases b with
  | none =>
    subst h
    rfl
  | some bytes => exact hread

/-- The request of a pseudo-operation is its split, in order. -/
theorem activePayload_of_pseudo {p : Placement} {b1 c2 c3 : List Byte} {b2 b3 : Option (List Byte)} {s t : State}
    (h : pseudoTransfer p b1 b2 b3 s = .next t) (h2 : b2.getD [] = c2) (h3 : b3.getD [] = c3) (hh : s.hs = .idle)
    (hm : Memory.wf s.mem = true) (h12 : c2 = [] ∨ apart p.a1.toNat b1.length p.a2.toNat c2.length)
    (h13 : c3 = [] ∨ apart p.a1.toNat b1.length p.a3.toNat c3.length)
    (h23 : c3 = [] ∨ apart p.a2.toNat c2.length p.a3.toNat c3.length) : t.activePayload = b1 ++ c2 ++ c3 := by
  obtain ⟨hok, rfl⟩ := pseudoTransfer_eq_next h
  rw [h2, h3] at hok
  obtain ⟨hread1, hread2, hread3⟩ := getRange_placedMem h2 h3 hm hok h12 h13 h23
  obtain ⟨hlen, -⟩ := placementOk_iff.mp hok
  have hhs : (s.afterPseudo p b1 b2 b3).hs ≠ .reset := by simp [State.afterPseudo, State.describe, hh]
  rw [State.activePayload, if_neg hhs]
  simp only [State.afterPseudo, State.describe, h2, h3]
  rw [lenWord_toNat (by omega), lenWord_toNat (by omega), lenWord_toNat (by omega), hread1, getRange_segment h2 hread2,
    getRange_segment h3 hread3]

/-! ### The command words of an expansion (R235) -/

/-- Nothing but the block moves, it is idle, and no response is outstanding. -/
structure State.Resting (s : State) : Prop where
  quiet : s.quiet
  notBusy : s.busy = false
  noRsp : s.rsp = none

/-- On a quiet line an idle block finds the state as it is (log 3). -/
theorem taken_of_quiet_idle {s : State} (hquiet : s.quiet) (hb : s.busy = false) : s.taken = s := by
  rw [(taken_quiet hquiet.1 hquiet.2).2]
  simp [State.quietTick, hb]

theorem State.Resting.step_word {s : State} {w : Cmd} {rest : List Cmd} (h : s.Resting) (hq : s.cmds = w :: rest) :
    step s = exec (decodeHost w) { s with cmds := rest } := by
  rw [step_ready (taken_quiet h.quiet.1 h.quiet.2).1 h.notBusy h.noRsp,
    taken_of_quiet_idle h.quiet h.notBusy, issue_word hq]

/-- A response is delivered in a step of its own, and on a quiet line nothing else happens to an idle block (log 11). -/
theorem step_deliver {s : State} {v : Word} (hquiet : s.quiet) (hb : s.busy = false) (hr : s.rsp = some v) :
    step s = .next { s with rsp := none, rspLog := s.rspLog ++ [v] } := by
  rw [step_of_block (taken_quiet hquiet.1 hquiet.2).1, taken_of_quiet_idle hquiet hb, blockStep_of_rsp (by simp [hr]),
    deliver_some hr]

/-- One WRREG word: the write, and the delivery of its response. -/
theorem State.Resting.runs_wrreg {s : State} {r : HostReg} {v : Word} {rest : List Cmd} (h : s.Resting) (hr : r.writable = true)
    (hq : s.cmds = cmdWord 5 r.num v :: rest) :
    runs 2 s = .next { s.writeReg r v with rsp := none, rspLog := s.rspLog ++ [0], cmds := rest } ∧
      State.Resting { s.writeReg r v with rsp := none, rspLog := s.rspLog ++ [0], cmds := rest } := by
  obtain ⟨_, _, _, _, _, _, _, _, hframe⟩ := writeReg_frame { s with cmds := rest } r v
  obtain ⟨_, _, _, _, _, _, _, _, hframe'⟩ := writeReg_frame s r v
  have hwrite : step s = .next { { s with cmds := rest }.writeReg r v with rsp := some 0 } := by
    rw [h.step_word hq, decodeHost_cmdWord_wrreg hr, exec_wrreg_writable hr]
  have hchannel : { { s with cmds := rest }.writeReg r v with rsp := some 0 } =
      { s.writeReg r v with rsp := some 0, cmds := rest } := by
    cases r <;> rfl
  rw [hchannel] at hwrite
  have hbusy : ({ s.writeReg r v with rsp := some 0, cmds := rest } : State).busy = false := by
    rw [hframe']
    exact h.notBusy
  have hquiet : ({ s.writeReg r v with rsp := some 0, cmds := rest } : State).quiet := by
    rw [hframe']
    exact h.quiet
  constructor
  · rw [runs_succ_of_next hwrite, runs_succ_of_next (step_deliver hquiet hbusy rfl), runs_zero, writeReg_rspLog]
  · exact ⟨hquiet, hbusy, rfl⟩

/-- The WRREG words of a list, issued one by one, write its registers (R235). -/
theorem State.Resting.runs_wrregs {s : State} {ws : List (HostReg × Word)} {rest : List Cmd} (h : s.Resting)
    (hw : ∀ w ∈ ws, w.1.writable = true) (hq : s.cmds = ws.map (fun w => cmdWord 5 w.1.num w.2) ++ rest) :
    runs (2 * ws.length) s = .next (s.written ws rest) ∧ (s.written ws rest).Resting := by
  induction ws generalizing s with
  | nil =>
    have hnone : s.written [] rest = s := by
      have hcmds : s.cmds = rest := hq
      simp [State.written, State.writeRegs, ← h.noRsp, ← hcmds]
    rw [hnone]
    exact ⟨rfl, h⟩
  | cons w ws ih =>
    obtain ⟨r, v⟩ := w
    obtain ⟨hfirst, hresting⟩ := h.runs_wrreg (hw _ List.mem_cons_self) hq
    obtain ⟨hruns, hlast⟩ := ih hresting (fun w hmem => hw w (List.mem_cons_of_mem _ hmem)) rfl
    rw [written_cons] at hruns hlast
    refine ⟨?_, hlast⟩
    rw [List.length_cons, Nat.mul_succ, Nat.add_comm, runs_add hfirst, hruns]

/-- An expansion issued word by word, from memory with the payload placed, leads where `exec` of the pseudo-operation does. -/
theorem State.Resting.runs_pseudoWords {s : State} {p : Placement} {b1 : List Byte} {b2 b3 : Option (List Byte)} (h : s.Resting)
    (hq : s.cmds = []) (hok : placementOk p b1.length (b2.getD []).length (b3.getD []).length = true) :
    runs (2 * (pseudoWrites p b1 b2 b3).length + 1) { s with mem := placedMem s.mem p b1 b2 b3, cmds := pseudoWords p b1 b2 b3 } =
      pseudoTransfer p b1 b2 b3 s := by
  let u : State := { s with mem := placedMem s.mem p b1 b2 b3 }
  have hu : State.Resting { u with cmds := pseudoWords p b1 b2 b3 } := ⟨h.quiet, h.notBusy, h.noRsp⟩
  obtain ⟨hruns, hresting⟩ := hu.runs_wrregs (rest := [cmdWord 7 0 0]) (pseudoWrites_writable p b1 b2 b3) rfl
  have hlast : step (State.written { u with cmds := pseudoWords p b1 b2 b3 } (pseudoWrites p b1 b2 b3) [cmdWord 7 0 0]) =
      .next (s.afterPseudo p b1 b2 b3) := by
    have htransfer := execTransfer_written (p := p) (b1 := b1) (b2 := b2) (b3 := b3) s [] hok
    rw [hresting.step_word rfl, show decodeHost (cmdWord 7 0 0) = .transfer by decide, exec_transfer]
    rw [State.written, writeRegs_pseudoWrites] at htransfer ⊢
    exact htransfer.trans (by rw [← hq]; rfl)
  rw [runs_add hruns, runs_succ_of_next hlast, runs_zero, pseudoTransfer_of_ok s hok]

/-! ### Where the model stops (logs 16, 18) -/

theorem withMemByte_outside {s : State} {a : Nat} (k : Byte → Answer) (h : Config.memSize ≤ a) :
    s.withMemByte a k = .fault (.addressOutsideMemory a) :=
  if_neg (Nat.not_lt.mpr h)

theorem memWrite_outside {s : State} {a : Nat} (b : Byte) (h : Config.memSize ≤ a) :
    s.memWrite a b = .fault (.addressOutsideMemory a) :=
  if_neg (Nat.not_lt.mpr h)

theorem execFcSend_outside {s : State} {n : Nat} (hh : s.hs ≠ .reset) (hp : s.pos = 4 + n) (hn : n < s.txLen.toNat)
    (ha : Config.memSize ≤ s.payloadAddr n) : execFcSend s = .fault (.addressOutsideMemory (s.payloadAddr n)) := by
  have hpos : s.pos - 4 = n := by omega
  rw [execFcSend_payload hp hn, State.withPayloadByte, if_neg hh, hpos, withMemByte_outside _ ha]

theorem storeReplyByte_outside {s : State} (c : Byte) (hh : s.hs ≠ .reset) (hcap : s.rxCnt < s.rxCap)
    (ha : Config.memSize ≤ s.sinkAddr) : s.storeReplyByte c = .fault (.addressOutsideMemory s.sinkAddr) := by
  rw [State.storeReplyByte, activeCap_host hh, if_pos hcap, if_neg hh, memWrite_outside c ha]

theorem execFcRecv_outside {s : State} (hh : s.hs ≠ .reset) (hc : s.ctl = .receivingPayload) (hn : s.rxCnt ≠ s.rxLen)
    (hq : s.rxq ≠ []) (hcap : s.rxCnt < s.rxCap) (ha : Config.memSize ≤ s.sinkAddr) :
    execFcRecv s = .fault (.addressOutsideMemory s.sinkAddr) := by
  obtain ⟨c, rest, hcons⟩ := List.exists_cons_of_ne_nil hq
  rw [execFcRecv_receivingPayload hc, recvPayload_of_byte hn hcons]
  exact congrArg (andThen · _) (storeReplyByte_outside (s := (s.took c rest).fold c) c hh hcap ha)

theorem exec_payReset_beyond {s : State} (hp : 9 ≤ s.pos) : exec .payReset s = .fault (.beyondResetCommand (s.pos - 4)) := by
  have hnone : Config.hsResetCmd[s.pos - 4]? = none := by
    rw [List.getElem?_eq_none_iff]
    simp only [Config.hsResetCmd, List.length_cons, List.length_nil]
    omega
  rw [exec_payReset, withResetByte, hnone]

end Sys2Proof.Machine

open Sys2Proof Sys2Proof.Machine

/-- Settles O29: each is the expansion of its split. -/
theorem pseudoOperationsStartTheirTransfer : Obligations.PseudoOperationsStartTheirTransfer := by
  intro p k v s
  refine ⟨fun hwf => ?_, fun hwf => ?_, fun hwf => ?_, fun hwf => ?_, fun hwf => ?_, fun hwf => ?_⟩
  · exact pseudoTransfer_of_ok (b1 := [Config.letterFetch]) (b2 := some k) (b3 := none) s hwf
  · have hok : placementOk p (Config.letterStore :: k).length 1 v.length = true := by
      rw [List.length_cons, Nat.add_comm]
      exact hwf
    exact pseudoTransfer_of_ok (b2 := some [Config.kvSeparator]) (b3 := some v) s hok
  · exact pseudoTransfer_of_ok (b1 := [Config.letterEnqueue]) (b2 := some k) (b3 := none) s hwf
  · exact pseudoTransfer_of_ok (b1 := [Config.letterDequeue]) (b2 := none) (b3 := none) s hwf
  · have hok : placementOk p 1 0 0 = true := (Bool.and_eq_true_iff.mp hwf).1
    exact pseudoTransfer_of_ok (b1 := [Config.letterCount]) (b2 := none) (b3 := none) s hok
  · exact pseudoTransfer_of_ok (b1 := [Config.letterJson]) (b2 := some k) (b3 := none) s hwf

/-- Settles O30: the bytes read back from the placements are the split. -/
theorem pseudoOperationsRequestPayloads : Obligations.PseudoOperationsRequestPayloads := by
  intro p k v s t hh hm
  have hletter : ∀ b : Byte, apart p.a1.toNat 1 p.a2.toNat k.length → pseudoTransfer p [b] (some k) none s = .next t →
      t.activePayload = b :: k := by
    intro b hapart h
    simpa using activePayload_of_pseudo h rfl rfl hh hm (.inr hapart) (.inl rfl) (.inl rfl)
  have halone : ∀ b : Byte, pseudoTransfer p [b] none none s = .next t → t.activePayload = [b] := fun b h =>
    activePayload_of_pseudo h rfl rfl hh hm (.inl rfl) (.inl rfl) (.inl rfl)
  refine ⟨hletter _, fun h12 h13 h23 h => ?_, hletter _, halone _, halone _, hletter _⟩
  have hlen : (Config.letterStore :: k).length = 1 + k.length := by rw [List.length_cons, Nat.add_comm]
  rw [← hlen] at h12 h13
  exact (activePayload_of_pseudo h rfl rfl hh hm (.inr h12) (.inr h13) (.inr h23)).trans
    (by simp [Config.letterStore, Config.kvSeparator])

/-- Settles O31: the refusals of a placement that is not in order, and the three accesses outside. -/
theorem stopsOutsideTheMemory : Obligations.StopsOutsideTheMemory := by
  intro p k v s
  refine ⟨fun hbad i hi => ?_, fun hbad => ?_, fun hbad i hi => ?_, fun n => execFcSend_outside, execFcRecv_outside,
    exec_payReset_beyond⟩
  · simp only [List.mem_cons, List.not_mem_nil, or_false] at hi
    rcases hi with rfl | rfl | rfl
    all_goals exact pseudoTransfer_refused (b2 := some k) (b3 := none) s hbad
  · have hbad' : placementOk p (Config.letterStore :: k).length 1 v.length = false := by
      rwa [List.length_cons, Nat.add_comm]
    exact pseudoTransfer_refused (b2 := some [Config.kvSeparator]) (b3 := some v) s hbad'
  · simp only [List.mem_cons, List.not_mem_nil, or_false] at hi
    rcases hi with rfl | rfl
    · exact pseudoTransfer_of_not_ok (b1 := [Config.letterDequeue]) (b2 := none) (b3 := none) s hbad
    · exact pseudoTransfer_of_not_ok (b1 := [Config.letterCount]) (b2 := none) (b3 := none) s hbad

/-- Settles O32: seven WRREG words of two steps each, and TRANSFER. -/
theorem getIsItsExpansion : Obligations.GetIsItsExpansion := by
  intro p key s hwf hb hr hquiet hq
  have hresting : s.Resting := ⟨hquiet, hb, hr⟩
  have hruns := hresting.runs_pseudoWords (p := p) (b1 := [Config.letterFetch]) (b2 := some key) (b3 := none) hq hwf
  rw [show 2 * (pseudoWrites p [Config.letterFetch] (some key) none).length + 1 = 15 from rfl] at hruns
  exact hruns

/-- Settles O33, by reading the two bytes of the reply. -/
theorem messageCountIsBigEndian : Obligations.MessageCountIsBigEndian := by
  intro s h
  have hreply : s.reply = [Memory.get s.mem s.rxBase.toNat, Memory.get s.mem (s.rxBase.toNat + 1)] := by
    rw [State.reply, h]
    rfl
  rw [State.messageCount, hreply]

end

