-- ==== Sys2Proof/Proofs/WholeTransfers.lean ====
section
/-! Whole transfers on a quiet line with the reply in the queue: the reset reply up to `HsCheck`, and TRANSFER in one attempt
(spec/42_retry_sync_controller.md R160, R172, R173, R176, spec/43_startup_handshake.md R209, R217). -/

namespace Sys2Proof.Machine

/-! ### The payload of a reset reply (R30, R140) -/

/-- A reply byte of the reset transfer taken off the queue and folded; the first one is `hs_reply` (R30, R31). -/
def State.withResetReplyByte (s : State) (c : Byte) (rest : List Byte) : State :=
  { s.took c rest with acc := ckUpdate s.acc c, hsReply := if s.rxCnt = 0 then c else s.hsReply }

/-- The sink of the reset transfer keeps the first byte and drops the others. -/
theorem storeReplyByte_resetTransfer {s : State} (c : Byte) (hh : s.hs = .reset) :
    s.storeReplyByte c = .next { s with hsReply := if s.rxCnt = 0 then c else s.hsReply } := by
  by_cases h0 : s.rxCnt = 0
  · rw [storeReplyByte_reset c hh h0, if_pos h0]
  · rw [storeReplyByte_dropped c (not_lt_activeCap_reset hh h0), if_neg h0]

/-- The payload phase of the reset transfer, with no wait under way. -/
structure State.ResetPayload (s : State) : Prop extends s.Running where
  receiving : s.ctl = .receivingPayload
  reset : s.hs = .reset
  still : s.waiting = false

theorem State.ResetPayload.step_eq_recvPayload {s : State} (h : s.ResetPayload) : step s = s.recvPayload := by
  rw [h.step_receiving (by simp [h.receiving]), h.taken_of_still h.still, execFcRecv_receivingPayload h.receiving]

theorem State.ResetPayload.step_byte {s : State} {c : Byte} {rest : List Byte} (h : s.ResetPayload) (hn : s.rxCnt ≠ s.rxLen)
    (hq : s.rxq = c :: rest) : step s = .next (s.withResetReplyByte c rest).countReplyByte := by
  rw [h.step_eq_recvPayload, recvPayload_of_byte hn hq]
  exact congrArg (andThen · _) (storeReplyByte_resetTransfer (s := (s.took c rest).fold c) c h.reset)

/-- The payload bytes that are left: each is folded, and one that is not the first is dropped (R140, R145). -/
theorem State.ResetPayload.runs_bytes {s : State} {c : Byte} {p rest : List Byte} (h : s.ResetPayload)
    (hlen : s.rxCnt.toNat + (p.length + 1) = s.rxLen.toNat) (hq : s.rxq = c :: (p ++ rest)) :
    ∃ now t r, runs (p.length + 1) s =
      .next { s.polled now t r rest with acc := ckFold s.acc (c :: p), rxCnt := s.rxLen,
                                         hsReply := if s.rxCnt = 0 then c else s.hsReply, ctl := .validating, pos := 0 } := by
  induction p generalizing s c with
  | nil =>
    have hlast : s.rxCnt + 1 = s.rxLen := by
      simp only [List.length_nil] at hlen
      bv_omega
    have hbyte := (h.step_byte (by bv_omega) hq).trans
      (congrArg _ (countReplyByte_last (s := s.withResetReplyByte c _) hlast))
    rw [List.length_nil, runs_succ_of_next hbyte]
    exact ⟨_, _, _, rfl⟩
  | cons d p ih =>
    rw [List.length_cons] at hlen
    have hmore : s.rxCnt + 1 ≠ s.rxLen := by bv_omega
    have hcnt : (s.rxCnt + 1).toNat = s.rxCnt.toNat + 1 := by bv_omega
    have hlater : s.rxCnt + 1 ≠ 0 := by bv_omega
    let u : State := { s.withResetReplyByte c (d :: (p ++ rest)) with rxCnt := s.rxCnt + 1 }
    have hbyte : step s = .next u := (h.step_byte (by bv_omega) hq).trans
      (congrArg _ (countReplyByte_more (s := s.withResetReplyByte c _) hmore))
    have hu : u.ResetPayload := ⟨⟨h.quiet, h.noRsp, h.active⟩, h.receiving, h.reset, rfl⟩
    have hleft : u.rxCnt.toNat + (p.length + 1) = u.rxLen.toNat := by
      simp only [u, State.withResetReplyByte, State.took, hcnt]
      omega
    obtain ⟨now, t, r, hrest⟩ := ih hu hleft rfl
    rw [if_neg hlater] at hrest
    exact ⟨now, t, r, (runs_succ_of_next hbyte).trans hrest⟩

/-- The phase with the whole payload in the queue; an empty payload leaves `hs_reply` as it was (R31, R170). -/
theorem State.ResetPayload.runs_payload {s : State} {p rest : List Byte} (h : s.ResetPayload) (hcnt : s.rxCnt = 0)
    (hlen : s.rxLen.toNat = p.length) (hq : s.rxq = p ++ rest) :
    ∃ now t r, runs (max p.length 1) s =
      .next { s.polled now t r rest with acc := ckFold s.acc p, rxCnt := s.rxLen, hsReply := p.head?.getD s.hsReply,
                                         ctl := .validating, pos := 0 } := by
  cases p with
  | nil =>
    have hdone : s.rxCnt = s.rxLen := by
      simp only [List.length_nil] at hlen
      bv_omega
    have hstep : step s = .next (s.enterCtl .validating) := by
      rw [h.step_eq_recvPayload, recvPayload_of_done hdone]
    refine ⟨s.nowMs, s.t0, s.timedResult, (runs_succ_of_next hstep).trans ?_⟩
    have hrest : s.rxq = rest := hq
    simp [State.polled, State.enterCtl, ckFold, hdone, hrest]
  | cons c p =>
    obtain ⟨now, t, r, hrun⟩ := h.runs_bytes (by simp [hlen, hcnt]) hq
    refine ⟨now, t, r, ?_⟩
    rw [List.length_cons, Nat.max_eq_left (by omega), hrun, if_pos hcnt]
    rfl

/-! ### The accepted reset reply (R209, R217) -/

/-- The whole reply of the reset transfer in the queue: header, payload, trailer and the accept step (R147). -/
theorem State.Running.runs_accepts_resetReply {s : State} {p rest : List Byte} (h : s.Running) (hc : s.ctl = .awaitingAck)
    (hh : s.hs = .reset) (hp : p.length ≤ 65535) (hq : s.rxq = frame s.index p ++ rest) :
    ∃ now t r, let len := BitVec.ofNat 16 p.length
      runs (6 + max p.length 1) s =
        .next { s.polled now t r rest with
          acc := ck (frameBody s.index p), hdrI := 2, rxLen := len, rxCnt := len, candHi := hiByte (ck (frameBody s.index p)),
          hsReply := p.head?.getD s.hsReply, index := s.index + 1, ctl := .idle, hs := .check, pos := 0 } := by
  let len := BitVec.ofNat 16 p.length
  let trailer := hiByte (ck (frameBody s.index p)) :: loByte (ck (frameBody s.index p)) :: rest
  have hlen : len.toNat = p.length := by
    rw [BitVec.toNat_ofNat]
    omega
  have hq' : s.rxq = frameHeader s.index len ++ (p ++ trailer) := by
    simp [hq, frame, frameBody, len, trailer]
  obtain ⟨now₁, t₁, r₁, hheader⟩ := h.runs_header hc hq'
  let u : State := { s.polled now₁ t₁ r₁ (p ++ trailer) with
    acc := ckFold Config.seed (frameHeader s.index len), hdrI := 2, rxLen := len, rxCnt := 0, ctl := .receivingPayload, pos := 0 }
  have hu : u.ResetPayload := ⟨⟨h.quiet, h.noRsp, h.active⟩, rfl, hh, rfl⟩
  obtain ⟨now₂, t₂, r₂, hpayload⟩ := hu.runs_payload (p := p) (rest := trailer) rfl hlen rfl
  let v : State := { u.polled now₂ t₂ r₂ trailer with
    acc := ck (frameBody s.index p), rxCnt := len, hsReply := p.head?.getD s.hsReply, ctl := .validating, pos := 0 }
  have hv : v.Running := ⟨h.quiet, h.noRsp, h.active⟩
  obtain ⟨t₃, r₃, htrailer⟩ := hv.runs_trailer (rest := rest) rfl rfl rfl rfl
  have haccept := accept_reset (s := { v.polled now₂ t₃ r₃ rest with candHi := hiByte v.acc, pos := 1 }) hh
  refine ⟨now₂, t₃, r₃, ?_⟩
  have hsteps : 6 + max p.length 1 = 4 + (max p.length 1 + 2) := by omega
  rw [hsteps, runs_add hheader, runs_add hpayload]
  exact htrailer.trans (congrArg _ haccept)

/-! ### TRANSFER in one attempt (R160, R176) -/

/-- A resting block that is offered TRANSFER with its preconditions met enters `Sending` (R161). -/
theorem State.Resting.step_transfer {s : State} {later : List Cmd} (h : s.Resting) (hpre : transferPre s)
    (hq : s.cmds = 0x700000 :: later) :
    step s = .next { s with cmds := later, ctl := .sending, pos := 0, waiting := false } := by
  rw [h.step_word hq, show decodeHost 0x700000 = .transfer by decide]
  exact (transferEntersSendingOrIsRefused { s with cmds := later }).1 hpre

end Sys2Proof.Machine

open Sys2Proof Sys2Proof.Machine

/-- Settles O56: the run of `runs_accepts_resetReply`, read field by field. -/
theorem validResetReplyReachesCheck : Obligations.ValidResetReplyReachesCheck := by
  intro s p rest hquiet hrsp hhs hctl hp hq
  obtain ⟨now, t, r, hrun⟩ := State.Running.runs_accepts_resetReply ⟨hquiet, hrsp, .inr hhs⟩ hctl hhs hp hq
  exact ⟨_, hrun, rfl, rfl, rfl, rfl, rfl, hrsp, rfl, rfl, rfl, rfl⟩

/-- Settles O57: the issue, the request frame of `runs_sends_frame` and the reply of `runs_accepts_reply`, one run behind the
other. -/
theorem transferCompletesOnAValidReply : Obligations.TransferCompletesOnAValidReply := by
  intro s p rest later hquiet hb hrsp hready hpre hcmds hp hq
  obtain ⟨-, hhs⟩ := not_busy_iff.mp hb
  have hissue := State.Resting.step_transfer ⟨hquiet, hb, hrsp⟩ hpre hcmds
  let u : State := { s with cmds := later, ctl := .sending, pos := 0, waiting := false }
  obtain ⟨now, hsend⟩ := runs_sends_frame (s := u) ⟨hquiet, hrsp, .inl hhs⟩ rfl rfl hready (.inr ⟨hhs, hpre⟩)
  let v : State := { u with
    nowMs := now, txLen := BitVec.ofNat 16 u.activeLen, acc := ck (frameBody u.index u.activePayload),
    txlog := u.txlog ++ frame u.index u.activePayload, ctl := .awaitingAck, pos := 0, waiting := false }
  have hv : v.Running := ⟨hquiet, hrsp, .inl hhs⟩
  obtain ⟨now', t, r, hreply⟩ := hv.runs_accepts_reply rfl hhs (rxBufferFits_of_transferPre hpre) hp hq
  have hcount : minWord (BitVec.ofNat 16 p.length) s.rxCap = BitVec.ofNat 16 (min p.length s.rxCap.toNat) := by
    rw [minWord_eq_ofNat, BitVec.toNat_ofNat, Nat.mod_eq_of_lt (by omega)]
  have hbegin : runs (1 + (6 + s.activeLen)) s = .next v := by
    rw [Nat.add_comm 1, runs_succ_of_next hissue]
    exact hsend
  exact ⟨_, (runs_add hbegin).trans hreply, not_busy_iff.mpr ⟨rfl, hhs⟩, rfl, rfl, rfl, rfl, congrArg some hcount, rfl, rfl⟩

end

