-- ==== Sys2Proof/Proofs/SilentLine.lean ====
section
/-! Runs that do not complete (spec/42_retry_sync_controller.md R174, R176, spec/60_exceptions.md R262): the attempt that a silent
line abandons, the transfer that a silent peer blocks for ever, and the drain that a peer which sends without pause keeps going. -/

namespace Sys2Proof.Machine

/-! ### A wait on a quiet schedule (R130, R132, log 3) -/

/-- `s` after a wait that began there has gone on for `n` ms; the last poll left `r`. -/
def State.waited (s : State) (r : TimedResult) (n : Nat) : State :=
  { s with t0 := s.nowMs, waiting := true, timedResult := r, nowMs := s.nowMs + BitVec.ofNat 32 n }

section
variable (s : State) (r : TimedResult) {n : Nat}

theorem waited_waitStart : (s.waited r n).waitStart = s.nowMs := rfl

theorem waited_waitedMs (hn : n < 2 ^ 32) : (s.waited r n).waitedMs = n := by
  rw [State.waitedMs, waited_waitStart, State.waited, BitVec.add_comm, BitVec.add_sub_cancel, BitVec.toNat_ofNat,
    Nat.mod_eq_of_lt hn]

/-- A wait that begins samples the clock and has lasted for 0 ms. -/
theorem waited_zero : s.waited r 0 = { s with t0 := s.nowMs, waiting := true, timedResult := r } := by
  simp [State.waited]

end

theorem waitStart_of_still {s : State} (h : s.waiting = false) : s.waitStart = s.nowMs := by
  simp [State.waitStart, h]

theorem waitedMs_of_still {s : State} (h : s.waiting = false) : s.waitedMs = 0 := by
  simp [State.waitedMs, waitStart_of_still h]

section
variable {s : State} {r : TimedResult}

theorem State.Running.waited (h : s.Running) (n : Nat) : (s.waited r n).Running :=
  ⟨h.quiet, h.noRsp, h.active⟩

/-- Before each poll of a wait the quiet clock goes on by 1 ms. -/
theorem State.Running.step_waited (h : s.Running) (hc : s.ctl ≠ .idle) (n : Nat) :
    step (s.waited r n) = controllerStep (s.waited r (n + 1)) := by
  have htick : (s.waited r n).taken = s.waited r (n + 1) := by
    rw [(taken_quiet (s := s.waited r n) h.quiet.1 h.quiet.2).2, State.quietTick, busy_of_running (s := s.waited r n) hc]
    simp [State.waited, BitVec.add_assoc, BitVec.ofNat_add]
  rw [(h.waited n).step_eq_controllerStep hc, htick]

/-- A wait that begins with the first step and goes on at every poll before `T` ms. -/
theorem State.Running.runs_wait {T : Nat} (h : s.Running) (hc : s.ctl ≠ .idle) (hfirst : step s = .next (s.waited r 0))
    (hmore : ∀ n, n < T → controllerStep (s.waited r n) = .next (s.waited r n)) :
    ∀ n, n < T → runs (n + 1) s = .next (s.waited r n) := by
  intro n hn
  induction n with
  | zero => exact runs_succ_of_next hfirst
  | succ n ih =>
    have hnext : step (s.waited r n) = .next (s.waited r (n + 1)) := (h.step_waited hc n).trans (hmore _ hn)
    rw [runs_add (ih (by omega)), runs_succ_of_next hnext, runs_zero]

end

/-! ### The attempt abandoned and begun again (R164, R174) -/

/-- No byte in the queue, and no wait under way. -/
structure State.SilentStart (s : State) : Prop extends s.Running where
  empty : s.rxq = []
  still : s.waiting = false

/-- `T_ACK` of silence abandons the attempt (R164, R267). -/
theorem State.SilentStart.runs_awaitingAck {s : State} (h : s.SilentStart) (hc : s.ctl = .awaitingAck) :
    runs 101 s = .next (s.waited .pending 100).gaveUp.retrying := by
  have hrun : s.ctl ≠ .idle := by simp [hc]
  have hrecv : ∀ n, controllerStep (s.waited .pending n) = execFcRecv (s.waited .pending n) := fun n =>
    controllerStep_receiving (by simp [State.waited, hc])
  have hfirst : step s = .next (s.waited .pending 0) := by
    have hwaits := execFcRecv_waits (.inl ⟨hc, rfl⟩) h.empty (by rw [waitedMs_of_still h.still]; decide)
    rw [h.step_receiving (by simp [hc]), h.taken_of_still h.still, hwaits, State.stillWaits, waitStart_of_still h.still,
      waited_zero]
  have hmore : ∀ n, n < Config.tAck → controllerStep (s.waited .pending n) = .next (s.waited .pending n) := by
    intro n hn
    have hshort : (s.waited .pending n).waitedMs < Config.tAck := by
      rwa [waited_waitedMs _ _ (hn.trans (by decide))]
    rw [hrecv, execFcRecv_waits (s := s.waited .pending n) (.inl ⟨hc, rfl⟩) h.empty hshort]
    rfl
  have hlast : step (s.waited .pending 99) = .next (s.waited .pending 100).gaveUp.retrying := by
    have hlong : Config.tAck ≤ (s.waited .pending 100).waitedMs := by
      rw [waited_waitedMs _ _ (by decide)]
      decide
    rw [h.toRunning.step_waited hrun, hrecv, execFcRecv_timeout (s := s.waited .pending 100) (.inl ⟨hc, rfl⟩) h.empty hlong]
  have hwait : runs 100 s = .next (s.waited .pending 99) := h.toRunning.runs_wait hrun hfirst hmore 99 (by decide)
  exact (runs_add (k := 1) hwait).trans (runs_succ_of_next (k := 0) hlast)

/-- `T_BACKOFF` later, with nothing to drain, the block is at the start of `Sending` (R174, R260). -/
theorem State.SilentStart.runs_retrying {s : State} (h : s.SilentStart) (hc : s.ctl = .retrying) (hp : s.pos = 0) :
    runs 102 s =
      .next { s with t0 := s.nowMs, nowMs := s.nowMs + 100, ctl := .sending, pos := 0, waiting := false } := by
  have hrun : s.ctl ≠ .idle := by simp [hc]
  have hretry : ∀ n, controllerStep (s.waited s.timedResult n) = .next (s.waited s.timedResult n).retryStep := fun n =>
    controllerStep_retrying hc
  have hfirst : step s = .next (s.waited s.timedResult 0) := by
    rw [h.step_eq_controllerStep hrun, h.taken_of_still h.still, controllerStep_retrying hc,
      retryStep_waits hp (by rw [waitedMs_of_still h.still]; decide), waitStart_of_still h.still, waited_zero]
  have hmore : ∀ n, n < Config.tBackoff →
      controllerStep (s.waited s.timedResult n) = .next (s.waited s.timedResult n) := by
    intro n hn
    have hshort : (s.waited s.timedResult n).waitedMs < Config.tBackoff := by
      rwa [waited_waitedMs _ _ (hn.trans (by decide))]
    rw [hretry, retryStep_waits (s := s.waited s.timedResult n) hp hshort]
    rfl
  let u : State := { s with t0 := s.nowMs, nowMs := s.nowMs + 100, waiting := false, pos := 1 }
  have helapsed : step (s.waited s.timedResult 99) = .next u := by
    have hlong : Config.tBackoff ≤ (s.waited s.timedResult 100).waitedMs := by
      rw [waited_waitedMs _ _ (by decide)]
      decide
    rw [h.toRunning.step_waited hrun, hretry, retryStep_elapsed (s := s.waited s.timedResult 100) hp hlong]
    rfl
  have hreturn : step u = .next { u with ctl := .sending, pos := 0, waiting := false } := by
    have hu : u.Running := ⟨h.quiet, h.noRsp, h.active⟩
    rw [hu.step_eq_controllerStep hrun, hu.taken_of_still rfl, controllerStep_retrying (s := u) hc,
      retryStep_returns (s := u) Nat.one_ne_zero h.empty]
  have hwait : runs 100 s = .next (s.waited s.timedResult 99) := h.toRunning.runs_wait hrun hfirst hmore 99 (by decide)
  exact (runs_add (k := 2) hwait).trans ((runs_succ_of_next (k := 1) helapsed).trans (runs_succ_of_next (k := 0) hreturn))

/-! ### A peer that stays silent (R176, R262) -/

/-- The block leaves the schedule to the agents. -/
theorem Effect.quiet {s t : State} (h : Effect s t) (hq : s.quiet) : t.quiet := by
  cases h with
  | respond _ w rest hr hh hc hcmds h =>
    obtain ⟨-, -, -, -, -, -, -, -, -, -, -, -, rfl⟩ := h
    exact hq
  | accepted =>
    rcases finishAccept_eq s with ⟨-, he⟩ | ⟨-, he⟩
    all_goals
      rw [he]
      exact hq
  | _ => exact hq

/-- A controller leaves its transfer only with the last byte of a reply (R173). -/
theorem Effect.keeps_running {s t : State} (h : Effect s t) (hrun : s.ctl ≠ .idle) (hacc : s.ctl ≠ .accepted)
    (hq : s.rxq = []) : t.ctl ≠ .idle := by
  cases h with
  | respond _ w rest hr hh hc => exact absurd hc hrun
  | transfer w rest hr hh hc => exact absurd hc hrun
  | payloadByte c rest m r hr hh hc he hcons => simp [hq] at hcons
  | accept c rest hr hh hc hp hcons => simp [hq] at hcons
  | acceptReset c rest hr hh hc hp hcons => simp [hq] at hcons
  | accepted hr hh hc => exact absurd hc hacc
  | sendLow | giveUp | reject | marker | headerLow | payloadEnd | retryReturn | hsReset => nofun
  | _ => exact hrun

/-- With an empty queue the accept step cannot come, and nothing refills the queue. -/
theorem Effect.silent {s t : State} (h : Effect s t) (hq : s.rxq = []) : t.index = s.index ∧ t.rxq = [] := by
  constructor
  · rcases h.index_eq_or_acceptStep with hsame | ⟨-, -, -, -, c, rest, hcons, -⟩
    · exact hsame
    · simp [hq] at hcons
  · cases h.transportUse with
    | none hw hsame => rw [hsame, hq]
    | write b hw hsame hs => rw [hsame, hq]
    | read c hw hcons hs => simp [hq] at hcons
    | drain hw hempty hs => exact hempty

/-- A transfer in progress with nobody to answer it. -/
structure State.Unanswered (s : State) : Prop where
  sound : s.Sound
  quiet : s.quiet
  running : s.ctl ≠ .idle
  empty : s.rxq = []

theorem State.Unanswered.step {s : State} (h : s.Unanswered) :
    ∃ t, step s = .next t ∧ t.Unanswered ∧ t.index = s.index := by
  have hmoves : Running s := ⟨h.quiet, h.sound.rsp_none h.running, h.sound.mayRun h.running⟩
  obtain ⟨t, ht⟩ := h.sound.taken.controllerStep_next
  have hstep : Machine.step s = .next t := (hmoves.step_eq_controllerStep h.running).trans ht
  obtain ⟨now, hnow⟩ := hmoves.taken_eq
  have heffect : Effect s.taken t := effect_of_step (taken_quiet h.quiet.1 h.quiet.2).1 hstep
  have hq : s.taken.rxq = [] := by rw [taken_rxq, h.empty]
  obtain ⟨hindex, hempty⟩ := heffect.silent hq
  have hquiet : s.taken.quiet := by
    rw [hnow]
    exact h.quiet
  refine ⟨t, hstep, ⟨h.sound.step hstep, heffect.quiet hquiet, ?_, hempty⟩, by rw [hindex, taken_index]⟩
  exact heffect.keeps_running (by simpa using h.running) (by simpa using h.sound.notAccepted) hq

theorem State.Unanswered.runs {s : State} (h : s.Unanswered) (k : Nat) :
    ∃ t, runs k s = .next t ∧ t.Unanswered ∧ t.index = s.index := by
  induction k generalizing s with
  | zero => exact ⟨s, rfl, h, rfl⟩
  | succ k ih =>
    obtain ⟨u, hstep, hu, hindex⟩ := h.step
    obtain ⟨t, hruns, ht, hindex'⟩ := ih hu
    exact ⟨t, (runs_succ_of_next hstep).trans hruns, ht, hindex'.trans hindex⟩

/-! ### A peer that sends without pause (R133, R262) -/

/-- The drain of the retry path, with a byte arriving before each of the block's steps. -/
structure State.Flooded (s : State) (b : Byte) : Prop where
  noRsp : s.rsp = none
  host : s.hs = .idle
  retrying : s.ctl = .retrying
  draining : s.pos = 1
  schedule : s.sched = []
  recurring : s.loop = [.arrive [b], .block]

/-- A round of the drain ends where it began: the byte that has arrived is drained, and the next one is on its way. -/
theorem State.Flooded.runs_round {s : State} {b : Byte} (h : s.Flooded b) : runs 2 s = .next { s with rxq := [] } := by
  let u : State := { s with sched := [.block], rxq := s.rxq ++ [b] }
  have harrive : step s = .next u := by
    have hmove : s.nextMove = .arrive [b] := by simp [State.nextMove, h.schedule, h.recurring]
    rw [step_of_env (by simp [hmove]), hmove]
    simp [State.taken, h.schedule, h.recurring, State.applyMove, u]
  have hdrain : step u = .next { s with rxq := [] } := by
    rw [step_retrying (s := u) rfl h.noRsp (.inl h.host) h.retrying, retryStep_drains (by simp [u, h.draining]) (by simp [u])]
    simp [u, State.taken, h.schedule]
  rw [runs_succ_of_next harrive, runs_succ_of_next hdrain, runs_zero]

theorem State.Flooded.runs {s : State} {b : Byte} (h : s.Flooded b) (k : Nat) :
    ∃ t, runs (2 * k) s = .next t ∧ t.Flooded b ∧ t.index = s.index := by
  induction k generalizing s with
  | zero => exact ⟨s, rfl, h, rfl⟩
  | succ k ih =>
    have hround : ({ s with rxq := [] } : State).Flooded b :=
      ⟨h.noRsp, h.host, h.retrying, h.draining, h.schedule, h.recurring⟩
    obtain ⟨t, hruns, ht, hindex⟩ := ih hround
    refine ⟨t, ?_, ht, hindex⟩
    rw [Nat.mul_succ, Nat.add_comm, runs_add h.runs_round, hruns]

end Sys2Proof.Machine

open Sys2Proof Sys2Proof.Machine

/-- Settles O58: 100 ms without a first byte and 100 ms of delay, each a wait of one poll a millisecond. -/
theorem silentAttemptIsRetried : Obligations.SilentAttemptIsRetried := by
  intro s hquiet hrsp hhs hctl hstill hempty
  have hstart : s.SilentStart := ⟨⟨hquiet, hrsp, hhs⟩, hempty, hstill⟩
  have hretry : ((s.waited .pending 100).gaveUp.retrying).SilentStart := ⟨⟨hquiet, hrsp, hhs⟩, hempty, rfl⟩
  have hrun := (runs_add (hstart.runs_awaitingAck hctl)).trans (hretry.runs_retrying rfl rfl)
  refine ⟨_, hrun, rfl, rfl, rfl, rfl, rfl, rfl, rfl, hempty, hrsp, ?_, fun r hr => ?_⟩
  · simp [State.waited, State.gaveUp, State.retrying, BitVec.add_assoc]
  · cases r with
    | resultLen | index | acc | status => cases hr
    | seg1Base | seg1Len | seg2Base | seg2Len | seg3Base | seg3Len | rxBase | rxCap => rfl

/-- Settles O59, by induction on the number of steps: each leaves a transfer in progress unanswered. -/
theorem silentPeerBlocksForEver : Obligations.SilentPeerBlocksForEver := by
  intro s k hinv hquiet hrun hempty
  obtain ⟨t, hruns, ht, hindex⟩ := State.Unanswered.runs ⟨(inv_iff_sound s).mp hinv, hquiet, hrun, hempty⟩ k
  exact ⟨t, hruns, busy_of_running ht.running, ht.sound.rsp_none ht.running, hindex, ht.empty⟩

/-- Settles O60, by induction on the rounds of the recurring schedule. -/
theorem drainMayNeverEnd : Obligations.DrainMayNeverEnd := by
  intro s b k hrsp hhs hctl hpos hsched hloop
  obtain ⟨t, hruns, ht, hindex⟩ := State.Flooded.runs ⟨hrsp, hhs, hctl, hpos, hsched, hloop⟩ k
  exact ⟨t, hruns, ht.retrying, ht.draining, hindex⟩

end
